-- ==== Sys2Proof/Word.lean ====
section
/-!
DEFINITION. The word types of the LinkTransport frame receiver (spec/00_scope.md R7): every value is
unsigned, bit 0 is the least significant bit.
-/

namespace Sys2Proof

/-- `u8`: one byte of a line, a buffer cell or a command's data (R7). -/
abbrev Byte := BitVec 8

/-- `u16`: the N field, the capacity counters and the CRC values (R7). -/
abbrev Half := BitVec 16

/-- `u32`: a command word, a register of the register view, a latch word (R7). -/
abbrev Word := BitVec 32

/-- `u64`: a timestamp or an age (R7, R35). -/
abbrev Time := BitVec 64

end Sys2Proof
end

