-- ==== Sys2Proof/Config.lean ====
section
/-!
DEFINITION. The implementation parameters of spec/00_scope.md R5. They are fixed for the lifetime of an
instance and most are OPEN: the model quantifies over them. One instance carries its own `Params`
(R6: "each with its own parameters"), in a field of State that no step writes.
-/

namespace Sys2Proof

/-- The parameters of one instance (R5). `bufCap` has 16 bits because `REMAINING` has (decision D4). -/
structure Params where
  /-- `BUF_CAP`, capacity in bytes of each receive buffer. -/
  bufCap : Half
  /-- `MOTOR_CAP`, largest motor-controller frame the decoder holds. -/
  motorCap : Nat
  /-- `SAT_CAP`, largest satellite frame the decoder holds. -/
  satCap : Nat
  /-- `COBS_CAP`, largest encoded frame the decoder holds, delimiter excluded. -/
  cobsCap : Nat
  /-- `ASCII_CAP`, largest line the framer holds, `$` and LF included. -/
  asciiCap : Nat
  /-- `SAT_SYNC1`. -/
  satSync1 : Byte
  /-- `SAT_SYNC2`. -/
  satSync2 : Byte
  /-- `K_FIELDS`, number of latch slots. -/
  kFields : Nat
  deriving DecidableEq, Repr

/-- The legal ranges of R5. The upper bound of `BUF_CAP` (65535) is its width. -/
abbrev Params.wf (p : Params) : Prop :=
  1 ≤ p.bufCap.toNat ∧ 5 ≤ p.motorCap ∧ p.motorCap ≤ 260 ∧ 8 ≤ p.satCap ∧ p.satCap ≤ 65543 ∧
  5 ≤ p.cobsCap ∧ p.cobsCap ≤ 65535 ∧ 2 ≤ p.asciiCap ∧ p.asciiCap ≤ 65535 ∧
  1 ≤ p.kFields ∧ p.kFields ≤ 256

/-- `BLOCK_MIN` (R5, conflict C2). -/
def Config.blockMin : Nat := 1

/-- `BLOCK_MAX` (R5). -/
def Config.blockMax : Nat := 32

/-- The parameters `State.reset` is given, and nothing else: every statement of the package that
speaks of reset is about all legal parameters. `motorCap` and the sync bytes are R5's defaults; the other
values are those of the spec's vectors (spec/95_test_vectors.md conventions, `BUF_CAP` = 4 in 2.2).
DESIGN CHOICE (log 1): the spec leaves them OPEN. unsafe, where a claim leans on them. -/
def Config.resetParams : Params :=
  { bufCap := 4, motorCap := 260, satCap := 1024, cobsCap := 512, asciiCap := 82,
    satSync1 := 0xB5, satSync2 := 0x62, kFields := 4 }

end Sys2Proof
end

