-- ==== Sys2Proof/Syntax.lean ====
section
/-!
DEFINITION. The commands of the block, one constructor per row of spec/opcode_table.json (R94), with the
operands R93 assembles for the row's format: `a` or `f` (format A, W), `n` (format I), the data bytes `d`
(format S), `v` (format W), `t` (format T8), `now` and `maxAge` (format T16).
The issuing agent is a property of the port, not of the command word (R92), so it is no operand.
-/

namespace Sys2Proof

/-- The 26 commands (spec/30_encoding.md R94). -/
inductive Instr where
  /-- RX_BYTE, R151. -/
  | rxByte (a : Byte)
  /-- RX_EVENT, R153. -/
  | rxEvent
  /-- START, R150. -/
  | start (a : Byte)
  /-- TAKE, R156. -/
  | take
  /-- READ_BUF, R157. -/
  | readBuf (n : Half)
  /-- DONE, R158. -/
  | done
  /-- FLUSH, R159. -/
  | flush
  /-- READ_REG, R160. -/
  | readReg (a : Byte)
  /-- FEED, R181. -/
  | feed (d : List Byte)
  /-- VALIDATE_BLOCK, R202. -/
  | validateBlock (d : List Byte)
  /-- CRC16_XMODEM, R122. -/
  | crc16Xmodem (d : List Byte)
  /-- CRC16_CCITT_FALSE, R123. -/
  | crc16CcittFalse (d : List Byte)
  /-- FLETCHER8, R124. -/
  | fletcher8 (d : List Byte)
  /-- COBS_ENCODE, R125. -/
  | cobsEncode (d : List Byte)
  /-- COBS_DECODE, R126. -/
  | cobsDecode (d : List Byte)
  /-- BUILD_MOTOR, R128. -/
  | buildMotor (d : List Byte)
  /-- BUILD_SAT, R129: `d = [class, id] ++ payload`. -/
  | buildSat (d : List Byte)
  /-- BUILD_COBS, R130. -/
  | buildCobs (d : List Byte)
  /-- LATCH_BEGIN, R232. -/
  | latchBegin
  /-- LATCH_APPLY, R233. -/
  | latchApply (f : Byte) (v : Word)
  /-- LATCH_COMMIT, R236. -/
  | latchCommit (t : Time)
  /-- LATCH_MARK_ABSENT, R237. -/
  | latchMarkAbsent
  /-- LATCH_READ_FIELD, R238. -/
  | latchReadField (f : Byte)
  /-- LATCH_READ_META, R239. -/
  | latchReadMeta
  /-- LATCH_SNAPSHOT, R241. -/
  | latchSnapshot
  /-- LATCH_STALE, R240. -/
  | latchStale (now maxAge : Time)
  deriving DecidableEq, Repr

end Sys2Proof
end

