-- ==== Sys2Proof/WellFormed.lean ====
section
/-!
DEFINITION. Which terms of Instr are commands. The only bound the types do not carry is that of the data
count: `N` has 16 bits, so a command of format S carries at most 65535 data bytes (R91, R93).
Operand values the encoding admits and a command refuses (a protocol number above 3, a register
number above 9, a field number at or above `K_FIELDS`, a BUILD_SAT of fewer than 2 bytes) are well formed:
their command raises the usage fault the spec names.
-/

namespace Sys2Proof

/-- `|d|` fits the 16-bit count field `N` (R90, R93 format S). -/
def dataFits (d : List Byte) : Bool := decide (d.length ≤ 65535)

/-- The well-formed commands. -/
def Instr.wellFormed : Instr → Bool
  | .rxByte _ => true
  | .rxEvent => true
  | .start _ => true
  | .take => true
  | .readBuf _ => true
  | .done => true
  | .flush => true
  | .readReg _ => true
  | .feed d => dataFits d
  | .validateBlock d => dataFits d
  | .crc16Xmodem d => dataFits d
  | .crc16CcittFalse d => dataFits d
  | .fletcher8 d => dataFits d
  | .cobsEncode d => dataFits d
  | .cobsDecode d => dataFits d
  | .buildMotor d => dataFits d
  | .buildSat d => dataFits d
  | .buildCobs d => dataFits d
  | .latchBegin => true
  | .latchApply _ _ => true
  | .latchCommit _ => true
  | .latchMarkAbsent => true
  | .latchReadField _ => true
  | .latchReadMeta => true
  | .latchSnapshot => true
  | .latchStale _ _ => true

end Sys2Proof
end

