-- ==== Sys2Proof/Decode.lean ====
section
/-!
DEFINITION. The command interface of spec/30_encoding.md Part 2: the command word (R90), the command
(R91), its agent (R92), the seven formats (R93), the opcode map (R94), the decoder with its named
rejections (R96), the encoder written from the same tables, and what the host asks of one table word.
-/

namespace Sys2Proof

/-- The issuing agent, a property of the port a command arrives on (R2, R92). -/
inductive Agent where
  /-- The receiver, RCV. -/
  | rcv
  /-- The worker, WRK. -/
  | wrk
  /-- A reader, RDR. -/
  | rdr
  deriving DecidableEq, Repr

/-- The formats of R93. -/
inductive Format where
  | z | a | i | s | w | t8 | t16
  deriving DecidableEq, Repr

/-- The opcodes of R94, one per row. -/
inductive Opcode where
  | rxByte | rxEvent | start | take | readBuf | done | flush | readReg | feed | validateBlock
  | crc16Xmodem | crc16CcittFalse | fletcher8 | cobsEncode | cobsDecode | buildMotor | buildSat | buildCobs
  | latchBegin | latchApply | latchCommit | latchMarkAbsent | latchReadField | latchReadMeta
  | latchSnapshot | latchStale
  deriving DecidableEq, Repr

/-- A command: the triple (agent, `CW`, `d`) of R91. -/
structure Command where
  agent : Agent
  cw : Word
  data : List Byte
  deriving DecidableEq, Repr

/-- Every opcode, in the order of R94's table. -/
def Opcode.all : List Opcode :=
  [.rxByte, .rxEvent, .start, .take, .readBuf, .done, .flush, .readReg, .feed, .validateBlock] ++
  [.crc16Xmodem, .crc16CcittFalse, .fletcher8, .cobsEncode, .cobsDecode, .buildMotor, .buildSat, .buildCobs] ++
  [.latchBegin, .latchApply, .latchCommit, .latchMarkAbsent, .latchReadField, .latchReadMeta,
   .latchSnapshot, .latchStale]

/-- Column `OP` of R94. -/
def Opcode.code : Opcode → Byte
  | .rxByte => 0x01
  | .rxEvent => 0x02
  | .start => 0x10
  | .take => 0x11
  | .readBuf => 0x12
  | .done => 0x13
  | .flush => 0x14
  | .readReg => 0x15
  | .feed => 0x20
  | .validateBlock => 0x21
  | .crc16Xmodem => 0x30
  | .crc16CcittFalse => 0x31
  | .fletcher8 => 0x32
  | .cobsEncode => 0x33
  | .cobsDecode => 0x34
  | .buildMotor => 0x35
  | .buildSat => 0x36
  | .buildCobs => 0x37
  | .latchBegin => 0x40
  | .latchApply => 0x41
  | .latchCommit => 0x42
  | .latchMarkAbsent => 0x43
  | .latchReadField => 0x44
  | .latchReadMeta => 0x45
  | .latchSnapshot => 0x46
  | .latchStale => 0x47

/-- Column "format" of R94. -/
def Opcode.format : Opcode → Format
  | .rxByte => .a
  | .rxEvent => .z
  | .start => .a
  | .take => .z
  | .readBuf => .i
  | .done => .z
  | .flush => .z
  | .readReg => .a
  | .feed => .s
  | .validateBlock => .s
  | .crc16Xmodem => .s
  | .crc16CcittFalse => .s
  | .fletcher8 => .s
  | .cobsEncode => .s
  | .cobsDecode => .s
  | .buildMotor => .s
  | .buildSat => .s
  | .buildCobs => .s
  | .latchBegin => .z
  | .latchApply => .w
  | .latchCommit => .t8
  | .latchMarkAbsent => .z
  | .latchReadField => .a
  | .latchReadMeta => .z
  | .latchSnapshot => .z
  | .latchStale => .t16

/-- Column "agents" of R94: the agents that may issue the opcode (R264 gives the same table). -/
def Opcode.agents : Opcode → List Agent
  | .rxByte => [.rcv]
  | .rxEvent => [.rcv]
  | .start => [.wrk]
  | .take => [.wrk]
  | .readBuf => [.wrk]
  | .done => [.wrk]
  | .flush => [.wrk]
  | .readReg => [.wrk, .rdr]
  | .feed => [.wrk]
  | .validateBlock => [.wrk, .rdr]
  | .crc16Xmodem => [.wrk, .rdr]
  | .crc16CcittFalse => [.wrk, .rdr]
  | .fletcher8 => [.wrk, .rdr]
  | .cobsEncode => [.wrk, .rdr]
  | .cobsDecode => [.wrk, .rdr]
  | .buildMotor => [.wrk, .rdr]
  | .buildSat => [.wrk, .rdr]
  | .buildCobs => [.wrk, .rdr]
  | .latchBegin => [.wrk]
  | .latchApply => [.wrk]
  | .latchCommit => [.wrk]
  | .latchMarkAbsent => [.wrk]
  | .latchReadField => [.wrk, .rdr]
  | .latchReadMeta => [.wrk, .rdr]
  | .latchSnapshot => [.wrk, .rdr]
  | .latchStale => [.wrk, .rdr]

/-- May the agent issue the opcode? -/
def Opcode.permits (o : Opcode) (a : Agent) : Bool := o.agents.contains a

/-- The opcode of an `OP` byte; none where R94 lists no row. -/
def Opcode.ofByte (b : Byte) : Option Opcode := Opcode.all.find? (fun o => o.code == b)

/-! ### The fields of a command word (R90) -/

/-- `OP`, bits 31:24. -/
def cwOp (cw : Word) : Byte := cw.extractLsb' 24 8

/-- `A`, bits 23:16. -/
def cwA (cw : Word) : Byte := cw.extractLsb' 16 8

/-- `N`, bits 15:0. -/
def cwN (cw : Word) : Half := cw.extractLsb' 0 16

/-- The word with the three fields given (R90). -/
def mkCw (op a : Byte) (n : Half) : Word := op ++ a ++ n

/-! ### Little-endian operands (R62, R93) -/

/-- The number whose little-endian bytes are given: byte `k` weighs `2^(8k)`. -/
def leValue : List Byte → Nat
  | [] => 0
  | b :: rest => b.toNat + 256 * leValue rest

/-- The low `n` bytes of a number, least significant first. -/
def leBytes : Nat → Nat → List Byte
  | 0, _ => []
  | n + 1, v => BitVec.ofNat 8 v :: leBytes n (v / 256)

/-! ### Formats -/

/-- R94's mask of a format. -/
def Format.mask : Format → Word
  | .z => 0xFFFFFFFF
  | .a => 0xFF00FFFF
  | .i => 0xFFFF0000
  | .s => 0xFFFF0000
  | .w => 0xFF00FFFF
  | .t8 => 0xFFFFFFFF
  | .t16 => 0xFFFFFFFF

/-- The fixed count `N` of formats W, T8 and T16; 0 where the format fixes none or fixes 0 (R93, R94). -/
def Format.fixedN : Format → Half
  | .z => 0
  | .a => 0
  | .i => 0
  | .s => 0
  | .w => 4
  | .t8 => 8
  | .t16 => 16

/-- R94's match word of an opcode: `OP << 24`, with the fixed count of its format. -/
def Opcode.matchWord (o : Opcode) : Word := mkCw o.code 0 o.format.fixedN

/-- Does the format carry data bytes? (R91: `|d|` = `N` for S, W, T8 and T16, 0 for Z, A and I.) -/
def Format.hasData : Format → Bool
  | .z => false
  | .a => false
  | .i => false
  | .s => true
  | .w => true
  | .t8 => true
  | .t16 => true

/-- The number of data bytes delivered with a command word of the opcode (R91). -/
def dataCount (o : Opcode) (cw : Word) : Nat :=
  if o.format.hasData then (cwN cw).toNat else 0

/-- What R93 can find wrong with the fields of a word whose opcode is known. -/
inductive FieldFault where
  /-- A field that must be 0 is not: RESERVED_FIELD. -/
  | reserved
  /-- A fixed `N` is wrong: BAD_LENGTH. -/
  | length
  deriving DecidableEq, Repr

/-- R93 and R96, RESERVED_FIELD before BAD_LENGTH (R263). -/
def fieldFault (f : Format) (a : Byte) (n : Half) : Option FieldFault :=
  match f with
  | .z => if a ≠ 0 ∨ n ≠ 0 then some .reserved else none
  | .a => if n ≠ 0 then some .reserved else none
  | .i => if a ≠ 0 then some .reserved else none
  | .s => if a ≠ 0 then some .reserved else none
  | .w => if n ≠ 4 then some .length else none
  | .t8 => if a ≠ 0 then some .reserved else if n ≠ 8 then some .length else none
  | .t16 => if a ≠ 0 then some .reserved else if n ≠ 16 then some .length else none

/-- The command of an opcode with the operands R93 assembles from `A`, `N` and `d`. -/
def assemble (o : Opcode) (a : Byte) (n : Half) (d : List Byte) : Instr :=
  match o with
  | .rxByte => .rxByte a
  | .rxEvent => .rxEvent
  | .start => .start a
  | .take => .take
  | .readBuf => .readBuf n
  | .done => .done
  | .flush => .flush
  | .readReg => .readReg a
  | .feed => .feed d
  | .validateBlock => .validateBlock d
  | .crc16Xmodem => .crc16Xmodem d
  | .crc16CcittFalse => .crc16CcittFalse d
  | .fletcher8 => .fletcher8 d
  | .cobsEncode => .cobsEncode d
  | .cobsDecode => .cobsDecode d
  | .buildMotor => .buildMotor d
  | .buildSat => .buildSat d
  | .buildCobs => .buildCobs d
  | .latchBegin => .latchBegin
  | .latchApply => .latchApply a (BitVec.ofNat 32 (leValue d))
  | .latchCommit => .latchCommit (BitVec.ofNat 64 (leValue d))
  | .latchMarkAbsent => .latchMarkAbsent
  | .latchReadField => .latchReadField a
  | .latchReadMeta => .latchReadMeta
  | .latchSnapshot => .latchSnapshot
  | .latchStale =>
    .latchStale (BitVec.ofNat 64 (leValue (d.take 8))) (BitVec.ofNat 64 (leValue (d.drop 8)))

/-! ### The decoder -/

/-- Why a word and its data are no instruction: the decoder's rejections, by name. -/
inductive Reject where
  /-- `OP` is not in R94's table (R96). -/
  | illegalOp
  /-- A field that must be 0 is not (R96). -/
  | reservedField (o : Opcode)
  /-- A fixed `N` is wrong (R96). -/
  | badLength (o : Opcode)
  /-- The data bytes are not the `N` (or 0) that R91 delivers with the word: no command at all. -/
  | notWhole
  deriving DecidableEq, Repr

/-- The decoder, total on every word and every data sequence (R90 to R96). The issuing agent is checked
by the machine, between ILLEGAL_OP and RESERVED_FIELD (R263). -/
def decode (cw : Word) (d : List Byte) : Except Reject Instr :=
  match Opcode.ofByte (cwOp cw) with
  | none => .error .illegalOp
  | some o =>
    if d.length ≠ dataCount o cw then .error .notWhole
    else
      match fieldFault o.format (cwA cw) (cwN cw) with
      | some .reserved => .error (.reservedField o)
      | some .length => .error (.badLength o)
      | none => .ok (assemble o (cwA cw) (cwN cw) d)

/-! ### The encoder -/

/-- The opcode of a command. -/
def Instr.opcode : Instr → Opcode
  | .rxByte _ => .rxByte
  | .rxEvent => .rxEvent
  | .start _ => .start
  | .take => .take
  | .readBuf _ => .readBuf
  | .done => .done
  | .flush => .flush
  | .readReg _ => .readReg
  | .feed _ => .feed
  | .validateBlock _ => .validateBlock
  | .crc16Xmodem _ => .crc16Xmodem
  | .crc16CcittFalse _ => .crc16CcittFalse
  | .fletcher8 _ => .fletcher8
  | .cobsEncode _ => .cobsEncode
  | .cobsDecode _ => .cobsDecode
  | .buildMotor _ => .buildMotor
  | .buildSat _ => .buildSat
  | .buildCobs _ => .buildCobs
  | .latchBegin => .latchBegin
  | .latchApply _ _ => .latchApply
  | .latchCommit _ => .latchCommit
  | .latchMarkAbsent => .latchMarkAbsent
  | .latchReadField _ => .latchReadField
  | .latchReadMeta => .latchReadMeta
  | .latchSnapshot => .latchSnapshot
  | .latchStale _ _ => .latchStale

/-- A word of format Z. -/
def wordZ (o : Opcode) : Word × List Byte := (mkCw o.code 0 0, [])

/-- A word of format A with operand `a`. -/
def wordA (o : Opcode) (a : Byte) : Word × List Byte := (mkCw o.code a 0, [])

/-- A word of format I with index `n`. -/
def wordI (o : Opcode) (n : Half) : Word × List Byte := (mkCw o.code 0 n, [])

/-- A word of format S with its data. -/
def wordS (o : Opcode) (d : List Byte) : Word × List Byte := (mkCw o.code 0 (BitVec.ofNat 16 d.length), d)

/-- The word and the data bytes of a command (R90, R91, R93, R94). -/
def encode : Instr → Word × List Byte
  | .rxByte a => wordA .rxByte a
  | .rxEvent => wordZ .rxEvent
  | .start a => wordA .start a
  | .take => wordZ .take
  | .readBuf n => wordI .readBuf n
  | .done => wordZ .done
  | .flush => wordZ .flush
  | .readReg a => wordA .readReg a
  | .feed d => wordS .feed d
  | .validateBlock d => wordS .validateBlock d
  | .crc16Xmodem d => wordS .crc16Xmodem d
  | .crc16CcittFalse d => wordS .crc16CcittFalse d
  | .fletcher8 d => wordS .fletcher8 d
  | .cobsEncode d => wordS .cobsEncode d
  | .cobsDecode d => wordS .cobsDecode d
  | .buildMotor d => wordS .buildMotor d
  | .buildSat d => wordS .buildSat d
  | .buildCobs d => wordS .buildCobs d
  | .latchBegin => wordZ .latchBegin
  | .latchApply f v => (mkCw Opcode.latchApply.code f 4, leBytes 4 v.toNat)
  | .latchCommit t => (mkCw Opcode.latchCommit.code 0 8, leBytes 8 t.toNat)
  | .latchMarkAbsent => wordZ .latchMarkAbsent
  | .latchReadField f => wordA .latchReadField f
  | .latchReadMeta => wordZ .latchReadMeta
  | .latchSnapshot => wordZ .latchSnapshot
  | .latchStale now maxAge =>
    (mkCw Opcode.latchStale.code 0 16, leBytes 8 now.toNat ++ leBytes 8 maxAge.toNat)

/-- The command an agent issues for an instruction (R91). -/
def commandOf (a : Agent) (i : Instr) : Command :=
  { agent := a, cw := (encode i).1, data := (encode i).2 }

/-- The length of a command in bytes: 4 + `|d|` (R91). -/
def Command.length (c : Command) : Nat := 4 + c.data.length

/-- A command is delivered whole: its data are as many bytes as R91 says. A word with an illegal `OP` has no
format, so any data go with it. -/
def Command.whole (c : Command) : Prop :=
  ∀ o, Opcode.ofByte (cwOp c.cw) = some o → c.data.length = dataCount o c.cw

/-! ### One word of the opcode table, for the host -/

/-- The command of a table word: `w`, cut to `nbits` bits, holds the command word in bits 31:0 and any data
bytes from bit 32 up; the data bytes above `nbits` are 0. The agent is one the opcode admits: the
receiver for its two opcodes, the worker for every other word (R264). -/
def tableCommand (nbits w : Nat) : Command :=
  let bits := w % 2 ^ nbits
  let cw : Word := BitVec.ofNat 32 bits
  match Opcode.ofByte (cwOp cw) with
  | none => { agent := .wrk, cw := cw, data := [] }
  | some o =>
    { agent := if o.permits .rcv then .rcv else .wrk
      cw := cw
      data := leBytes (dataCount o cw) (bits / 2 ^ 32) }

/-- The instruction the decoder reads from a table word (host interface). -/
def decodeTableWord (nbits w : Nat) : Option Instr :=
  match decode (tableCommand nbits w).cw (tableCommand nbits w).data with
  | .ok i => some i
  | .error _ => none

end Sys2Proof
end

