-- ==== Sys2Proof/Machine/State.lean ====
section
/-!
DEFINITION. The state of one link instance (spec/10_state.md R22 to R37), the result a command returns to
its agent, the usage faults of R261, and the two ways a step of the MODEL can stop.
A usage fault of the spec is no stop: it is an outcome after which "Later commands proceed
normally" (R262), so the machine goes on to a next state.
-/

namespace Sys2Proof.Machine

/-! ### Stores -/

/-- Sparse cells by index, indexes strictly rising; an index that is not listed holds `⊥` (R10). -/
abbrev Store (β : Type) := List (Nat × β)

/-- One receive buffer's cells (R22), one byte each. -/
abbrev Memory := List Host.Cell

/-- The latch's slots by field number (R33, R34), one 32-bit word each. -/
abbrev Slots := Store Word

/-- The canonical form of a store: indexes strictly rising, so no index twice. An unlisted index reads as
`⊥`, which no listed entry holds, so equal stores are equal data. -/
abbrev Store.wf {β : Type} (m : Store β) : Prop := (m.map Prod.fst).Pairwise (· < ·)

/-- The canonical form of a receive buffer. -/
abbrev Memory.wf (m : Memory) : Prop := Store.wf m

/-! ### Names -/

/-- The two receive buffers (R22), the domain of `ACTIVE` and `READY_IDX` (one bit each, R23, R25). -/
inductive BufId where
  | b0 | b1
  deriving DecidableEq, Repr

/-- The protocols (R5, R95), the domain of `PROTO_SEL`. -/
inductive Protocol where
  | motor | sat | cobs | ascii
  deriving DecidableEq, Repr

/-- The framer modes (R32), the domain of `DEC_MODE`. -/
inductive DecMode where
  | normal | line | discard
  deriving DecidableEq, Repr

/-- The usage faults of R261. -/
inductive UsageFault where
  | illegalOp | wrongAgent | reservedField | badLength | notStarted | alreadyStarted | badProto
  | noHandoff | indexRange | badReg | noTxn | fieldRange | tooLong | tooShort
  deriving DecidableEq, Repr

/-! ### Results -/

/-- A frame record (R180). -/
inductive Frame where
  /-- MOTOR, R183. -/
  | motor (payload : List Byte)
  /-- SAT, R188. -/
  | sat (cls id : Byte) (payload : List Byte)
  /-- COBS, R193. -/
  | cobs (payload : List Byte)
  /-- ASCII, R198. -/
  | ascii (line : List Byte)
  /-- BLOCK, R202. -/
  | block (data : List Byte)
  deriving DecidableEq, Repr

/-- The result codes of FLUSH (R159). -/
inductive FlushCode where
  | flushed | rearm | busy | empty
  deriving DecidableEq, Repr

/-- The reason codes of VALIDATE_BLOCK (R202). -/
inductive BlockReason where
  | ok | empty | lenRange | short
  deriving DecidableEq, Repr

/-- The result of VALIDATE_BLOCK (R202). -/
structure BlockResult where
  accept : Bool
  reason : BlockReason
  data : List Byte
  deriving DecidableEq, Repr

/-- What a command returns to its agent (R11, R63): the result its rule gives, or `fault(code)` with the
faulting command (agent, `CW`) named (R261, R262). -/
inductive Response where
  /-- No command has been answered yet: the MODEL's value at reset (log 2). -/
  | nothing
  /-- Completed, with no result. -/
  | done
  /-- A usage fault of the command `cw` issued by `agent` (R262). -/
  | fault (u : UsageFault) (agent : Agent) (cw : Word)
  /-- TAKE, R156. -/
  | take (valid : Bool) (idx : BufId) (len : Half)
  /-- READ_BUF, R157. -/
  | byte (b : Byte)
  /-- FLUSH, R159. -/
  | flush (code : FlushCode) (idx : BufId) (len : Half)
  /-- READ_REG, R160. -/
  | reg (v : Word)
  /-- FEED, R181. -/
  | feed (frames : List Frame) (consumed : Nat) (need : Int)
  /-- VALIDATE_BLOCK, R202. -/
  | block (r : BlockResult)
  /-- CRC16_XMODEM and CRC16_CCITT_FALSE, R122, R123. -/
  | crc (v : Half)
  /-- FLETCHER8: `ck_a`, `ck_b`, R124. -/
  | sums (ckA ckB : Byte)
  /-- COBS_ENCODE and the builders, R125, R128 to R130. -/
  | bytes (d : List Byte)
  /-- COBS_DECODE, R126. -/
  | unstuffed (ok : Bool) (out : List Byte)
  /-- LATCH_READ_FIELD, R238. -/
  | field (valid : Bool) (value : Word)
  /-- LATCH_READ_META, R239. -/
  | latchMeta (hasData present : Bool) (ts : Time)
  /-- LATCH_SNAPSHOT, R241. -/
  | snapshot (hasData present : Bool) (ts : Time) (fields : List (Bool × Word))
  /-- LATCH_STALE, R240. -/
  | stale (isStale : Bool)
  deriving DecidableEq, Repr

/-! ### The state -/

/-- One link instance. The first group is R22 to R37; the last group is the MODEL's own: the parameters of
the instance (R5, R6), the commands the agents have issued and the block has not yet executed, in the
total order of R63, and the port: who issued the command being executed, its word, and the last
result returned. -/
structure State where
  /-- `BUF[0]`, R22. -/
  buf0 : Memory
  /-- `BUF[1]`, R22. -/
  buf1 : Memory
  /-- `ACTIVE`, R23. -/
  active : BufId
  /-- `REMAINING`, R24. -/
  remaining : Half
  /-- `PENDING`, R25. -/
  pending : Bool
  /-- `READY_IDX`, R25. -/
  readyIdx : BufId
  /-- `READY_LEN`, R25. -/
  readyLen : Half
  /-- `SIGNAL`, R26, R268. -/
  signal : Bool
  /-- `SNAP_REMAINING`, R27. -/
  snapRemaining : Half
  /-- `FULL_SINCE_CHECK`, R28. -/
  fullSinceCheck : Bool
  /-- `OVERRUN_COUNT`, R29. -/
  overrunCount : Word
  /-- `STARTED`, R30. -/
  started : Bool
  /-- `PROTO_SEL`, R30. -/
  protoSel : Protocol
  /-- `DEC_P`, R31. -/
  decP : List Byte
  /-- `DEC_MODE`, R32. -/
  decMode : DecMode
  /-- `LATCH_VAL`, R33. -/
  latchVal : Slots
  /-- `LATCH_STAGE`, R34. -/
  latchStage : Slots
  /-- `LATCH_TXN`, R34. -/
  latchTxn : Bool
  /-- `LATCH_TS`, R35. -/
  latchTs : Time
  /-- `LATCH_HAS_DATA`, R35. -/
  latchHasData : Bool
  /-- `LATCH_PRESENT`, R36. -/
  latchPresent : Bool
  /-- `FAULT_CODE`, R37. -/
  faultCode : Byte
  /-- The parameters of the instance, R5. No step writes them. -/
  params : Params
  /-- MODEL: the commands issued and not yet executed, oldest first (R63, log 3). -/
  cmds : List Command
  /-- MODEL: the agent whose command is being executed (R92). -/
  port : Agent
  /-- MODEL: the command word being executed (R261, "names the faulting command"). -/
  cw : Word
  /-- MODEL: the result last returned to an agent (R11, log 2). -/
  resp : Response
  deriving DecidableEq, Repr

/-- The state after reset of an instance with the given parameters (R42, R280, R281). The last four fields are
the MODEL's own: no command issued, and port values that the first command overwrites (log 2, log 3). -/
def State.resetWith (p : Params) : State :=
  { buf0 := [], buf1 := [], active := .b0, remaining := p.bufCap, pending := false, readyIdx := .b0,
    readyLen := 0, signal := false, snapRemaining := p.bufCap, fullSinceCheck := false,
    overrunCount := 0, started := false, protoSel := .motor, decP := [], decMode := .normal,
    latchVal := [], latchStage := [], latchTxn := false, latchTs := 0, latchHasData := false,
    latchPresent := false, faultCode := 0, params := p,
    cmds := [], port := .wrk, cw := 0, resp := .nothing }

/-- The state after reset (R42), of an instance with the parameters `Config.resetParams` (log 1). -/
def State.reset : State := State.resetWith Config.resetParams

/-! ### Stops of the model -/

/-- Where the machine stops because the spec gives no behaviour. Both arise only in states that
no run reaches (Safety.lean, `State.Inv`): safe. -/
inductive Fault where
  /-- READ_BUF of a cell that holds `⊥`. R10: "No rule reads a `⊥` byte". Raised by `readCell`. Safe. -/
  | unwrittenCell
  /-- RX_BYTE or READ_BUF of a cell index outside the buffer. R61: "No command writes or reads a cell with
  index ≥ `BUF_CAP`". Raised by `receiveByte` and `readCell`. Safe. -/
  | noSuchCell
  deriving DecidableEq, Repr

/-- What the machine refuses. -/
inductive Refusal where
  /-- An instruction without a meaning yet, by its mnemonic. Raised by no arm of `exec`. Safe. -/
  | notModelled (mnemonic : String)
  /-- The data bytes at the head of the queue are not the count R91 delivers with that word, so it is no
  command of the interface: "A command is delivered whole". Raised by `step` only. Safe. -/
  | notWhole
  deriving DecidableEq, Repr

/-- The outcome of a step of this machine. -/
abbrev Result := Host.Outcome State Fault Refusal

end Sys2Proof.Machine
end

