-- ==== Sys2Proof/Machine/Ops.lean ====
section
/-!
DEFINITION. The operations that several commands share: reading and writing a cell, completing with a
result, raising a usage fault (R262, the block's only exception), the common checks of R263, the
hand-off and overrun procedures (R153 to R155), and taking the next command from the queue (R63).
The block has no return from an exception: "no saved program state, no mode change and no
return-from-trap command" (R260).
-/

namespace Sys2Proof.Machine

/-! ### Stores -/

/-- The value at an index; `none` is `⊥`. -/
def Store.read {β : Type} : Store β → Nat → Option β
  | [], _ => none
  | (j, v) :: rest, k => if j = k then some v else Store.read rest k

/-- The store with one index set. -/
def Store.write {β : Type} : Store β → Nat → β → Store β
  | [], k, v => [(k, v)]
  | (j, u) :: rest, k, v =>
    if k < j then (k, v) :: (j, u) :: rest
    else if k = j then (k, v) :: rest
    else (j, u) :: Store.write rest k v

/-! ### Buffers -/

/-- `1 - k` on a buffer index (R23, R154). -/
def BufId.other : BufId → BufId
  | .b0 => .b1
  | .b1 => .b0

/-- A buffer index as a bit (R23, R25). -/
def BufId.bit : BufId → Bool
  | .b0 => false
  | .b1 => true

/-- `BUF[k]`. -/
def State.buf (s : State) : BufId → Memory
  | .b0 => s.buf0
  | .b1 => s.buf1

/-- The state with `BUF[k]` replaced. -/
def State.setBuf (s : State) : BufId → Memory → State
  | .b0, m => { s with buf0 := m }
  | .b1, m => { s with buf1 := m }

/-- The byte at an index of a receive buffer; `none` is `⊥`. -/
def State.cell (s : State) (k : BufId) (i : Nat) : Option Byte := Store.read (s.buf k) i

/-- `FILL = BUF_CAP - REMAINING` (R24). -/
def State.fill (s : State) : Half := s.params.bufCap - s.remaining

/-! ### Completing and faulting -/

/-- The state with a result returned to the issuing agent (R11). -/
def State.answer (r : Response) (s : State) : State := { s with resp := r }

/-- A command completes: the state its rule gives, and its result (R11). -/
def complete (r : Response) (s : State) : Result := .next (s.answer r)

/-- The codes of R261. -/
def UsageFault.code : UsageFault → Byte
  | .illegalOp => 1
  | .wrongAgent => 2
  | .reservedField => 3
  | .badLength => 4
  | .notStarted => 5
  | .alreadyStarted => 6
  | .badProto => 7
  | .noHandoff => 8
  | .indexRange => 9
  | .badReg => 10
  | .noTxn => 11
  | .fieldRange => 12
  | .tooLong => 13
  | .tooShort => 14

/-- The effect of a usage fault (R262): `FAULT_CODE` takes the code if it is 0 and keeps its value otherwise,
and `fault(code)` goes to the issuing agent, naming the command (R261). No other state changes. -/
def State.takeFault (u : UsageFault) (s : State) : State :=
  { s with faultCode := if s.faultCode = 0 then u.code else s.faultCode
           resp := .fault u s.port s.cw }

/-- `raise UsageFault(u)` (R11, R262): the machine goes on in the state R262 gives. -/
def raise (u : UsageFault) (s : State) : Result := .next (s.takeFault u)

/-- One check of a pseudocode: `if not c then raise UsageFault(u)`, else the rest of the rule. -/
def require (c : Bool) (u : UsageFault) (s : State) (k : Result) : Result :=
  if c then k else raise u s

/-- The agent check of R263 item 2, R264, and then the rule of the command. -/
def permitted (o : Opcode) (s : State) (k : Result) : Result := require (o.permits s.port) .wrongAgent s k

/-- `if STARTED = 0: raise UsageFault(NOT_STARTED)`. -/
def started (s : State) (k : Result) : Result := require s.started .notStarted s k

/-! ### Receptions -/

/-- The hand-off procedure, R154. -/
def handoff (s : State) : State :=
  { s with readyIdx := s.active, readyLen := s.fill, active := s.active.other,
           remaining := s.params.bufCap, pending := true }

/-- The overrun procedure, R155; the counter wraps mod 2^32 (R29). -/
def overrun (s : State) : State :=
  { s with overrunCount := s.overrunCount + 1, remaining := s.params.bufCap }

/-- `FULL_SINCE_CHECK <- 1` (R28, R153). -/
def markFull (s : State) : State := { s with fullSinceCheck := true }

/-- `SIGNAL <- 1` (R26, R153). -/
def raiseSignal (s : State) : State := { s with signal := true }

/-- `receiver_event()`, R153: a reception ends. With no byte received nothing changes. -/
def receiverEvent (s : State) : State :=
  if s.remaining = s.params.bufCap then s
  else if s.pending then markFull (overrun s)
  else markFull (raiseSignal (handoff s))

/-- `MemWrite(BUF[ACTIVE], FILL, 1, a)` and `REMAINING <- REMAINING - 1` (R151). -/
def storeByte (b : Byte) (s : State) : State :=
  { s.setBuf s.active (Store.write (s.buf s.active) s.fill.toNat b) with remaining := s.remaining - 1 }

/-- The body of RX_BYTE on a started link (R151, R152): the byte is stored at index `FILL`, and the full event
runs in the same step when the buffer is full. With no free cell (`REMAINING` = 0, or above `BUF_CAP`: in no
reachable state, R38 item 5) the cell does not exist, and the machine stops. -/
def receiveByte (b : Byte) (s : State) : Result :=
  if s.remaining = 0 ∨ s.params.bufCap < s.remaining then .fault .noSuchCell
  else complete .done
    (if (storeByte b s).remaining = 0 then receiverEvent (storeByte b s) else storeByte b s)

/-- `MemRead(BUF[READY_IDX], n, 1)` (R157), returned as the command's result. An index at or above `BUF_CAP` is
no cell (R61) and a `⊥` cell is read by no rule (R10): the machine stops; neither is reachable (R163). -/
def readCell (n : Half) (s : State) : Result :=
  if s.params.bufCap ≤ n then .fault .noSuchCell
  else
    match s.cell s.readyIdx n.toNat with
    | none => .fault .unwrittenCell
    | some b => complete (.byte b) s

/-! ### Commands arrive -/

/-- The next command in the total order of R63, and the state with it on the port. -/
def takeCommand (s : State) : Option (Command × State) :=
  match s.cmds with
  | [] => none
  | c :: rest => some (c, { s with cmds := rest, port := c.agent, cw := c.cw })

/-- What a rejected command word does (R96), in R263's order: ILLEGAL_OP, then WRONG_AGENT, then RESERVED_FIELD
or BAD_LENGTH. Data that are not the word's are no command (R91): refused. -/
def rejectCommand (r : Reject) (s : State) : Result :=
  match r with
  | .illegalOp => raise .illegalOp s
  | .reservedField o => permitted o s (raise .reservedField s)
  | .badLength o => permitted o s (raise .badLength s)
  | .notWhole => .refused .notWhole

end Sys2Proof.Machine
end

