-- ==== Sys2Proof/Machine/Flags.lean ====
section
/-!
DEFINITION. The flags as software sees them: the STATUS word of spec/10_state.md R41, with the codes of the
named values it and the register view hold (R5, R32, R39).
-/

namespace Sys2Proof.Machine

/-- `PROTO_SEL` as its 3 bits (R5: MOTOR = 0, SAT = 1, COBS = 2, ASCII = 3). -/
def Protocol.code : Protocol → BitVec 3
  | .motor => 0
  | .sat => 1
  | .cobs => 2
  | .ascii => 3

/-- The protocol of START's operand (R95); none above 3. -/
def Protocol.ofByte (a : Byte) : Option Protocol :=
  if a = 0 then some .motor
  else if a = 1 then some .sat
  else if a = 2 then some .cobs
  else if a = 3 then some .ascii
  else none

/-- `DEC_MODE` as its 2 bits (R32: NORMAL = 0, LINE = 1, DISCARD = 2). -/
def DecMode.code : DecMode → BitVec 2
  | .normal => 0
  | .line => 1
  | .discard => 2

/-- FLUSH's result codes (R159). -/
def FlushCode.code : FlushCode → Nat
  | .flushed => 0
  | .rearm => 1
  | .busy => 2
  | .empty => 3

/-- VALIDATE_BLOCK's reason codes (R202). -/
def BlockReason.code : BlockReason → Nat
  | .ok => 0
  | .empty => 1
  | .lenRange => 2
  | .short => 3

/-- Bit 12 of STATUS: `FAULT_CODE` ≠ 0 (R41). -/
def State.faulted (s : State) : Bool := s.faultCode != 0

/-- The STATUS word, bit 31 first (R41). -/
def statusWord (s : State) : Word :=
  (0 : BitVec 19) ++ BitVec.ofBool s.faulted ++ BitVec.ofBool s.latchHasData ++ s.protoSel.code ++
    BitVec.ofBool s.latchPresent ++ BitVec.ofBool s.latchTxn ++ BitVec.ofBool s.fullSinceCheck ++
    BitVec.ofBool s.readyIdx.bit ++ BitVec.ofBool s.signal ++ BitVec.ofBool s.pending ++
    BitVec.ofBool s.active.bit ++ BitVec.ofBool s.started

end Sys2Proof.Machine
end

