-- ==== Sys2Proof/Machine/Operands.lean ====
section
/-!
DEFINITION. What a command's operand selects in the state: a register of the register view (format A,
spec/10_state.md R40) and a latch slot (formats A and W, R33). The assembly of operands from the
word and its data (R93) is the decoder's; the cell of READ_BUF (format I) is `readCell` in Ops.lean.
-/

namespace Sys2Proof.Machine

/-- `reg_value(a)` (R40, R160); none for a number that is not in the map. -/
def regValue (a : Byte) (s : State) : Option Word :=
  match a.toNat with
  | 0 => some (statusWord s)
  | 1 => some (s.fill.setWidth 32)
  | 2 => some (s.remaining.setWidth 32)
  | 3 => some (s.readyLen.setWidth 32)
  | 4 => some (s.snapRemaining.setWidth 32)
  | 5 => some s.overrunCount
  | 6 => some (s.params.bufCap.setWidth 32)
  | 7 => some ((BitVec.ofNat 17 s.decP.length).setWidth 32)
  | 8 => some (s.decMode.code.setWidth 32)
  | 9 => some (s.faultCode.setWidth 32)
  | _ => none

/-- Is the field number below `K_FIELDS`? -/
def fieldInRange (f : Byte) (s : State) : Bool := decide (f.toNat < s.params.kFields)

/-- A committed slot as a reader sees it: (valid, value), (0, 0) for `⊥` (R238, R241). -/
def slotView (m : Slots) (f : Nat) : Bool × Word :=
  match Store.read m f with
  | none => (false, 0)
  | some v => (true, v)

end Sys2Proof.Machine
end

