-- ==== Sys2Proof/Machine/Checksum.lean ====
section
/-!
DEFINITION. The checksum kit, spec/40_checksum.md: CRC16 (R121), the sum-of-sums (R124), COBS (R125, R126) and
the frame builders (R128 to R130), as pure functions, and the eight commands over them. Every command of
this file writes no state of the block (R120).
-/

namespace Sys2Proof.Machine

/-! ### CRC16 -/

/-- One of the 8 shifts of R121: polynomial 0x1021, most significant bit first. -/
def crcShift (c : Half) : Half := if c.msb then (c <<< 1) ^^^ 0x1021 else c <<< 1

/-- One byte of R121. -/
def crcByte (c : Half) (b : Byte) : Half :=
  crcShift (crcShift (crcShift (crcShift (crcShift (crcShift (crcShift (crcShift
    (c ^^^ (b.setWidth 16 <<< 8)))))))))

/-- `crc16(init, D)`, R121: non-reflected, no final XOR. -/
def crc16 (init : Half) (d : List Byte) : Half := d.foldl crcByte init

/-- The CRC of the motor-controller frame: initial value 0x0000 (R122). -/
def crcXmodem (d : List Byte) : Half := crc16 0x0000 d

/-- The CRC of the byte-stuffed frame: initial value 0xFFFF (R123). -/
def crcCcittFalse (d : List Byte) : Half := crc16 0xFFFF d

/-! ### Sum of sums -/

/-- One byte of R124: `ck_a` first, then `ck_b` adds the new `ck_a`, each mod 2^8. -/
def fletcherByte (c : Byte × Byte) (b : Byte) : Byte × Byte := (c.1 + b, c.2 + (c.1 + b))

/-- `fletcher8(D)`, R124. -/
def fletcher8 (d : List Byte) : Byte × Byte := d.foldl fletcherByte (0, 0)

/-! ### COBS -/

/-- A block with its code byte: `[|blk| + 1] ++ blk` (R125). -/
def cobsBlock (blk : List Byte) : List Byte := BitVec.ofNat 8 (blk.length + 1) :: blk

/-- The loop of R125 over the bytes that remain, with the open block. -/
def cobsEncodeFrom : List Byte → List Byte → List Byte
  | [], blk => cobsBlock blk
  | b :: rest, blk =>
    if b = 0 then cobsBlock blk ++ cobsEncodeFrom rest []
    else if blk.length + 1 = 254 then
      cobsBlock (blk ++ [b]) ++ (if rest.isEmpty then [] else cobsEncodeFrom rest [])
    else cobsEncodeFrom rest (blk ++ [b])

/-- `cobs_encode(D)`, R125. -/
def cobsEncode (d : List Byte) : List Byte := cobsEncodeFrom d []

/-- The 0x00 that ends a block shorter than 254 data bytes when input follows (R126). -/
def cobsJoin (c : Byte) (rest : List Byte) : List Byte := if c ≠ 0xFF ∧ ¬ rest.isEmpty then [0] else []

/-- The loop of R126 over the encoded bytes that remain. Every turn takes at least one byte, so `|E|` turns
are enough. -/
def cobsDecodeFrom : Nat → List Byte → Option (List Byte)
  | _, [] => some []
  | 0, _ :: _ => none
  | turns + 1, c :: rest =>
    if c = 0 then none
    else if rest.length < c.toNat - 1 then none
    else (cobsDecodeFrom turns (rest.drop (c.toNat - 1))).map fun out =>
      rest.take (c.toNat - 1) ++ cobsJoin c (rest.drop (c.toNat - 1)) ++ out

/-- `cobs_decode(E)`, R126; none is ERR. -/
def cobsDecode (e : List Byte) : Option (List Byte) := cobsDecodeFrom e.length e

/-! ### Wire frames and their builders -/

/-- The high byte of a 16-bit value. -/
def hiByte (c : Half) : Byte := c.extractLsb' 8 8

/-- The low byte of a 16-bit value. -/
def loByte (c : Half) : Byte := c.extractLsb' 0 8

/-- The motor-controller frame of a payload (R81). -/
def motorFrame (d : List Byte) : List Byte :=
  [0x02, BitVec.ofNat 8 d.length] ++ d ++ [hiByte (crcXmodem d), loByte (crcXmodem d), 0x03]

/-- The part of a satellite frame its checksum covers: class, id, little-endian length, payload (R83). -/
def satBody (cls id : Byte) (d : List Byte) : List Byte :=
  [cls, id, BitVec.ofNat 8 d.length, BitVec.ofNat 8 (d.length / 256)] ++ d

/-- The satellite frame of a class, an id and a payload (R83). -/
def satFrame (p : Params) (cls id : Byte) (d : List Byte) : List Byte :=
  [p.satSync1, p.satSync2] ++ satBody cls id d ++
    [(fletcher8 (satBody cls id d)).1, (fletcher8 (satBody cls id d)).2]

/-- The stuffed part `E` of a COBS frame: payload, then the CRC low byte first (R85). -/
def cobsStuffed (d : List Byte) : List Byte :=
  cobsEncode (d ++ [loByte (crcCcittFalse d), hiByte (crcCcittFalse d)])

/-- The byte-stuffed frame of a payload, with its delimiter (R85). -/
def cobsFrame (d : List Byte) : List Byte := cobsStuffed d ++ [0x00]

/-- BUILD_MOTOR's pseudocode (R128). -/
def buildMotor (p : Params) (d : List Byte) : Except UsageFault (List Byte) :=
  if d.length > 255 ∨ d.length + 5 > p.motorCap then .error .tooLong
  else .ok (motorFrame d)

/-- BUILD_SAT's pseudocode (R129): `d = [class, id] ++ payload`. -/
def buildSat (p : Params) (d : List Byte) : Except UsageFault (List Byte) :=
  match d with
  | [] => .error .badLength
  | [_] => .error .badLength
  | cls :: id :: payload =>
    if payload.length + 8 > p.satCap then .error .tooLong
    else .ok (satFrame p cls id payload)

/-- BUILD_COBS's pseudocode (R130). -/
def buildCobs (p : Params) (d : List Byte) : Except UsageFault (List Byte) :=
  if d.length < 2 then .error .tooShort
  else if (cobsStuffed d).length > p.cobsCap then .error .tooLong
  else .ok (cobsFrame d)

/-- A builder's outcome as the command's (R11). -/
def answerBuilt (r : Except UsageFault (List Byte)) (s : State) : Result :=
  match r with
  | .error u => raise u s
  | .ok d => complete (.bytes d) s

/-! ### The commands -/

/-- CRC16_XMODEM, R122. -/
def execCrc16Xmodem (d : List Byte) (s : State) : Result :=
  permitted .crc16Xmodem s (complete (.crc (crcXmodem d)) s)

/-- CRC16_CCITT_FALSE, R123. -/
def execCrc16CcittFalse (d : List Byte) (s : State) : Result :=
  permitted .crc16CcittFalse s (complete (.crc (crcCcittFalse d)) s)

/-- FLETCHER8, R124. -/
def execFletcher8 (d : List Byte) (s : State) : Result :=
  permitted .fletcher8 s (complete (.sums (fletcher8 d).1 (fletcher8 d).2) s)

/-- COBS_ENCODE, R125. -/
def execCobsEncode (d : List Byte) (s : State) : Result :=
  permitted .cobsEncode s (complete (.bytes (cobsEncode d)) s)

/-- COBS_DECODE, R126: malformed input is a data result, not a fault. -/
def execCobsDecode (d : List Byte) (s : State) : Result :=
  permitted .cobsDecode s (complete (.unstuffed (cobsDecode d).isSome ((cobsDecode d).getD [])) s)

/-- BUILD_MOTOR, R128. -/
def execBuildMotor (d : List Byte) (s : State) : Result :=
  permitted .buildMotor s (answerBuilt (buildMotor s.params d) s)

/-- BUILD_SAT, R129. -/
def execBuildSat (d : List Byte) (s : State) : Result :=
  permitted .buildSat s (answerBuilt (buildSat s.params d) s)

/-- BUILD_COBS, R130. -/
def execBuildCobs (d : List Byte) (s : State) : Result :=
  permitted .buildCobs s (answerBuilt (buildCobs s.params d) s)

end Sys2Proof.Machine
end

