-- ==== Sys2Proof/Machine/Decoders.lean ====
section
/-!
DEFINITION. The frame decoders of spec/42_decoders.md: the byte steps of the four protocols (R183 to R200), FEED
(R181) and VALIDATE_BLOCK (R202).
-/

namespace Sys2Proof.Machine

/-- `s[i..j)` of R9. -/
def slice (p : List Byte) (i j : Nat) : List Byte := (p.drop i).take (j - i)

/-- `s[i]` of R9, for an index the rule has checked. -/
def byteAt (p : List Byte) (i : Nat) : Byte := p.getD i 0

/-! ### The scan of MOTOR and SAT -/

/-- What a candidate at the head of `DEC_P` comes to: wait for more bytes, drop its first byte (R182), or a
frame of the given length. -/
inductive Verdict where
  | wait
  | reject
  | accept (f : Frame) (len : Nat)
  deriving DecidableEq, Repr

/-- The `loop` of R183 and R188 over the buffered bytes: the frames emitted, in order, and the new `DEC_P`.
Every turn that goes on takes at least one byte, so `|DEC_P|` turns are enough. -/
def scan (judge : List Byte → Verdict) : Nat → List Byte → List Frame × List Byte
  | 0, p => ([], p)
  | turns + 1, p =>
    match judge p with
    | .wait => ([], p)
    | .reject => scan judge turns (p.drop 1)
    | .accept f len =>
      let r := scan judge turns (p.drop len)
      (f :: r.1, r.2)

/-- `motor_ok(P, L)`, R184: the trailer, and the big-endian CRC over the payload. -/
def motorOk (p : List Byte) (len : Nat) : Bool :=
  byteAt p (4 + len) == 0x03 &&
  (256 * (byteAt p (2 + len)).toNat + (byteAt p (3 + len)).toNat ==
    (crcXmodem (slice p 2 (2 + len))).toNat)

/-- The body of R183's loop. -/
def motorJudge (cap : Nat) (p : List Byte) : Verdict :=
  match p with
  | [] => .wait
  | [b] => if b = 0x02 then .wait else .reject
  | b :: l :: _ =>
    if b ≠ 0x02 then .reject
    else if cap < l.toNat + 5 then .reject
    else if p.length < l.toNat + 5 then .wait
    else if motorOk p l.toNat then .accept (.motor (slice p 2 (2 + l.toNat))) (l.toNat + 5)
    else .reject

/-- `sat_ok(P, LEN)`, R189. -/
def satOk (p : List Byte) (len : Nat) : Bool :=
  (byteAt p (6 + len), byteAt p (7 + len)) == fletcher8 (slice p 2 (6 + len))

/-- `LEN` of a satellite frame, little-endian (R84). -/
def satLen (p : List Byte) : Nat := (byteAt p 4).toNat + 256 * (byteAt p 5).toNat

/-- The body of R188's loop. -/
def satJudge (sync1 sync2 : Byte) (cap : Nat) (p : List Byte) : Verdict :=
  match p with
  | [] => .wait
  | [b] => if b = sync1 then .wait else .reject
  | b :: c :: _ =>
    if b ≠ sync1 then .reject
    else if c ≠ sync2 then .reject
    else if p.length < 6 then .wait
    else if cap < satLen p + 8 then .reject
    else if p.length < satLen p + 8 then .wait
    else if satOk p (satLen p) then
      .accept (.sat (byteAt p 2) (byteAt p 3) (slice p 6 (6 + satLen p))) (satLen p + 8)
    else .reject

/-! ### Byte steps -/

/-- The decoder's state (R31, R32). -/
structure DecState where
  pend : List Byte
  mode : DecMode
  deriving DecidableEq, Repr

/-- Append a byte to `DEC_P` and scan (R183, R188). -/
def scanStep (judge : List Byte → Verdict) (b : Byte) (c : DecState) : List Frame × DecState :=
  let r := scan judge (c.pend ++ [b]).length (c.pend ++ [b])
  (r.1, { c with pend := r.2 })

/-- `motor_step(b)`, R183. -/
def motorStep (p : Params) (b : Byte) (c : DecState) : List Frame × DecState :=
  scanStep (motorJudge p.motorCap) b c

/-- `sat_step(b)`, R188. -/
def satStep (p : Params) (b : Byte) (c : DecState) : List Frame × DecState :=
  scanStep (satJudge p.satSync1 p.satSync2 p.satCap) b c

/-- The payload of an encoded frame that passes `cobs_ok(E)` (R194): decodes, is at least 4 bytes long, and its
last two bytes are the little-endian CRC of the bytes before them. -/
def cobsPayload (e : List Byte) : Option (List Byte) :=
  match cobsDecode e with
  | none => none
  | some d =>
    if 4 ≤ d.length ∧
        (byteAt d (d.length - 2)).toNat + 256 * (byteAt d (d.length - 1)).toNat =
          (crcCcittFalse (slice d 0 (d.length - 2))).toNat
    then some (slice d 0 (d.length - 2))
    else none

/-- `cobs_step(b)`, R193 with the overflow of R195. -/
def cobsStep (p : Params) (b : Byte) (c : DecState) : List Frame × DecState :=
  if c.mode = .discard then
    ([], if b = 0 then { c with mode := .normal } else c)
  else if b = 0 then
    (((cobsPayload c.pend).map Frame.cobs).toList, { c with pend := [] })
  else if c.pend.length = p.cobsCap then ([], { pend := [], mode := .discard })
  else ([], { c with pend := c.pend ++ [b] })

/-- `ascii_step(b)`, R198 with the oversize rule R199: `$` is 0x24, LF is 0x0A. -/
def asciiStep (p : Params) (b : Byte) (c : DecState) : List Frame × DecState :=
  if b = 0x24 then ([], { pend := [b], mode := .line })
  else
    match c.mode with
    | .normal => ([], c)
    | .discard => ([], if b = 0x0A then { c with mode := .normal } else c)
    | .line =>
      if c.pend.length = p.asciiCap then
        ([], { pend := [], mode := if b = 0x0A then .normal else .discard })
      else if b = 0x0A then ([.ascii (c.pend ++ [b])], { pend := [], mode := .normal })
      else ([], { c with pend := c.pend ++ [b] })

/-- The byte step of the selected protocol (R181). -/
def decStep (p : Params) (proto : Protocol) (b : Byte) (c : DecState) : List Frame × DecState :=
  match proto with
  | .motor => motorStep p b c
  | .sat => satStep p b c
  | .cobs => cobsStep p b c
  | .ascii => asciiStep p b c

/-- The loop of R181: every byte in index order, the frames in the order emitted. -/
def feedBytes (p : Params) (proto : Protocol) : List Byte → DecState → List Frame × DecState
  | [], c => ([], c)
  | b :: rest, c =>
    let now := decStep p proto b c
    let later := feedBytes p proto rest now.2
    (now.1 ++ later.1, later.2)

/-- `need_P()`: R185, R190, R196, R200. The subtraction is exact (R8). -/
def needMore (proto : Protocol) (p : List Byte) : Int :=
  match proto with
  | .motor => if p.length < 2 then 1 else (byteAt p 1).toNat + 5 - p.length
  | .sat => if p.length < 6 then 1 else satLen p + 8 - p.length
  | .cobs => 1
  | .ascii => 1

/-- The decoder state of a machine state. -/
def State.dec (s : State) : DecState := { pend := s.decP, mode := s.decMode }

/-- The machine state with the decoder's replaced. -/
def State.setDec (c : DecState) (s : State) : State := { s with decP := c.pend, decMode := c.mode }

/-! ### Block read -/

/-- VALIDATE_BLOCK's pseudocode (R202). -/
def validateBlock (d : List Byte) : BlockResult :=
  match d with
  | [] => { accept := false, reason := .empty, data := [] }
  | l :: rest =>
    if l.toNat < Config.blockMin ∨ Config.blockMax < l.toNat then
      { accept := false, reason := .lenRange, data := [] }
    else if rest.length < l.toNat then { accept := false, reason := .short, data := [] }
    else { accept := true, reason := .ok, data := rest.take l.toNat }

/-- The BLOCK frame an accepted response stands for (R180). -/
def BlockResult.frame (r : BlockResult) : Option Frame := if r.accept then some (.block r.data) else none

/-! ### The commands -/

/-- FEED, R181: writes `DEC_P` and `DEC_MODE`, returns the frames, `consumed = |d|` and the need. -/
def execFeed (d : List Byte) (s : State) : Result :=
  permitted .feed s <| started s <|
    let r := feedBytes s.params s.protoSel d s.dec
    complete (.feed r.1 d.length (needMore s.protoSel r.2.pend)) (s.setDec r.2)

/-- VALIDATE_BLOCK, R202. -/
def execValidateBlock (d : List Byte) (s : State) : Result :=
  permitted .validateBlock s (complete (.block (validateBlock d)) s)

end Sys2Proof.Machine
end

