-- ==== Sys2Proof/Machine/Latch.lean ====
section
/-!
DEFINITION. The latch commands of spec/43_latch.md.
-/

namespace Sys2Proof.Machine

/-- LATCH_BEGIN, R232: also inside an open transaction, whose staged changes are dropped. -/
def execLatchBegin (s : State) : Result :=
  permitted .latchBegin s <| started s <|
    complete .done { s with latchStage := s.latchVal, latchTxn := true }

/-- LATCH_APPLY, R233. -/
def execLatchApply (f : Byte) (v : Word) (s : State) : Result :=
  permitted .latchApply s <| started s <| require s.latchTxn .noTxn s <|
    require (fieldInRange f s) .fieldRange s <|
      complete .done { s with latchStage := Store.write s.latchStage f.toNat v }

/-- LATCH_COMMIT, R236: one atomic step (R66). -/
def execLatchCommit (t : Time) (s : State) : Result :=
  permitted .latchCommit s <| started s <| require s.latchTxn .noTxn s <|
    complete .done
      { s with latchVal := s.latchStage, latchTs := t, latchHasData := true, latchPresent := true,
               latchTxn := false }

/-- LATCH_MARK_ABSENT, R237. -/
def execLatchMarkAbsent (s : State) : Result :=
  permitted .latchMarkAbsent s <| started s <| complete .done { s with latchPresent := false }

/-- LATCH_READ_FIELD, R238. -/
def execLatchReadField (f : Byte) (s : State) : Result :=
  permitted .latchReadField s <| require (fieldInRange f s) .fieldRange s <|
    complete (.field (slotView s.latchVal f.toNat).1 (slotView s.latchVal f.toNat).2) s

/-- LATCH_READ_META, R239. -/
def execLatchReadMeta (s : State) : Result :=
  permitted .latchReadMeta s (complete (.latchMeta s.latchHasData s.latchPresent s.latchTs) s)

/-- Every committed slot, field 0 first (R241). -/
def snapshotFields (s : State) : List (Bool × Word) :=
  (List.range s.params.kFields).map (slotView s.latchVal)

/-- LATCH_SNAPSHOT, R241: one atomic step (R66). -/
def execLatchSnapshot (s : State) : Result :=
  permitted .latchSnapshot s
    (complete (.snapshot s.latchHasData s.latchPresent s.latchTs (snapshotFields s)) s)

/-- The staleness test (R240): the age is taken mod 2^64 and compared unsigned. -/
def isStale (now maxAge : Time) (s : State) : Bool :=
  !s.latchHasData || decide (maxAge < now - s.latchTs)

/-- LATCH_STALE, R240. -/
def execLatchStale (now maxAge : Time) (s : State) : Result :=
  permitted .latchStale s (complete (.stale (isStale now maxAge s)) s)

end Sys2Proof.Machine
end

