-- ==== Sys2Proof/Machine/Transport.lean ====
section
/-!
DEFINITION. The transport commands of spec/41_transport.md: START, RX_BYTE, RX_EVENT, TAKE, READ_BUF, DONE, FLUSH and
READ_REG. The procedures they share (reception end, hand-off, overrun) are in Ops.lean.
-/

namespace Sys2Proof.Machine

/-- START, R150: writes `PROTO_SEL` and `STARTED` only (conflict C9). -/
def execStart (a : Byte) (s : State) : Result :=
  permitted .start s <| require (!s.started) .alreadyStarted s <|
    match Protocol.ofByte a with
    | none => raise .badProto s
    | some p => complete .done { s with protoSel := p, started := true }

/-- RX_BYTE, R151 and R152. Before START the byte is lost. -/
def execRxByte (a : Byte) (s : State) : Result :=
  permitted .rxByte s (if s.started then receiveByte a s else complete .done s)

/-- RX_EVENT, R153. Ignored before START. -/
def execRxEvent (s : State) : Result :=
  permitted .rxEvent s (complete .done (if s.started then receiverEvent s else s))

/-- TAKE, R156. -/
def execTake (s : State) : Result :=
  permitted .take s <| started s <|
    if s.signal then complete (.take true s.readyIdx s.readyLen) { s with signal := false }
    else complete (.take false .b0 0) s

/-- READ_BUF, R157. -/
def execReadBuf (n : Half) (s : State) : Result :=
  permitted .readBuf s <| started s <| require s.pending .noHandoff s <|
    require (decide (n < s.readyLen)) .indexRange s (readCell n s)

/-- DONE, R158. -/
def execDone (s : State) : Result :=
  permitted .done s <| started s <| require s.pending .noHandoff s <|
    complete .done { s with pending := false, signal := false }

/-- FLUSH, R159: one atomic step (R64). `SIGNAL` is not set. -/
def execFlush (s : State) : Result :=
  permitted .flush s <| started s <|
    if s.fullSinceCheck ∨ s.remaining ≠ s.snapRemaining then
      complete (.flush .rearm .b0 0) { s with fullSinceCheck := false, snapRemaining := s.remaining }
    else if s.pending then complete (.flush .busy .b0 0) s
    else if s.remaining = s.params.bufCap then complete (.flush .empty .b0 0) s
    else complete (.flush .flushed (handoff s).readyIdx (handoff s).readyLen)
      { handoff s with snapRemaining := s.params.bufCap }

/-- READ_REG, R160. -/
def execReadReg (a : Byte) (s : State) : Result :=
  permitted .readReg s <|
    match regValue a s with
    | none => raise .badReg s
    | some v => complete (.reg v) s

end Sys2Proof.Machine
end

