-- ==== Sys2Proof/Machine/Dispatch.lean ====
section
/-!
DEFINITION. One arm per command, each one call of its meaning.
-/

namespace Sys2Proof.Machine

def exec (i : Instr) (s : State) : Host.Outcome State Fault Refusal :=
  match i with
  | .rxByte a => Sys2Proof.Machine.execRxByte a s
  | .rxEvent => Sys2Proof.Machine.execRxEvent s
  | .start a => Sys2Proof.Machine.execStart a s
  | .take => Sys2Proof.Machine.execTake s
  | .readBuf n => Sys2Proof.Machine.execReadBuf n s
  | .done => Sys2Proof.Machine.execDone s
  | .flush => Sys2Proof.Machine.execFlush s
  | .readReg a => Sys2Proof.Machine.execReadReg a s
  | .feed d => Sys2Proof.Machine.execFeed d s
  | .validateBlock d => Sys2Proof.Machine.execValidateBlock d s
  | .crc16Xmodem d => Sys2Proof.Machine.execCrc16Xmodem d s
  | .crc16CcittFalse d => Sys2Proof.Machine.execCrc16CcittFalse d s
  | .fletcher8 d => Sys2Proof.Machine.execFletcher8 d s
  | .cobsEncode d => Sys2Proof.Machine.execCobsEncode d s
  | .cobsDecode d => Sys2Proof.Machine.execCobsDecode d s
  | .buildMotor d => Sys2Proof.Machine.execBuildMotor d s
  | .buildSat d => Sys2Proof.Machine.execBuildSat d s
  | .buildCobs d => Sys2Proof.Machine.execBuildCobs d s
  | .latchBegin => Sys2Proof.Machine.execLatchBegin s
  | .latchApply f v => Sys2Proof.Machine.execLatchApply f v s
  | .latchCommit t => Sys2Proof.Machine.execLatchCommit t s
  | .latchMarkAbsent => Sys2Proof.Machine.execLatchMarkAbsent s
  | .latchReadField f => Sys2Proof.Machine.execLatchReadField f s
  | .latchReadMeta => Sys2Proof.Machine.execLatchReadMeta s
  | .latchSnapshot => Sys2Proof.Machine.execLatchSnapshot s
  | .latchStale now maxAge => Sys2Proof.Machine.execLatchStale now maxAge s

end Sys2Proof.Machine
end

