-- ==== Sys2Proof/Machine/Step.lean ====
section
/-!
DEFINITION. One step of the block: one whole command of one agent (R63).
-/

namespace Sys2Proof.Machine

/-- The next command in the total order is executed, atomically (R63). With no command issued the state stays as
it is: the block does nothing of its own (R164, R271, R274; log 3). -/
def step (s : State) : Host.Outcome State Fault Refusal :=
  match takeCommand s with
  | none => .next s
  | some (c, t) =>
    match decode c.cw c.data with
    | .ok i => exec i t
    | .error r => rejectCommand r t

/-- The state with the command of a table word first in the queue, issued by an agent that may issue it
(host interface; log 3). -/
def State.withFetchWord (s : State) (nbits w : Nat) : State :=
  { s with cmds := tableCommand nbits w :: s.cmds }

end Sys2Proof.Machine
end

