-- ==== Sys2Proof/Machine/Program.lean ====
section
/-!
DEFINITION. What stands around the single commands: the pseudo-instructions of spec/30_encoding.md R99, the
assembler syntax of R98 as a printer, and a platform of several links (R6, R272). None of it is called by
`step`.
-/

namespace Sys2Proof.Machine

/-! ### Pseudo-instructions (R99) -/

/-- `rx.bytes [b0 … bk]`: one RX_BYTE of the receiver a byte. -/
def rxBytes (d : List Byte) : List Command := d.map fun b => commandOf .rcv (.rxByte b)

/-- `read.ready L`: READ_BUF of the indexes 0 to L-1. -/
def readReady (len : Nat) : List Command :=
  (List.range len).map fun n => commandOf .wrk (.readBuf (BitVec.ofNat 16 n))

/-- `latch.update T, [F0: V0, …, Fj: Vj]`: one transaction. -/
def latchUpdate (t : Time) (fields : List (Byte × Word)) : List Command :=
  [commandOf .wrk .latchBegin] ++ fields.map (fun fv => commandOf .wrk (.latchApply fv.1 fv.2)) ++
    [commandOf .wrk (.latchCommit t)]

/-! ### Assembler syntax (R98) -/

/-- A hexadecimal digit. -/
def hexDigit (n : Nat) : Char := "0123456789ABCDEF".toList.getD n '?'

/-- A byte in hexadecimal without `0x`. -/
def hexByte (b : Byte) : List Char := [hexDigit (b.toNat / 16), hexDigit (b.toNat % 16)]

/-- A number of `digits` hexadecimal digits, with `0x`. -/
def hexNumber (digits n : Nat) : List Char :=
  ['0', 'x'] ++ ((List.range digits).reverse.map fun k => hexDigit (n / 16 ^ k % 16))

/-- A byte list, `[b0 b1 …]`. -/
def asmBytes (d : List Byte) : List Char := ['['] ++ [' '].intercalate (d.map hexByte) ++ [']']

/-- The agent and the colon that start a line. -/
def asmAgent : Agent → List Char
  | .rcv => "RCV: ".toList
  | .wrk => "WRK: ".toList
  | .rdr => "RDR: ".toList

/-- The operand of `start`; a number that is no protocol has no spelling in R98 and is written as a number. -/
def asmProto (a : Byte) : List Char :=
  match Protocol.ofByte a with
  | some .motor => "motor".toList
  | some .sat => "sat".toList
  | some .cobs => "cobs".toList
  | some .ascii => "ascii".toList
  | none => hexNumber 2 a.toNat

/-- The operands of `build.sat C, I, [..]`; fewer than two bytes have no spelling in R98 and are written as a list. -/
def asmSat (d : List Byte) : List Char :=
  match d with
  | cls :: id :: rest => hexNumber 2 cls.toNat ++ ", ".toList ++ hexNumber 2 id.toNat ++ ", ".toList ++ asmBytes rest
  | short => asmBytes short

/-- A command in R98's syntax, as characters; numbers are written in hexadecimal, which R98 admits beside decimal. -/
def asmCommand : Instr → List Char
  | .rxByte a => "rx.byte ".toList ++ hexNumber 2 a.toNat
  | .rxEvent => "rx.event".toList
  | .start a => "start ".toList ++ asmProto a
  | .take => "take".toList
  | .readBuf n => "read.buf ".toList ++ hexNumber 4 n.toNat
  | .done => "done".toList
  | .flush => "flush".toList
  | .readReg a => "read.reg ".toList ++ hexNumber 2 a.toNat
  | .feed d => "feed ".toList ++ asmBytes d
  | .validateBlock d => "validate.block ".toList ++ asmBytes d
  | .crc16Xmodem d => "crc.xmodem ".toList ++ asmBytes d
  | .crc16CcittFalse d => "crc.ccitt ".toList ++ asmBytes d
  | .fletcher8 d => "ck8 ".toList ++ asmBytes d
  | .cobsEncode d => "cobs.enc ".toList ++ asmBytes d
  | .cobsDecode d => "cobs.dec ".toList ++ asmBytes d
  | .buildMotor d => "build.motor ".toList ++ asmBytes d
  | .buildSat d => "build.sat ".toList ++ asmSat d
  | .buildCobs d => "build.cobs ".toList ++ asmBytes d
  | .latchBegin => "latch.begin".toList
  | .latchApply f v => "latch.apply ".toList ++ hexNumber 2 f.toNat ++ ", ".toList ++ hexNumber 8 v.toNat
  | .latchCommit t => "latch.commit ".toList ++ hexNumber 16 t.toNat
  | .latchMarkAbsent => "latch.absent".toList
  | .latchReadField f => "latch.read ".toList ++ hexNumber 2 f.toNat
  | .latchReadMeta => "latch.meta".toList
  | .latchSnapshot => "latch.snap".toList
  | .latchStale now maxAge =>
    "latch.stale ".toList ++ hexNumber 16 now.toNat ++ ", ".toList ++ hexNumber 16 maxAge.toNat

/-- One line of R98: the issuing agent and the command. -/
def asmLine (a : Agent) (i : Instr) : List Char := asmAgent a ++ asmCommand i

/-! ### Several links -/

/-- One independent block per link, each with its own parameters and state (R6, R272). -/
abbrev Platform := List State

/-- One step of link `k`; the order of steps of different links is free (R272). A platform without that link
does nothing. -/
def platformStep (k : Nat) (p : Platform) : Host.Outcome Platform Fault Refusal :=
  match p[k]? with
  | none => .next p
  | some s =>
    match step s with
    | .next t => .next (p.set k t)
    | .fault r => .fault r
    | .refused r => .refused r

end Sys2Proof.Machine
end

