-- ==== Sys2Proof/Safety.lean ====
section
/-!
DEFINITION. What counts as a good state and a safe run: the invariants of spec/10_state.md R38 with what they
rest on, whole commands (R91), runs over a queue of commands, and the history a reception leaves (R70).
-/

namespace Sys2Proof.Machine

/-! ### Good states -/

/-- Every listed index of a store is below the bound. -/
def Store.below {β : Type} (m : Store β) (n : Nat) : Prop := ∀ e ∈ m, e.1 < n

/-- The first `n` cells of a buffer hold bytes, not `⊥`. -/
def State.filled (s : State) (k : BufId) (n : Nat) : Prop := ∀ i < n, (s.cell k i).isSome

/-- What the decoder's state satisfies between FEEDs (R31, R32, R38 item 6). MOTOR and SAT: the scan rests, so the
candidate at the head still waits for bytes. COBS: no delimiter is buffered. ASCII: a line
is open exactly in mode LINE. -/
def DecState.good (p : Params) (proto : Protocol) (c : DecState) : Prop :=
  match proto with
  | .motor => c.mode = .normal ∧ motorJudge p.motorCap c.pend = .wait
  | .sat => c.mode = .normal ∧ satJudge p.satSync1 p.satSync2 p.satCap c.pend = .wait
  | .cobs => c.mode ≠ .line ∧ c.pend.length ≤ p.cobsCap ∧ (0 : Byte) ∉ c.pend ∧ (c.mode = .discard → c.pend = [])
  | .ascii =>
    c.pend.length ≤ p.asciiCap ∧ (c.mode ≠ .line → c.pend = []) ∧
      (c.mode = .line → ∃ body, c.pend = 0x24 :: body ∧ 0x24 ∉ body ∧ 0x0A ∉ body)

/-- The cap of a protocol (R31). -/
def protocolCap (p : Params) : Protocol → Nat
  | .motor => p.motorCap
  | .sat => p.satCap
  | .cobs => p.cobsCap
  | .ascii => p.asciiCap

/-- The state of an instance that was never started: reset, but for the fault record and the port (R150, R282). -/
def State.untouched (s : State) : Prop :=
  s = { State.resetWith s.params with
          faultCode := s.faultCode, cmds := s.cmds, port := s.port, cw := s.cw, resp := s.resp }

/-- The invariant of the block: R38 items 1 to 6, the canonical form of every store, the bounds of every element and
the legal parameters. -/
structure State.Inv (s : State) : Prop where
  /-- Legal parameters, R5. -/
  params : s.params.wf
  /-- Canonical buffers, and no cell at an index ≥ `BUF_CAP` (R61). -/
  buffers : Memory.wf s.buf0 ∧ Memory.wf s.buf1 ∧
    Store.below s.buf0 s.params.bufCap.toNat ∧ Store.below s.buf1 s.params.bufCap.toNat
  /-- R38 item 5. -/
  remaining : 1 ≤ s.remaining ∧ s.remaining ≤ s.params.bufCap
  /-- `SNAP_REMAINING` is a value `REMAINING` has had (R27). -/
  snapRemaining : 1 ≤ s.snapRemaining ∧ s.snapRemaining ≤ s.params.bufCap
  /-- The cells below `FILL` hold bytes (R24). -/
  filling : s.filled s.active s.fill.toNat
  /-- R38 item 1: the worker's buffer is the other one. -/
  otherBuffer : s.pending = true → s.readyIdx = s.active.other
  /-- R38 item 3. -/
  signalled : s.signal = true → s.pending = true
  /-- R38 item 4. -/
  handedOff : s.pending = true →
    1 ≤ s.readyLen ∧ s.readyLen ≤ s.params.bufCap ∧ s.filled s.readyIdx s.readyLen.toNat
  /-- R38 item 6, and what the decoders keep (R183, R188, R193, R198). -/
  decoder : s.dec.good s.params s.protoSel
  /-- Canonical slots, below `K_FIELDS` (R33, R34). -/
  slots : Store.wf s.latchVal ∧ Store.wf s.latchStage ∧
    Store.below s.latchVal s.params.kFields ∧ Store.below s.latchStage s.params.kFields
  /-- A device is present only after a commit (R36). -/
  present : s.latchPresent = true → s.latchHasData = true
  /-- No code above 14 (R261). -/
  faultCode : s.faultCode ≤ 14
  /-- Before START the instance is as reset left it (R150). -/
  beforeStart : s.started = false → s.untouched

/-! ### Commands and runs -/

/-- Did the command just answered fault? -/
def Response.isFault : Response → Bool
  | .fault _ _ _ => true
  | .nothing => false
  | .done => false
  | .take _ _ _ => false
  | .byte _ => false
  | .flush _ _ _ => false
  | .reg _ => false
  | .feed _ _ _ => false
  | .block _ => false
  | .crc _ => false
  | .sums _ _ => false
  | .bytes _ => false
  | .unstuffed _ _ => false
  | .field _ _ => false
  | .latchMeta _ _ _ => false
  | .snapshot _ _ _ _ => false
  | .stale _ => false

/-- R261's table, columns "name" and "raised by", for the faults that a listed opcode can raise. -/
def raisedBy (u : UsageFault) (o : Opcode) : Prop :=
  match u with
  | .illegalOp => False
  | .wrongAgent => True
  | .reservedField => True
  | .badLength => o ∈ [Opcode.latchApply, .latchCommit, .latchStale, .buildSat]
  | .notStarted =>
    o ∈ [Opcode.take, .readBuf, .done, .flush, .feed, .latchBegin, .latchApply, .latchCommit, .latchMarkAbsent]
  | .alreadyStarted => o = .start
  | .badProto => o = .start
  | .noHandoff => o ∈ [Opcode.readBuf, .done]
  | .indexRange => o = .readBuf
  | .badReg => o = .readReg
  | .noTxn => o ∈ [Opcode.latchApply, .latchCommit]
  | .fieldRange => o ∈ [Opcode.latchApply, .latchReadField]
  | .tooLong => o ∈ [Opcode.buildMotor, .buildSat, .buildCobs]
  | .tooShort => o = .buildCobs

/-- The state with a command of an agent on the port (R92): what `exec` runs in. -/
def State.onPort (s : State) (c : Command) (rest : List Command) : State :=
  { s with cmds := rest, port := c.agent, cw := c.cw }

/-- `n` steps of the block. -/
def runSteps (n : Nat) (s : State) : Result := Sys2Proof.core.run n s

/-! ### The history of receptions (R70) -/

/-- What an observer of the receiver writes down: the bytes of the open reception, and the byte sequences of the
hand-offs made so far, oldest first. -/
structure History where
  current : List Byte
  handed : List (List Byte)
  deriving DecidableEq, Repr

/-- The bytes of the open reception once a command has been executed from `s`: a byte delivered to a started link
is noted. -/
def noteByte (i : Instr) (s : State) (bytes : List Byte) : List Byte :=
  match i with
  | .rxByte a => if s.started ∧ s.port = .rcv then bytes ++ [a] else bytes
  | _ => bytes

/-- The history after command `i` took the block from `s` to `t`: a hand-off made by the step (`PENDING` from 0 to 1)
carries the open reception, an overrun discards it. -/
def History.after (h : History) (i : Instr) (s t : State) : History :=
  if s.pending = false ∧ t.pending = true then
    { current := [], handed := h.handed ++ [noteByte i s h.current] }
  else if t.overrunCount ≠ s.overrunCount then { h with current := [] }
  else { h with current := noteByte i s h.current }

/-- The history tells what the buffers hold: the cells of the active buffer below `FILL` are the open reception,
and a pending hand-off's cells below `READY_LEN` are the last sequence handed off. -/
structure History.tells (h : History) (s : State) : Prop where
  current : h.current.length = s.fill.toNat ∧ ∀ i < s.fill.toNat, s.cell s.active i = h.current[i]?
  handed : s.pending = true → ∃ last, h.handed.getLast? = some last ∧ last.length = s.readyLen.toNat ∧
    ∀ i < s.readyLen.toNat, s.cell s.readyIdx i = last[i]?

end Sys2Proof.Machine
end

