-- ==== Sys2Proof/Certificates/Slice0/Obligations.lean ====
section
/-!
DEFINITION. The statements about the block, each from the rules of spec/. A rule the spec marks
"[derived: …]" is the spec's own inference: a statement of it has basis "derived" in OBLIGATIONS.json.
-/

open Sys2Proof Sys2Proof.Machine

/-! ### Commands and their words -/

/-- R63: a step takes the oldest issued command; when its word and data decode, the step is that command's
execution with the command on the port. Nothing else happens around it: the block has no program
counter (R21). -/
def Obligations.StepRunsTheDecodedCommand : Prop :=
  ∀ (s : State) (c : Command) (rest : List Command) (i : Instr),
    s.cmds = c :: rest → decode c.cw c.data = .ok i →
      step s = exec i { s with cmds := rest, port := c.agent, cw := c.cw }

/-- The MODEL's choice (log 3): with no command issued a step leaves the state as it is. -/
def Obligations.IdleBlockKeepsItsState : Prop :=
  ∀ s : State, s.cmds = [] → step s = .next s

/-- R90, R91, R93, R94: decoding a well-formed command's word and data gives the command back, with every operand. -/
def Obligations.DecodingAnEncodedCommandGivesItBack : Prop :=
  ∀ i : Instr, i.wellFormed = true → decode (encode i).1 (encode i).2 = .ok i

/-- R90 to R96: a word and data that decode are the encoding of what they decode to, so every word has one meaning
and no bit of it is free. -/
def Obligations.EncodingADecodedCommandGivesItsWord : Prop :=
  ∀ (cw : Word) (d : List Byte) (i : Instr),
    decode cw d = .ok i → i.wellFormed = true ∧ encode i = (cw, d)

/-- R94's two tables with R91's data count, written out: each opcode's `OP` and format, and for each format how many
data bytes a word carries, its mask, and the fixed count in its match word. "A command word selects the opcode when
`(CW and mask) = match` for its format". -/
def Obligations.MaskAndMatchSelectTheOpcode : Prop :=
  ∀ (o : Opcode) (cw : Word) (d : List Byte),
    let row : Word × Format :=
      match o with
      | .rxByte => (0x01, .a)
      | .rxEvent => (0x02, .z)
      | .start => (0x10, .a)
      | .take => (0x11, .z)
      | .readBuf => (0x12, .i)
      | .done => (0x13, .z)
      | .flush => (0x14, .z)
      | .readReg => (0x15, .a)
      | .feed => (0x20, .s)
      | .validateBlock => (0x21, .s)
      | .crc16Xmodem => (0x30, .s)
      | .crc16CcittFalse => (0x31, .s)
      | .fletcher8 => (0x32, .s)
      | .cobsEncode => (0x33, .s)
      | .cobsDecode => (0x34, .s)
      | .buildMotor => (0x35, .s)
      | .buildSat => (0x36, .s)
      | .buildCobs => (0x37, .s)
      | .latchBegin => (0x40, .z)
      | .latchApply => (0x41, .w)
      | .latchCommit => (0x42, .t8)
      | .latchMarkAbsent => (0x43, .z)
      | .latchReadField => (0x44, .a)
      | .latchReadMeta => (0x45, .z)
      | .latchSnapshot => (0x46, .z)
      | .latchStale => (0x47, .t16)
    let count := (cw.extractLsb' 0 16).toNat
    let form : Nat × Word × Word :=
      match row.2 with
      | .z => (0, 0xFFFFFFFF, 0)
      | .a => (0, 0xFF00FFFF, 0)
      | .i => (0, 0xFFFF0000, 0)
      | .s => (count, 0xFFFF0000, 0)
      | .w => (count, 0xFF00FFFF, 4)
      | .t8 => (count, 0xFFFFFFFF, 8)
      | .t16 => (count, 0xFFFFFFFF, 16)
    d.length = form.1 →
      ((∃ i, decode cw d = .ok i ∧ i.opcode = o) ↔ cw &&& form.2.1 = (row.1 <<< 24) ||| form.2.2)

/-- spec/95_test_vectors.md 2.5, "Command words of every opcode, with example operands": the whole table. -/
def Obligations.SampleWordsDecode : Prop :=
  decode 0x01020000 [] = .ok (.rxByte 0x02) ∧
  decode 0x02000000 [] = .ok .rxEvent ∧
  decode 0x10000000 [] = .ok (.start 0) ∧
  decode 0x10010000 [] = .ok (.start 1) ∧
  decode 0x10020000 [] = .ok (.start 2) ∧
  decode 0x10030000 [] = .ok (.start 3) ∧
  decode 0x11000000 [] = .ok .take ∧
  decode 0x12000005 [] = .ok (.readBuf 5) ∧
  decode 0x13000000 [] = .ok .done ∧
  decode 0x14000000 [] = .ok .flush ∧
  decode 0x15050000 [] = .ok (.readReg 5) ∧
  decode 0x20000005 [0x02, 0x00, 0x00, 0x00, 0x03] = .ok (.feed [0x02, 0x00, 0x00, 0x00, 0x03]) ∧
  decode 0x21000002 [0x01, 0xAA] = .ok (.validateBlock [0x01, 0xAA]) ∧
  decode 0x30000003 [0x01, 0x02, 0x03] = .ok (.crc16Xmodem [0x01, 0x02, 0x03]) ∧
  decode 0x31000001 [0x00] = .ok (.crc16CcittFalse [0x00]) ∧
  decode 0x32000002 [0xFF, 0xFF] = .ok (.fletcher8 [0xFF, 0xFF]) ∧
  decode 0x33000004 [0x11, 0x22, 0x00, 0x33] = .ok (.cobsEncode [0x11, 0x22, 0x00, 0x33]) ∧
  decode 0x34000005 [0x03, 0x11, 0x22, 0x02, 0x33] = .ok (.cobsDecode [0x03, 0x11, 0x22, 0x02, 0x33]) ∧
  decode 0x35000003 [0x01, 0x02, 0x03] = .ok (.buildMotor [0x01, 0x02, 0x03]) ∧
  decode 0x36000002 [0x06, 0x01] = .ok (.buildSat [0x06, 0x01]) ∧
  decode 0x37000002 [0x01, 0x02] = .ok (.buildCobs [0x01, 0x02]) ∧
  decode 0x40000000 [] = .ok .latchBegin ∧
  decode 0x41020004 [0x78, 0x56, 0x34, 0x12] = .ok (.latchApply 2 0x12345678) ∧
  decode 0x42000008 [0x88, 0x13, 0, 0, 0, 0, 0, 0] = .ok (.latchCommit 5000) ∧
  decode 0x43000000 [] = .ok .latchMarkAbsent ∧
  decode 0x44030000 [] = .ok (.latchReadField 3) ∧
  decode 0x45000000 [] = .ok .latchReadMeta ∧
  decode 0x46000000 [] = .ok .latchSnapshot ∧
  decode 0x47000010 [0xE0, 0x15, 0, 0, 0, 0, 0, 0, 0xF4, 0x01, 0, 0, 0, 0, 0, 0] = .ok (.latchStale 5600 500)

/-- R96 with R263's order: the fault of a whole command whose word is no encoding. -/
def Obligations.IllFormedWordsRaiseTheFirstFault : Prop :=
  ∀ (s : State) (c : Command) (rest : List Command), s.cmds = c :: rest → c.whole →
    let t : State := { s with cmds := rest, port := c.agent, cw := c.cw }
    (Opcode.ofByte (cwOp c.cw) = none → step s = .next (t.takeFault .illegalOp)) ∧
    ∀ o, Opcode.ofByte (cwOp c.cw) = some o →
      (o.permits c.agent = false → step s = .next (t.takeFault .wrongAgent)) ∧
      (o.permits c.agent = true →
        (o.format = .z → (cwA c.cw ≠ 0 ∨ cwN c.cw ≠ 0) → step s = .next (t.takeFault .reservedField)) ∧
        (o.format = .a → cwN c.cw ≠ 0 → step s = .next (t.takeFault .reservedField)) ∧
        ((o.format = .i ∨ o.format = .s) → cwA c.cw ≠ 0 → step s = .next (t.takeFault .reservedField)) ∧
        ((o.format = .t8 ∨ o.format = .t16) → cwA c.cw ≠ 0 → step s = .next (t.takeFault .reservedField)) ∧
        (o.format = .w → cwN c.cw ≠ 4 → step s = .next (t.takeFault .badLength)) ∧
        (o.format = .t8 → cwA c.cw = 0 → cwN c.cw ≠ 8 → step s = .next (t.takeFault .badLength)) ∧
        (o.format = .t16 → cwA c.cw = 0 → cwN c.cw ≠ 16 → step s = .next (t.takeFault .badLength)))

/-! ### Usage faults -/

/-- R262: the whole effect of a faulting command. -/
def Obligations.FaultWritesOnlyTheFaultRecord : Prop :=
  ∀ (i : Instr) (s t : State) (u : UsageFault) (a : Agent) (w : Word),
    exec i s = .next t → t.resp = .fault u a w →
      a = s.port ∧ w = s.cw ∧
      t = { s with faultCode := if s.faultCode = 0 then u.code else s.faultCode, resp := .fault u s.port s.cw }

/-- R37: `FAULT_CODE` is sticky; while it is 0 it takes the code of the fault a step raises, and stays 0 if none. A step
with no command issued leaves it as it is. -/
def Obligations.FaultCodeKeepsTheFirstFault : Prop :=
  ∀ s t : State, step s = .next t →
    (s.faultCode ≠ 0 → t.faultCode = s.faultCode) ∧
    (s.cmds = [] → t.faultCode = s.faultCode) ∧
    (s.faultCode = 0 → s.cmds ≠ [] →
      (∀ u a w, t.resp = .fault u a w → t.faultCode = u.code) ∧
      (t.resp.isFault = false → t.faultCode = 0))

/-- R261: the codes 1 to 14, the commands that raise each, and the faulting command named in the outcome. -/
def Obligations.FaultsAreThoseOfTheTable : Prop :=
  ([UsageFault.illegalOp, .wrongAgent, .reservedField, .badLength, .notStarted, .alreadyStarted, .badProto,
    .noHandoff, .indexRange, .badReg, .noTxn, .fieldRange, .tooLong, .tooShort].map UsageFault.code =
      [1, 2, 3, 4, 5, 6, 7, 8, 9, 10, 11, 12, 13, 14]) ∧
  ∀ (s t : State) (c : Command) (rest : List Command) (u : UsageFault) (a : Agent) (w : Word),
    s.cmds = c :: rest → step s = .next t → t.resp = .fault u a w →
      a = c.agent ∧ w = c.cw ∧
      ((u = .illegalOp ∧ Opcode.ofByte (cwOp c.cw) = none) ∨
        ∃ o, Opcode.ofByte (cwOp c.cw) = some o ∧ raisedBy u o)

/-- R264: WRONG_AGENT for exactly the opcodes an agent is not listed for. -/
def Obligations.AgentsMayIssueOnlyTheirOpcodes : Prop :=
  ∀ (i : Instr) (s : State),
    let allowed : Prop :=
      match s.port with
      | .rcv => i.opcode ∈ [Opcode.rxByte, .rxEvent]
      | .wrk => i.opcode ∉ [Opcode.rxByte, .rxEvent]
      | .rdr => i.opcode ∈ [Opcode.readReg, .validateBlock, .crc16Xmodem, .crc16CcittFalse, .fletcher8, .cobsEncode,
          .cobsDecode, .buildMotor, .buildSat, .buildCobs, .latchReadField, .latchReadMeta, .latchSnapshot,
          .latchStale]
    (¬ allowed → exec i s = .next (s.takeFault .wrongAgent)) ∧
    (allowed → ∀ t a w, exec i s = .next t → t.resp ≠ .fault .wrongAgent a w)

/-- R261 row 5: the nine commands that need a started link. -/
def Obligations.WorkerCommandsNeedAStartedLink : Prop :=
  ∀ (i : Instr) (s : State), s.port = .wrk → s.started = false →
    i.opcode ∈ [Opcode.take, .readBuf, .done, .flush, .feed, .latchBegin, .latchApply, .latchCommit,
      .latchMarkAbsent] →
    exec i s = .next (s.takeFault .notStarted)

/-! ### Transport -/

/-- R150: START writes `PROTO_SEL` and `STARTED` and nothing else, once. -/
def Obligations.StartSelectsTheProtocolOnce : Prop :=
  ∀ (a : Byte) (s : State), s.port = .wrk →
    (s.started = true → exec (.start a) s = .next (s.takeFault .alreadyStarted)) ∧
    (s.started = false → 3 < a.toNat → exec (.start a) s = .next (s.takeFault .badProto)) ∧
    (s.started = false → a.toNat = 0 →
      exec (.start a) s = .next { s with protoSel := .motor, started := true, resp := .done }) ∧
    (s.started = false → a.toNat = 1 →
      exec (.start a) s = .next { s with protoSel := .sat, started := true, resp := .done }) ∧
    (s.started = false → a.toNat = 2 →
      exec (.start a) s = .next { s with protoSel := .cobs, started := true, resp := .done }) ∧
    (s.started = false → a.toNat = 3 →
      exec (.start a) s = .next { s with protoSel := .ascii, started := true, resp := .done })

/-- R151, R152: a byte before START is lost; on a started link with a free cell it is stored at `BUF[ACTIVE][FILL]` and
every other cell of both buffers reads as before; the byte that fills the buffer ends the reception in the same
step, as a hand-off or as an overrun (R153 to R155). Whatever is not named keeps its value. -/
def Obligations.RxByteStoresAtFillAndEndsAFullReception : Prop :=
  ∀ (a : Byte) (s : State), s.port = .rcv →
    (s.started = false → exec (.rxByte a) s = .next { s with resp := .done }) ∧
    (s.started = true → 1 ≤ s.remaining.toNat → s.remaining.toNat ≤ s.params.bufCap.toNat →
      ∃ t : State, exec (.rxByte a) s = .next t ∧
        (∀ k i, t.cell k i =
          if k = s.active ∧ i = s.params.bufCap.toNat - s.remaining.toNat then some a else s.cell k i) ∧
        (s.remaining.toNat ≠ 1 →
          t = { s with buf0 := t.buf0, buf1 := t.buf1, remaining := s.remaining - 1, resp := .done }) ∧
        (s.remaining.toNat = 1 → s.pending = true →
          t = { s with buf0 := t.buf0, buf1 := t.buf1, fullSinceCheck := true,
                       overrunCount := s.overrunCount + 1, remaining := s.params.bufCap, resp := .done }) ∧
        (s.remaining.toNat = 1 → s.pending = false →
          t = { s with buf0 := t.buf0, buf1 := t.buf1, fullSinceCheck := true, readyIdx := s.active,
                       readyLen := s.params.bufCap, active := s.active.other, remaining := s.params.bufCap,
                       pending := true, signal := true, resp := .done }))

/-- R153, R154, R155: a reception end before START and one with no byte received change nothing; else it overruns
while a hand-off is pending and hands off when none is. -/
def Obligations.RxEventHandsOffOrOverruns : Prop :=
  ∀ s : State, s.port = .rcv →
    ((s.started = false ∨ s.remaining = s.params.bufCap) → exec .rxEvent s = .next { s with resp := .done }) ∧
    (s.started = true → s.remaining ≠ s.params.bufCap → s.pending = true →
      exec .rxEvent s = .next { s with fullSinceCheck := true, overrunCount := s.overrunCount + 1,
                                       remaining := s.params.bufCap, resp := .done }) ∧
    (s.started = true → s.remaining ≠ s.params.bufCap → s.pending = false →
      exec .rxEvent s = .next { s with fullSinceCheck := true, readyIdx := s.active,
                                       readyLen := s.params.bufCap - s.remaining, active := s.active.other,
                                       remaining := s.params.bufCap, pending := true, signal := true,
                                       resp := .done })

/-- R156. -/
def Obligations.TakeReturnsASignalledHandOffOnce : Prop :=
  ∀ s : State, s.port = .wrk →
    (s.started = false → exec .take s = .next (s.takeFault .notStarted)) ∧
    (s.started = true → s.signal = true →
      exec .take s = .next { s with signal := false, resp := .take true s.readyIdx s.readyLen }) ∧
    (s.started = true → s.signal = false → exec .take s = .next { s with resp := .take false .b0 0 })

/-- R157, with the cell of the ready buffer read through the model's read of one cell. -/
def Obligations.ReadBufReturnsTheReadyByte : Prop :=
  ∀ (n : Half) (s : State), s.port = .wrk →
    (s.started = false → exec (.readBuf n) s = .next (s.takeFault .notStarted)) ∧
    (s.started = true → s.pending = false → exec (.readBuf n) s = .next (s.takeFault .noHandoff)) ∧
    (s.started = true → s.pending = true → s.readyLen ≤ n →
      exec (.readBuf n) s = .next (s.takeFault .indexRange)) ∧
    (s.started = true → s.pending = true → n < s.readyLen → n < s.params.bufCap →
      ∀ b, s.cell s.readyIdx n.toNat = some b → exec (.readBuf n) s = .next { s with resp := .byte b })

/-- R158. -/
def Obligations.DoneConsumesTheHandOff : Prop :=
  ∀ s : State, s.port = .wrk →
    (s.started = false → exec .done s = .next (s.takeFault .notStarted)) ∧
    (s.started = true → s.pending = false → exec .done s = .next (s.takeFault .noHandoff)) ∧
    (s.started = true → s.pending = true →
      exec .done s = .next { s with pending := false, signal := false, resp := .done })

/-- R159: the five outcomes of FLUSH; a flushed hand-off is returned and not signalled. -/
def Obligations.FlushRearmsOrHandsOffAQuietBuffer : Prop :=
  ∀ s : State, s.port = .wrk →
    (s.started = false → exec .flush s = .next (s.takeFault .notStarted)) ∧
    (s.started = true → (s.fullSinceCheck = true ∨ s.remaining ≠ s.snapRemaining) →
      exec .flush s = .next { s with fullSinceCheck := false, snapRemaining := s.remaining,
                                     resp := .flush .rearm .b0 0 }) ∧
    (s.started = true → s.fullSinceCheck = false → s.remaining = s.snapRemaining → s.pending = true →
      exec .flush s = .next { s with resp := .flush .busy .b0 0 }) ∧
    (s.started = true → s.fullSinceCheck = false → s.remaining = s.snapRemaining → s.pending = false →
      s.remaining = s.params.bufCap → exec .flush s = .next { s with resp := .flush .empty .b0 0 }) ∧
    (s.started = true → s.fullSinceCheck = false → s.remaining = s.snapRemaining → s.pending = false →
      s.remaining ≠ s.params.bufCap →
      exec .flush s = .next { s with readyIdx := s.active, readyLen := s.params.bufCap - s.remaining,
                                     active := s.active.other, remaining := s.params.bufCap, pending := true,
                                     snapRemaining := s.params.bufCap,
                                     resp := .flush .flushed s.active (s.params.bufCap - s.remaining) }) ∧
    ([FlushCode.flushed, .rearm, .busy, .empty].map FlushCode.code = [0, 1, 2, 3])

/-- R160 with the map of R40; STATUS is register 0 and has a statement of its own. DEC_MODE reads as NORMAL = 0, LINE = 1,
DISCARD = 2 (R32). FILL is an exact difference where
`REMAINING` ≤ `BUF_CAP`, which R38 item 5 gives in every reachable state. -/
def Obligations.ReadRegReturnsTheRegister : Prop :=
  ∀ (a : Byte) (s : State), s.port ≠ .rcv →
    let reads : Nat → Prop := fun v => exec (.readReg a) s = .next { s with resp := .reg (BitVec.ofNat 32 v) }
    (a.toNat = 0 → reads (statusWord s).toNat) ∧
    (a.toNat = 1 → s.remaining.toNat ≤ s.params.bufCap.toNat → reads (s.params.bufCap.toNat - s.remaining.toNat)) ∧
    (a.toNat = 2 → reads s.remaining.toNat) ∧
    (a.toNat = 3 → reads s.readyLen.toNat) ∧
    (a.toNat = 4 → reads s.snapRemaining.toNat) ∧
    (a.toNat = 5 → reads s.overrunCount.toNat) ∧
    (a.toNat = 6 → reads s.params.bufCap.toNat) ∧
    (a.toNat = 7 → s.decP.length < 2 ^ 17 → reads s.decP.length) ∧
    (a.toNat = 8 → reads (match s.decMode with
      | .normal => 0
      | .line => 1
      | .discard => 2)) ∧
    (a.toNat = 9 → reads s.faultCode.toNat) ∧
    (9 < a.toNat → exec (.readReg a) s = .next (s.takeFault .badReg))

/-- R41, bit by bit: a buffer index reads as its number (R22, R23, R25), PROTO as R5's MOTOR = 0, SAT = 1, COBS = 2,
ASCII = 3. -/
def Obligations.StatusWordHoldsTheFlags : Prop :=
  ∀ s : State,
    (statusWord s).getLsbD 0 = s.started ∧
    (statusWord s).getLsbD 1 = decide (s.active = .b1) ∧
    (statusWord s).getLsbD 2 = s.pending ∧
    (statusWord s).getLsbD 3 = s.signal ∧
    (statusWord s).getLsbD 4 = decide (s.readyIdx = .b1) ∧
    (statusWord s).getLsbD 5 = s.fullSinceCheck ∧
    (statusWord s).getLsbD 6 = s.latchTxn ∧
    (statusWord s).getLsbD 7 = s.latchPresent ∧
    ((statusWord s).extractLsb' 8 3).toNat = (match s.protoSel with
      | .motor => 0
      | .sat => 1
      | .cobs => 2
      | .ascii => 3) ∧
    (statusWord s).getLsbD 11 = s.latchHasData ∧
    (statusWord s).getLsbD 12 = decide (s.faultCode ≠ 0) ∧
    ∀ k, 13 ≤ k → (statusWord s).getLsbD k = false

/-- R39, R60, R67: the frame of every command, element by element: each element of state is written only by the
commands its rule names. Every cell of both buffers is read through the model's read of one cell. -/
def Obligations.EachElementIsWrittenOnlyByItsCommands : Prop :=
  ∀ (i : Instr) (s t : State), exec i s = .next t →
    (i.opcode ≠ .rxByte → ∀ k n, t.cell k n = s.cell k n) ∧
    (i.opcode ∉ [Opcode.rxByte, .rxEvent, .flush] →
      t.active = s.active ∧ t.remaining = s.remaining ∧ t.readyIdx = s.readyIdx ∧ t.readyLen = s.readyLen) ∧
    (i.opcode ∉ [Opcode.rxByte, .rxEvent, .flush, .done] → t.pending = s.pending) ∧
    (i.opcode ∉ [Opcode.rxByte, .rxEvent, .take, .done] → t.signal = s.signal) ∧
    (i.opcode ≠ .flush → t.snapRemaining = s.snapRemaining) ∧
    (i.opcode ∉ [Opcode.rxByte, .rxEvent, .flush] → t.fullSinceCheck = s.fullSinceCheck) ∧
    (i.opcode ∉ [Opcode.rxByte, .rxEvent] → t.overrunCount = s.overrunCount) ∧
    (i.opcode ≠ .start → t.started = s.started ∧ t.protoSel = s.protoSel) ∧
    (i.opcode ≠ .feed → t.decP = s.decP ∧ t.decMode = s.decMode) ∧
    (i.opcode ≠ .latchCommit →
      t.latchVal = s.latchVal ∧ t.latchTs = s.latchTs ∧ t.latchHasData = s.latchHasData) ∧
    (i.opcode ∉ [Opcode.latchBegin, .latchApply] → t.latchStage = s.latchStage) ∧
    (i.opcode ∉ [Opcode.latchBegin, .latchCommit] → t.latchTxn = s.latchTxn) ∧
    (i.opcode ∉ [Opcode.latchCommit, .latchMarkAbsent] → t.latchPresent = s.latchPresent) ∧
    (t.resp.isFault = false → t.faultCode = s.faultCode) ∧
    t.params = s.params ∧ t.cmds = s.cmds ∧ t.port = s.port ∧ t.cw = s.cw

/-- R39, columns "set by" and "cleared by": which commands can raise and which can clear each flag. -/
def Obligations.FlagsAreSetAndClearedByTheirCommands : Prop :=
  ∀ (i : Instr) (s t : State), exec i s = .next t →
    (s.pending = false → t.pending = true → i.opcode ∈ [Opcode.rxByte, .rxEvent, .flush]) ∧
    (s.pending = true → t.pending = false → i.opcode = .done) ∧
    (s.signal = false → t.signal = true → i.opcode ∈ [Opcode.rxByte, .rxEvent]) ∧
    (s.signal = true → t.signal = false → i.opcode ∈ [Opcode.take, .done]) ∧
    (s.fullSinceCheck = false → t.fullSinceCheck = true → i.opcode ∈ [Opcode.rxByte, .rxEvent]) ∧
    (s.fullSinceCheck = true → t.fullSinceCheck = false → i.opcode = .flush) ∧
    (s.started = false → t.started = true → i.opcode = .start) ∧
    (s.started = true → t.started = true ∧ t.protoSel = s.protoSel) ∧
    (s.latchTxn = false → t.latchTxn = true → i.opcode = .latchBegin) ∧
    (s.latchTxn = true → t.latchTxn = false → i.opcode = .latchCommit) ∧
    (s.latchHasData = false → t.latchHasData = true → i.opcode = .latchCommit) ∧
    (s.latchHasData = true → t.latchHasData = true) ∧
    (s.latchPresent = false → t.latchPresent = true → i.opcode = .latchCommit) ∧
    (s.latchPresent = true → t.latchPresent = false → i.opcode = .latchMarkAbsent)

/-- R161, R162, R65, R157 (corner case): until DONE is issued a hand-off stays pending and neither its buffer index,
its length nor any byte of its buffer changes, whatever the agents issue. -/
def Obligations.HeldHandOffIsUntouchedUntilDone : Prop :=
  ∀ (n : Nat) (s t : State), s.Inv → s.pending = true → (∀ c ∈ s.cmds, cwOp c.cw ≠ 0x13) →
    runSteps n s = .next t →
      t.pending = true ∧ t.readyIdx = s.readyIdx ∧ t.readyLen = s.readyLen ∧
      ∀ i, t.cell s.readyIdx i = s.cell s.readyIdx i

/-- R70, R163: what the buffers hold is what was received. If a history tells the buffers before a command, the history
extended by the command (a byte noted, a hand-off made of exactly the open reception, an overrun discarding
it) tells them after. -/
def Obligations.HandOffsCarryTheReceivedBytesInOrder : Prop :=
  ∀ (i : Instr) (s t : State) (h : History), s.Inv → h.tells s → exec i s = .next t → (h.after i s t).tells t

/-- R151 to R154, R99: from an empty active buffer with no hand-off pending, fewer bytes than the buffer holds followed by
a reception end are handed off and signalled, byte for byte, and no other step is needed. -/
def Obligations.ShortReceptionIsHandedOffByteForByte : Prop :=
  ∀ (s : State) (d : List Byte) (rest : List Command),
    s.params.wf → s.started = true → s.pending = false → s.remaining = s.params.bufCap →
    0 < d.length → d.length < s.params.bufCap.toNat →
    s.cmds = rxBytes d ++ commandOf .rcv .rxEvent :: rest →
      ∃ t, runSteps (d.length + 1) s = .next t ∧ t.cmds = rest ∧ t.pending = true ∧ t.signal = true ∧
        t.readyIdx = s.active ∧ t.readyLen.toNat = d.length ∧
        (∀ i, t.cell t.readyIdx i = if i < d.length then d[i]? else s.cell s.active i) ∧
        (∀ i, t.cell t.active i = s.cell t.active i)

/-- R286: from a FLUSH check on, one or more received bytes with no other command between make the next FLUSH return
REARM. -/
def Obligations.FlushAfterNewBytesRearms : Prop :=
  ∀ (s : State) (d : List Byte) (rest : List Command),
    s.Inv → s.started = true → s.fullSinceCheck = false → s.snapRemaining = s.remaining → d ≠ [] →
    s.cmds = rxBytes d ++ commandOf .wrk .flush :: rest →
      ∃ t, runSteps (d.length + 1) s = .next t ∧ t.cmds = rest ∧ t.resp = .flush .rearm .b0 0 ∧
        t.fullSinceCheck = false ∧ t.snapRemaining = t.remaining

/-- R266, R64: a reception end (RX_EVENT, or the full event of an RX_BYTE) and a FLUSH never meet in one step, and their
order decides.
1. Reception end first, none pending: it hands off and signals, and the FLUSH answers REARM.
2. FLUSH first, when it flushes: a later RX_EVENT finds an empty buffer and does nothing. With bytes in between the
   reception end overruns: an RX_EVENT after one byte, the full event after as many as the buffer holds. -/
def Obligations.ReceptionEndAndFlushFollowTheirOrder : Prop :=
  ∀ (s : State) (rest : List Command), s.params.wf → s.started = true → s.pending = false →
    let signalled : State → Half → Prop := fun t len =>
      t.cmds = rest ∧ t.resp = .flush .rearm .b0 0 ∧ t.pending = true ∧ t.signal = true ∧ t.readyIdx = s.active ∧
        t.readyLen = len
    let flushed : State → Prop := fun t =>
      t.cmds = rest ∧ t.pending = true ∧ t.signal = s.signal ∧ t.readyIdx = s.active ∧
        t.readyLen = s.params.bufCap - s.remaining ∧ t.active = s.active.other ∧ t.remaining = s.params.bufCap
    (s.remaining ≠ s.params.bufCap → s.cmds = commandOf .rcv .rxEvent :: commandOf .wrk .flush :: rest →
      ∃ t, runSteps 2 s = .next t ∧ signalled t (s.params.bufCap - s.remaining)) ∧
    (∀ b, s.remaining = 1 → s.cmds = commandOf .rcv (.rxByte b) :: commandOf .wrk .flush :: rest →
      ∃ t, runSteps 2 s = .next t ∧ signalled t s.params.bufCap) ∧
    (s.fullSinceCheck = false → s.remaining = s.snapRemaining → s.remaining ≠ s.params.bufCap →
      (s.cmds = commandOf .wrk .flush :: commandOf .rcv .rxEvent :: rest →
        ∃ t, runSteps 2 s = .next t ∧ flushed t ∧ t.fullSinceCheck = false ∧ t.overrunCount = s.overrunCount) ∧
      (∀ b, s.cmds = commandOf .wrk .flush :: commandOf .rcv (.rxByte b) :: commandOf .rcv .rxEvent :: rest →
        ∃ t, runSteps 3 s = .next t ∧ flushed t ∧ t.fullSinceCheck = true ∧
          t.overrunCount = s.overrunCount + 1) ∧
      ∀ d : List Byte, d.length = s.params.bufCap.toNat → s.cmds = commandOf .wrk .flush :: (rxBytes d ++ rest) →
        ∃ t, runSteps (d.length + 1) s = .next t ∧ flushed t ∧ t.fullSinceCheck = true ∧
          t.overrunCount = s.overrunCount + 1)

/-! ### Checksum kit -/

/-- R122 to R126, R120: the five checksum commands complete with their function's value and write nothing. -/
def Obligations.ChecksumCommandsReturnTheirValue : Prop :=
  ∀ (d : List Byte) (s : State), s.port ≠ .rcv →
    exec (.crc16Xmodem d) s = .next { s with resp := .crc (crc16 0x0000 d) } ∧
    exec (.crc16CcittFalse d) s = .next { s with resp := .crc (crc16 0xFFFF d) } ∧
    exec (.fletcher8 d) s = .next { s with resp := .sums (fletcher8 d).1 (fletcher8 d).2 } ∧
    exec (.cobsEncode d) s = .next { s with resp := .bytes (cobsEncode d) } ∧
    (∀ out, cobsDecode d = some out → exec (.cobsDecode d) s = .next { s with resp := .unstuffed true out }) ∧
    (cobsDecode d = none → exec (.cobsDecode d) s = .next { s with resp := .unstuffed false [] })

/-- R121: no byte leaves the initial value; each byte is xored into the high byte and shifted out 8 times with the
polynomial 0x1021, most significant bit first. With the check values of R122 and R123. -/
def Obligations.CrcIsTheBitSerialDivision : Prop :=
  (∀ init, crc16 init [] = init) ∧
  (∀ init b rest, crc16 init (b :: rest) =
    crc16 ((fun c : Half => if c.getLsbD 15 then (c <<< 1) ^^^ 0x1021 else c <<< 1)^[8]
      (init ^^^ (b.setWidth 16 <<< 8))) rest) ∧
  crc16 0x0000 [0x31, 0x32, 0x33, 0x34, 0x35, 0x36, 0x37, 0x38, 0x39] = 0x31C3 ∧
  crc16 0xFFFF [0x31, 0x32, 0x33, 0x34, 0x35, 0x36, 0x37, 0x38, 0x39] = 0x29B1

/-- R122 (corner cases) and R205 item 1: the XMODEM CRC does not see leading zero bytes, and sees every change of one
byte, as the other CRC does. -/
def Obligations.CrcSeesEveryOneByteChange : Prop :=
  (∀ n d, crc16 0x0000 (List.replicate n 0 ++ d) = crc16 0x0000 d) ∧
  ∀ (init : Half) (pre post : List Byte) (b c : Byte), b ≠ c →
    crc16 init (pre ++ b :: post) ≠ crc16 init (pre ++ c :: post)

/-- R124: the sums start at 0; each byte is added to `ck_a`, then the new `ck_a` to `ck_b`, mod 256. So `ck_a` is the
sum of the bytes and `ck_b` weighs byte `k` of `n` with `n - k`. -/
def Obligations.FletcherIsTheSumOfSums : Prop :=
  fletcher8 [] = (0, 0) ∧
  (∀ d b, fletcher8 (d ++ [b]) = ((fletcher8 d).1 + b, (fletcher8 d).2 + ((fletcher8 d).1 + b))) ∧
  ∀ d : List Byte,
    (fletcher8 d).1 = BitVec.ofNat 8 (d.map BitVec.toNat).sum ∧
    (fletcher8 d).2 =
      BitVec.ofNat 8 ((List.range d.length).map fun k => (d.length - k) * (d.getD k 0).toNat).sum

/-- R125: a block of fewer than 254 non-zero bytes is closed by a zero byte or by the end of the input; a block of 254
is closed at once, without a final code byte where it ends the input. With the length bound of the rule. -/
def Obligations.CobsEncodeClosesBlocks : Prop :=
  (∀ blk rest : List Byte, (0 : Byte) ∉ blk → blk.length < 254 →
    cobsEncode (blk ++ 0 :: rest) = BitVec.ofNat 8 (blk.length + 1) :: blk ++ cobsEncode rest) ∧
  (∀ blk : List Byte, (0 : Byte) ∉ blk → blk.length < 254 →
    cobsEncode blk = BitVec.ofNat 8 (blk.length + 1) :: blk) ∧
  (∀ blk rest : List Byte, (0 : Byte) ∉ blk → blk.length = 254 → rest ≠ [] →
    cobsEncode (blk ++ rest) = 0xFF :: blk ++ cobsEncode rest) ∧
  (∀ blk : List Byte, (0 : Byte) ∉ blk → blk.length = 254 → cobsEncode blk = 0xFF :: blk) ∧
  ∀ d, (cobsEncode d).length ≤ d.length + (d.length + 253) / 254 + 1

/-- R126: the block loop of the decoder; none is ERR. -/
def Obligations.CobsDecodeFollowsTheBlockLoop : Prop :=
  cobsDecode [] = some [] ∧
  (∀ rest, cobsDecode (0 :: rest) = none) ∧
  (∀ (c : Byte) (rest : List Byte), c ≠ 0 → c.toNat > rest.length + 1 → cobsDecode (c :: rest) = none) ∧
  ∀ (c : Byte) (blk tail : List Byte), c ≠ 0 → blk.length + 1 = c.toNat →
    cobsDecode (c :: (blk ++ tail)) =
      (cobsDecode tail).map fun out => blk ++ (if c.toNat < 0xFF ∧ tail ≠ [] then [0] else []) ++ out

/-- R127, its three laws. -/
def Obligations.CobsStuffingLaws : Prop :=
  (∀ d, cobsDecode (cobsEncode d) = some d) ∧
  (∀ d, (0 : Byte) ∉ cobsEncode d) ∧
  ∀ d : List Byte, d.length = 300 → (0 : Byte) ∉ d →
    cobsEncode d = 0xFF :: d.take 254 ++ 0x2F :: d.drop 254 ∧ (cobsEncode d).length = 302 ∧
    cobsDecode (cobsEncode d) = some d

/-- R128, with the frame of R81 written out. -/
def Obligations.BuildMotorReturnsTheFrame : Prop :=
  ∀ (d : List Byte) (s : State), s.port ≠ .rcv →
    ((d.length > 255 ∨ d.length + 5 > s.params.motorCap) →
      exec (.buildMotor d) s = .next (s.takeFault .tooLong)) ∧
    (d.length ≤ 255 → d.length + 5 ≤ s.params.motorCap →
      let frame := [0x02, BitVec.ofNat 8 d.length] ++ d ++
        [(crc16 0x0000 d).extractLsb' 8 8, (crc16 0x0000 d).extractLsb' 0 8, 0x03]
      exec (.buildMotor d) s = .next { s with resp := .bytes frame })

/-- R129, with the frame of R83 written out. -/
def Obligations.BuildSatReturnsTheFrame : Prop :=
  ∀ s : State, s.port ≠ .rcv →
    (∀ d : List Byte, d.length < 2 → exec (.buildSat d) s = .next (s.takeFault .badLength)) ∧
    ∀ (cls id : Byte) (p : List Byte),
      let body := [cls, id, BitVec.ofNat 8 (p.length % 256), BitVec.ofNat 8 (p.length / 256)] ++ p
      (p.length + 8 > s.params.satCap → exec (.buildSat (cls :: id :: p)) s = .next (s.takeFault .tooLong)) ∧
      (p.length + 8 ≤ s.params.satCap →
        let frame := [s.params.satSync1, s.params.satSync2] ++ body ++ [(fletcher8 body).1, (fletcher8 body).2]
        exec (.buildSat (cls :: id :: p)) s = .next { s with resp := .bytes frame })

/-- R130, with the frame of R85 written out. -/
def Obligations.BuildCobsReturnsTheFrame : Prop :=
  ∀ (d : List Byte) (s : State), s.port ≠ .rcv →
    let e := cobsEncode (d ++ [(crc16 0xFFFF d).extractLsb' 0 8, (crc16 0xFFFF d).extractLsb' 8 8])
    (d.length < 2 → exec (.buildCobs d) s = .next (s.takeFault .tooShort)) ∧
    (2 ≤ d.length → e.length > s.params.cobsCap → exec (.buildCobs d) s = .next (s.takeFault .tooLong)) ∧
    (2 ≤ d.length → e.length ≤ s.params.cobsCap →
      exec (.buildCobs d) s = .next { s with resp := .bytes (e ++ [0x00]) })

/-- R131: whatever frame a builder returns, FEEDing it to a fresh decoder of the matching protocol emits exactly one frame
with the original payload, class and id, and leaves the decoder fresh. -/
def Obligations.BuiltFramesDecodeToTheirPayload : Prop :=
  ∀ s : State, s.params.wf → s.port = .wrk → s.started = true → s.decP = [] → s.decMode = .normal →
    (∀ d fr, s.protoSel = .motor → exec (.buildMotor d) s = .next { s with resp := .bytes fr } →
      exec (.feed fr) s = .next { s with resp := .feed [.motor d] fr.length 1 }) ∧
    (∀ cls id p fr, s.protoSel = .sat →
      exec (.buildSat (cls :: id :: p)) s = .next { s with resp := .bytes fr } →
      exec (.feed fr) s = .next { s with resp := .feed [.sat cls id p] fr.length 1 }) ∧
    (∀ d fr, s.protoSel = .cobs → exec (.buildCobs d) s = .next { s with resp := .bytes fr } →
      exec (.feed fr) s = .next { s with resp := .feed [.cobs d] fr.length 1 })

/-! ### Decoders -/

/-- R181: FEED runs the selected protocol's byte step on every byte, returns the frames in the order emitted, the length
of the slice and the need, and writes the decoder's two elements only. -/
def Obligations.FeedRunsTheByteSteps : Prop :=
  (∀ p proto c, feedBytes p proto [] c = ([], c)) ∧
  (∀ p proto b rest c, feedBytes p proto (b :: rest) c =
    ((decStep p proto b c).1 ++ (feedBytes p proto rest (decStep p proto b c).2).1,
      (feedBytes p proto rest (decStep p proto b c).2).2)) ∧
  ∀ (d : List Byte) (s : State), s.port = .wrk →
    (s.started = false → exec (.feed d) s = .next (s.takeFault .notStarted)) ∧
    (s.started = true → ∀ fs c, feedBytes s.params s.protoSel d { pend := s.decP, mode := s.decMode } = (fs, c) →
      exec (.feed d) s = .next { s with decP := c.pend, decMode := c.mode,
                                        resp := .feed fs d.length (needMore s.protoSel c.pend) })

/-- R203: two FEEDs of the halves of a sequence emit what one FEED of the whole emits, leave the same decoder state and
end with the same need. -/
def Obligations.SplitFeedsEqualOneFeed : Prop :=
  ∀ (s : State) (x y : List Byte), s.port = .wrk → s.started = true →
    ∃ (t1 t2 : State) (f1 f2 : List Frame) (n1 n2 : Int),
      exec (.feed x) s = .next t1 ∧ t1.resp = .feed f1 x.length n1 ∧
      exec (.feed y) t1 = .next t2 ∧ t2.resp = .feed f2 y.length n2 ∧
      exec (.feed (x ++ y)) s = .next { t2 with resp := .feed (f1 ++ f2) (x ++ y).length n2 }

/-- R183, R184, R182: what one byte does on a MOTOR link, by the loop of R183 written out case by case for the buffered
bytes `q` it scans. -/
def Obligations.MotorDecoderFollowsItsLoop : Prop :=
  ∀ p : Params,
    let loop : List Byte → List Frame × List Byte := fun q => scan (motorJudge p.motorCap) q.length q
    (∀ b c, decStep p .motor b c = ((loop (c.pend ++ [b])).1, { c with pend := (loop (c.pend ++ [b])).2 })) ∧
    loop [] = ([], []) ∧
    (∀ b q, b ≠ 0x02 → loop (b :: q) = loop q) ∧
    loop [0x02] = ([], [0x02]) ∧
    (∀ l q, l.toNat + 5 > p.motorCap → loop (0x02 :: l :: q) = loop (l :: q)) ∧
    (∀ l q, l.toNat + 5 ≤ p.motorCap → q.length + 2 < l.toNat + 5 →
      loop (0x02 :: l :: q) = ([], 0x02 :: l :: q)) ∧
    (∀ l payload hi lo e q, l.toNat + 5 ≤ p.motorCap → payload.length = l.toNat →
      (e = 0x03 ∧ 256 * hi.toNat + lo.toNat = (crc16 0x0000 payload).toNat →
        loop (0x02 :: l :: (payload ++ [hi, lo, e] ++ q)) = (.motor payload :: (loop q).1, (loop q).2)) ∧
      (¬ (e = 0x03 ∧ 256 * hi.toNat + lo.toNat = (crc16 0x0000 payload).toNat) →
        loop (0x02 :: l :: (payload ++ [hi, lo, e] ++ q)) = loop (l :: (payload ++ [hi, lo, e] ++ q))))

/-- R188, R189, R182: what one byte does on a SAT link, by the loop of R188 written out case by case. -/
def Obligations.SatDecoderFollowsItsLoop : Prop :=
  ∀ p : Params,
    let loop : List Byte → List Frame × List Byte :=
      fun q => scan (satJudge p.satSync1 p.satSync2 p.satCap) q.length q
    (∀ b c, decStep p .sat b c = ((loop (c.pend ++ [b])).1, { c with pend := (loop (c.pend ++ [b])).2 })) ∧
    loop [] = ([], []) ∧
    (∀ b q, b ≠ p.satSync1 → loop (b :: q) = loop q) ∧
    loop [p.satSync1] = ([], [p.satSync1]) ∧
    (∀ b q, b ≠ p.satSync2 → loop (p.satSync1 :: b :: q) = loop (b :: q)) ∧
    (∀ q, q.length < 4 → loop (p.satSync1 :: p.satSync2 :: q) = ([], p.satSync1 :: p.satSync2 :: q)) ∧
    (∀ cls id l0 l1 q,
      let len := l0.toNat + 256 * l1.toNat
      (len + 8 > p.satCap → loop (p.satSync1 :: p.satSync2 :: cls :: id :: l0 :: l1 :: q) =
        loop (p.satSync2 :: cls :: id :: l0 :: l1 :: q)) ∧
      (len + 8 ≤ p.satCap → q.length + 6 < len + 8 →
        loop (p.satSync1 :: p.satSync2 :: cls :: id :: l0 :: l1 :: q) =
          ([], p.satSync1 :: p.satSync2 :: cls :: id :: l0 :: l1 :: q)) ∧
      (∀ payload a b, len + 8 ≤ p.satCap → payload.length = len →
        ((a, b) = fletcher8 ([cls, id, l0, l1] ++ payload) →
          loop (p.satSync1 :: p.satSync2 :: cls :: id :: l0 :: l1 :: (payload ++ [a, b] ++ q)) =
            (.sat cls id payload :: (loop q).1, (loop q).2)) ∧
        ((a, b) ≠ fletcher8 ([cls, id, l0, l1] ++ payload) →
          loop (p.satSync1 :: p.satSync2 :: cls :: id :: l0 :: l1 :: (payload ++ [a, b] ++ q)) =
            loop (p.satSync2 :: cls :: id :: l0 :: l1 :: (payload ++ [a, b] ++ q)))))

/-- R193, R194, R195: what one byte does on a COBS link. -/
def Obligations.CobsDecoderFollowsItsStep : Prop :=
  ∀ (p : Params) (b : Byte) (q : List Byte),
    (∀ pend, b ≠ 0 → decStep p .cobs b ⟨pend, .discard⟩ = ([], ⟨pend, .discard⟩)) ∧
    (∀ pend, decStep p .cobs 0 ⟨pend, .discard⟩ = ([], ⟨pend, .normal⟩)) ∧
    (b ≠ 0 → q.length = p.cobsCap → decStep p .cobs b ⟨q, .normal⟩ = ([], ⟨[], .discard⟩)) ∧
    (b ≠ 0 → q.length ≠ p.cobsCap → decStep p .cobs b ⟨q, .normal⟩ = ([], ⟨q ++ [b], .normal⟩)) ∧
    (∀ payload lo hi, cobsDecode q = some (payload ++ [lo, hi]) → 2 ≤ payload.length →
      lo.toNat + 256 * hi.toNat = (crc16 0xFFFF payload).toNat →
      decStep p .cobs 0 ⟨q, .normal⟩ = ([.cobs payload], ⟨[], .normal⟩)) ∧
    ((∀ payload lo hi, cobsDecode q = some (payload ++ [lo, hi]) → 2 ≤ payload.length →
        lo.toNat + 256 * hi.toNat ≠ (crc16 0xFFFF payload).toNat) →
      decStep p .cobs 0 ⟨q, .normal⟩ = ([], ⟨[], .normal⟩))

/-- R198, R199: what one byte does on an ASCII link; 0x24 is `$` and 0x0A is LF. -/
def Obligations.AsciiFramerFollowsItsStep : Prop :=
  ∀ (p : Params) (b : Byte) (q : List Byte),
    (∀ mode, decStep p .ascii 0x24 ⟨q, mode⟩ = ([], ⟨[0x24], .line⟩)) ∧
    (b ≠ 0x24 → decStep p .ascii b ⟨q, .normal⟩ = ([], ⟨q, .normal⟩)) ∧
    (b ≠ 0x24 → b ≠ 0x0A → decStep p .ascii b ⟨q, .discard⟩ = ([], ⟨q, .discard⟩)) ∧
    decStep p .ascii 0x0A ⟨q, .discard⟩ = ([], ⟨q, .normal⟩) ∧
    (b ≠ 0x24 → b ≠ 0x0A → q.length = p.asciiCap → decStep p .ascii b ⟨q, .line⟩ = ([], ⟨[], .discard⟩)) ∧
    (q.length = p.asciiCap → decStep p .ascii 0x0A ⟨q, .line⟩ = ([], ⟨[], .normal⟩)) ∧
    (b ≠ 0x24 → b ≠ 0x0A → q.length ≠ p.asciiCap →
      decStep p .ascii b ⟨q, .line⟩ = ([], ⟨q ++ [b], .line⟩)) ∧
    (q.length ≠ p.asciiCap →
      decStep p .ascii 0x0A ⟨q, .line⟩ = ([.ascii (q ++ [0x0A])], ⟨[], .normal⟩))

/-- R181, R185, R190, R196, R200, R204: after a FEED in a good state the need is the rule's, is at least 1, and is not too
large: no continuation shorter than it completes a frame. -/
def Obligations.FeedNeedIsTheBytesStillMissing : Prop :=
  ∀ (s t : State) (d : List Byte) (fs : List Frame) (consumed : Nat) (need : Int),
    s.Inv → exec (.feed d) s = .next t → t.resp = .feed fs consumed need →
      consumed = d.length ∧ 1 ≤ need ∧
      (s.protoSel = .motor → need = if t.decP.length < 2 then 1
        else (t.decP.getD 1 0).toNat + 5 - (t.decP.length : Int)) ∧
      (s.protoSel = .sat → need = if t.decP.length < 6 then 1
        else ((t.decP.getD 4 0).toNat + 256 * (t.decP.getD 5 0).toNat : Int) + 8 - t.decP.length) ∧
      (s.protoSel = .cobs → need = 1) ∧ (s.protoSel = .ascii → need = 1) ∧
      ∀ e u fs' n' need', (e.length : Int) < need → exec (.feed e) t = .next u → u.resp = .feed fs' n' need' → fs' = []

/-- R180, R204, R242: a frame is emitted only where its whole wire form, with its integrity bytes, stood in the bytes
received: those pending before the FEED and those fed. The COBS wire form is any stuffing of the payload and
its CRC, since the decoder accepts both encoder variants (R126). -/
def Obligations.EmittedFramesWereReceivedWhole : Prop :=
  ∀ (s t : State) (d : List Byte) (fs : List Frame) (consumed : Nat) (need : Int),
    s.Inv → exec (.feed d) s = .next t → t.resp = .feed fs consumed need →
      ∀ f ∈ fs, ∃ pre wire post, s.decP ++ d = pre ++ wire ++ post ∧
        match s.protoSel with
        | .motor => ∃ payload, f = .motor payload ∧ payload.length ≤ 255 ∧ wire = motorFrame payload
        | .sat => ∃ cls id payload, f = .sat cls id payload ∧ payload.length ≤ 65535 ∧
            wire = satFrame s.params cls id payload
        | .cobs => ∃ payload e, f = .cobs payload ∧ 2 ≤ payload.length ∧ (0 : Byte) ∉ e ∧ wire = e ++ [0] ∧
            cobsDecode e = some (payload ++ [loByte (crcCcittFalse payload), hiByte (crcCcittFalse payload)])
        | .ascii => ∃ line, f = .ascii line ∧ 2 ≤ line.length ∧ line.length ≤ s.params.asciiCap ∧
            line.head? = some 0x24 ∧ line.getLast? = some 0x0A ∧ wire = line

/-- R205: whatever bytes `x` (the corrupted frame before it) a decoder in a good state `c` is fed, a valid frame that
follows is emitted.
1. MOTOR and SAT: once the bytes up to cap − 1 past the end of `x` have been fed, unless a candidate that starts in the
   pending bytes or inside `x` is accepted. 2. ASCII: always, from any state. 3. COBS: when a delimiter ends `x`. -/
def Obligations.NextFrameSurvivesCorruption : Prop :=
  ∀ (p : Params) (c : DecState) (x : List Byte), p.wf →
    (∀ payload y, c.good p .motor → payload.length ≤ 255 → payload.length + 5 ≤ p.motorCap →
      p.motorCap ≤ (motorFrame payload ++ y).length + 1 →
      (∀ k < (c.pend ++ x).length, ∀ f n,
        motorJudge p.motorCap ((c.pend ++ x ++ motorFrame payload ++ y).drop k) ≠ .accept f n) →
      (feedBytes p .motor (x ++ motorFrame payload ++ y) c).1 =
        .motor payload :: (feedBytes p .motor y ⟨[], .normal⟩).1) ∧
    (∀ cls id payload y, c.good p .sat → payload.length + 8 ≤ p.satCap →
      p.satCap ≤ (satFrame p cls id payload ++ y).length + 1 →
      (∀ k < (c.pend ++ x).length, ∀ f n, satJudge p.satSync1 p.satSync2 p.satCap
        ((c.pend ++ x ++ satFrame p cls id payload ++ y).drop k) ≠ .accept f n) →
      (feedBytes p .sat (x ++ satFrame p cls id payload ++ y) c).1 =
        .sat cls id payload :: (feedBytes p .sat y ⟨[], .normal⟩).1) ∧
    (∀ body, (0x24 : Byte) ∉ body → (0x0A : Byte) ∉ body → body.length + 2 ≤ p.asciiCap →
      ∃ fs, feedBytes p .ascii (x ++ 0x24 :: body ++ [0x0A]) c =
        (fs ++ [.ascii (0x24 :: body ++ [0x0A])], ⟨[], .normal⟩)) ∧
    (∀ payload, c.good p .cobs → 2 ≤ payload.length → (cobsStuffed payload).length ≤ p.cobsCap →
      ∃ fs, feedBytes p .cobs (x ++ [0] ++ cobsFrame payload) c = (fs ++ [.cobs payload], ⟨[], .normal⟩))

/-- R202, R87: the four outcomes of VALIDATE_BLOCK, with `BLOCK_MIN` = 1 and `BLOCK_MAX` = 32 (R5, conflict C2). -/
def Obligations.ValidateBlockChecksTheLength : Prop :=
  ∀ s : State, s.port ≠ .rcv →
    exec (.validateBlock []) s = .next { s with resp := .block ⟨false, .empty, []⟩ } ∧
    (∀ l rest, (l.toNat < 1 ∨ 32 < l.toNat) →
      exec (.validateBlock (l :: rest)) s = .next { s with resp := .block ⟨false, .lenRange, []⟩ }) ∧
    (∀ l rest, 1 ≤ l.toNat → l.toNat ≤ 32 → rest.length < l.toNat →
      exec (.validateBlock (l :: rest)) s = .next { s with resp := .block ⟨false, .short, []⟩ }) ∧
    (∀ l data extra, 1 ≤ l.toNat → l.toNat ≤ 32 → data.length = l.toNat →
      exec (.validateBlock (l :: (data ++ extra))) s = .next { s with resp := .block ⟨true, .ok, data⟩ }) ∧
    ([BlockReason.ok, .empty, .lenRange, .short].map BlockReason.code = [0, 1, 2, 3])

/-! ### Latch -/

/-- R232, R233, R236, R237. The staged slot is read through the model's read of one slot. -/
def Obligations.LatchTransactionCommandsWriteTheirElements : Prop :=
  ∀ s : State, s.port = .wrk →
    (s.started = false →
      exec .latchBegin s = .next (s.takeFault .notStarted) ∧
      (∀ f v, exec (.latchApply f v) s = .next (s.takeFault .notStarted)) ∧
      (∀ t, exec (.latchCommit t) s = .next (s.takeFault .notStarted)) ∧
      exec .latchMarkAbsent s = .next (s.takeFault .notStarted)) ∧
    (s.started = true →
      exec .latchBegin s = .next { s with latchStage := s.latchVal, latchTxn := true, resp := .done } ∧
      (∀ f v,
        (s.latchTxn = false → exec (.latchApply f v) s = .next (s.takeFault .noTxn)) ∧
        (s.latchTxn = true → s.params.kFields ≤ f.toNat →
          exec (.latchApply f v) s = .next (s.takeFault .fieldRange)) ∧
        (s.latchTxn = true → f.toNat < s.params.kFields →
          ∃ stage, exec (.latchApply f v) s = .next { s with latchStage := stage, resp := .done } ∧
            ∀ k, Store.read stage k = if k = f.toNat then some v else Store.read s.latchStage k)) ∧
      (∀ t,
        (s.latchTxn = false → exec (.latchCommit t) s = .next (s.takeFault .noTxn)) ∧
        (s.latchTxn = true →
          exec (.latchCommit t) s = .next { s with latchVal := s.latchStage, latchTs := t, latchHasData := true,
                                                   latchPresent := true, latchTxn := false, resp := .done })) ∧
      exec .latchMarkAbsent s = .next { s with latchPresent := false, resp := .done })

/-- R238, R239, R241: what the readers get of the committed latch. They write nothing. -/
def Obligations.LatchReadersReturnTheCommittedState : Prop :=
  ∀ s : State, s.port ≠ .rcv →
    (∀ f : Byte,
      (s.params.kFields ≤ f.toNat → exec (.latchReadField f) s = .next (s.takeFault .fieldRange)) ∧
      (f.toNat < s.params.kFields → Store.read s.latchVal f.toNat = none →
        exec (.latchReadField f) s = .next { s with resp := .field false 0 }) ∧
      (f.toNat < s.params.kFields → ∀ v, Store.read s.latchVal f.toNat = some v →
        exec (.latchReadField f) s = .next { s with resp := .field true v })) ∧
    exec .latchReadMeta s = .next { s with resp := .latchMeta s.latchHasData s.latchPresent s.latchTs } ∧
    ∃ fields, exec .latchSnapshot s =
        .next { s with resp := .snapshot s.latchHasData s.latchPresent s.latchTs fields } ∧
      fields.length = s.params.kFields ∧
      ∀ k < s.params.kFields, fields[k]? = some ((Store.read s.latchVal k).isSome, (Store.read s.latchVal k).getD 0)

/-- R240: the age is `(now - LATCH_TS) mod 2^64`; stale when no commit has happened or the age exceeds the maximum. -/
def Obligations.LatchStaleComparesTheAge : Prop :=
  ∀ (now maxAge : Time) (s : State), s.port ≠ .rcv →
    (s.latchHasData = false → exec (.latchStale now maxAge) s = .next { s with resp := .stale true }) ∧
    (s.latchHasData = true →
      let age := (now.toNat + 2 ^ 64 - s.latchTs.toNat) % 2 ^ 64
      exec (.latchStale now maxAge) s = .next { s with resp := .stale (decide (maxAge.toNat < age)) })

/-- R34, R231, R72: no result a reader gets depends on the staged slots. -/
def Obligations.ReadersNeverSeeStagedSlots : Prop :=
  ∀ (i : Instr) (s t u : State) (stage : Slots), s.port = .rdr →
    exec i s = .next t → exec i { s with latchStage := stage } = .next u → u.resp = t.resp

/-- R99, R232, R233, R236, R72: the pseudo-instruction latch.update publishes its fields in the one step of its commit:
before it every committed element is as it was, after it each slot holds the last value applied to it, or
its old value. -/
def Obligations.LatchUpdatePublishesInOneStep : Prop :=
  ∀ (s : State) (ts : Time) (fields : List (Byte × Word)) (rest : List Command),
    s.started = true → (∀ e ∈ fields, e.1.toNat < s.params.kFields) → s.cmds = latchUpdate ts fields ++ rest →
      (∃ t, runSteps (fields.length + 1) s = .next t ∧ t.latchVal = s.latchVal ∧ t.latchTs = s.latchTs ∧
        t.latchHasData = s.latchHasData ∧ t.latchPresent = s.latchPresent) ∧
      ∃ t, runSteps (fields.length + 2) s = .next t ∧ t.cmds = rest ∧ t.latchTs = ts ∧ t.latchHasData = true ∧
        t.latchPresent = true ∧ t.latchTxn = false ∧
        ∀ k, Store.read t.latchVal k =
          match (fields.filter fun e => e.1.toNat = k).getLast? with
          | some e => some e.2
          | none => Store.read s.latchVal k

/-! ### Reset, invariant, progress -/

/-- R42, R281: every element of the spec after reset, for every choice of parameters. The parameters of `State.reset`
itself are the MODEL's choice (log 1). -/
def Obligations.ResetLeavesTheSpecsValues : Prop :=
  ∀ p : Params,
    let s := State.resetWith p
    (∀ k i, s.cell k i = none) ∧ s.active = .b0 ∧ s.remaining = p.bufCap ∧ s.pending = false ∧
    s.readyIdx = .b0 ∧ s.readyLen = 0 ∧ s.signal = false ∧ s.snapRemaining = p.bufCap ∧
    s.fullSinceCheck = false ∧ s.overrunCount = 0 ∧ s.started = false ∧ s.protoSel = .motor ∧ s.decP = [] ∧
    s.decMode = .normal ∧ (∀ f, Store.read s.latchVal f = none) ∧ (∀ f, Store.read s.latchStage f = none) ∧
    s.latchTxn = false ∧ s.latchTs = 0 ∧ s.latchHasData = false ∧ s.latchPresent = false ∧ s.faultCode = 0 ∧
    State.reset = State.resetWith Config.resetParams

/-- R38 and what it rests on hold after reset, for legal parameters and whatever commands the agents have issued. -/
def Obligations.ResetMeetsTheInvariant : Prop :=
  ∀ (p : Params) (cmds : List Command), p.wf → ({ State.resetWith p with cmds := cmds } : State).Inv

/-- R38: from every state that meets the invariant, every step leads to one that meets it. -/
def Obligations.EveryStepKeepsTheInvariant : Prop :=
  ∀ s t : State, s.Inv → step s = .next t → t.Inv

/-- R163, R164, R61: in a state that meets the invariant a whole command never stops the machine: it completes or faults
in its own step, reading no `⊥` cell and no cell outside a buffer. -/
def Obligations.NoCommandStopsAGoodState : Prop :=
  ∀ s : State, s.Inv → (∀ c ∈ s.cmds, c.whole) → ∃ t, step s = .next t

/-- R38, its six items, in every state that any commands lead to from reset. -/
def Obligations.ReachableStatesMeetTheSixItems : Prop :=
  ∀ (p : Params) (cmds : List Command) (n : Nat) (s : State), p.wf →
    runSteps n { State.resetWith p with cmds := cmds } = .next s →
      (s.pending = true → s.readyIdx ≠ s.active) ∧
      (s.signal = true → s.pending = true) ∧
      (s.pending = true → 1 ≤ s.readyLen.toNat ∧ s.readyLen.toNat ≤ p.bufCap.toNat ∧
        ∀ i < s.readyLen.toNat, (s.cell s.readyIdx i).isSome) ∧
      1 ≤ s.remaining.toNat ∧ s.remaining.toNat ≤ p.bufCap.toNat ∧
      s.decP.length ≤ protocolCap p s.protoSel

/-- R6, R272: a step of link `k` is that link's own step, taken exactly when it goes on, and leaves every other link of the
platform as it is. -/
def Obligations.LinksAreIndependent : Prop :=
  ∀ (k : Nat) (p : Platform) (s : State), p[k]? = some s →
    (∀ t, step s = .next t →
      ∃ q, platformStep k p = .next q ∧ q[k]? = some t ∧ ∀ j, j ≠ k → q[j]? = p[j]?) ∧
    ∀ q, platformStep k p = .next q →
      ∃ t, step s = .next t ∧ q[k]? = some t ∧ ∀ j, j ≠ k → q[j]? = p[j]?
end

