-- ==== Sys2Proof/Laws/State.lean ====
section
/-!
SUPPORT. One lemma per field per named update of State, each true by rfl, so that no proof unfolds an update.
The two updates that choose a buffer (`setBuf`, `storeByte`) have theirs by a case split on the buffer.
-/

namespace Sys2Proof.Machine

/-! ### takeFault -/

@[simp] theorem takeFault_buf0 (u : UsageFault) (s : State) : (s.takeFault u).buf0 = s.buf0 := rfl
@[simp] theorem takeFault_buf1 (u : UsageFault) (s : State) : (s.takeFault u).buf1 = s.buf1 := rfl
@[simp] theorem takeFault_active (u : UsageFault) (s : State) : (s.takeFault u).active = s.active := rfl
@[simp] theorem takeFault_remaining (u : UsageFault) (s : State) : (s.takeFault u).remaining = s.remaining := rfl
@[simp] theorem takeFault_pending (u : UsageFault) (s : State) : (s.takeFault u).pending = s.pending := rfl
@[simp] theorem takeFault_readyIdx (u : UsageFault) (s : State) : (s.takeFault u).readyIdx = s.readyIdx := rfl
@[simp] theorem takeFault_readyLen (u : UsageFault) (s : State) : (s.takeFault u).readyLen = s.readyLen := rfl
@[simp] theorem takeFault_signal (u : UsageFault) (s : State) : (s.takeFault u).signal = s.signal := rfl
@[simp] theorem takeFault_snapRemaining (u : UsageFault) (s : State) : (s.takeFault u).snapRemaining = s.snapRemaining := rfl
@[simp] theorem takeFault_fullSinceCheck (u : UsageFault) (s : State) : (s.takeFault u).fullSinceCheck = s.fullSinceCheck := rfl
@[simp] theorem takeFault_overrunCount (u : UsageFault) (s : State) : (s.takeFault u).overrunCount = s.overrunCount := rfl
@[simp] theorem takeFault_started (u : UsageFault) (s : State) : (s.takeFault u).started = s.started := rfl
@[simp] theorem takeFault_protoSel (u : UsageFault) (s : State) : (s.takeFault u).protoSel = s.protoSel := rfl
@[simp] theorem takeFault_decP (u : UsageFault) (s : State) : (s.takeFault u).decP = s.decP := rfl
@[simp] theorem takeFault_decMode (u : UsageFault) (s : State) : (s.takeFault u).decMode = s.decMode := rfl
@[simp] theorem takeFault_latchVal (u : UsageFault) (s : State) : (s.takeFault u).latchVal = s.latchVal := rfl
@[simp] theorem takeFault_latchStage (u : UsageFault) (s : State) : (s.takeFault u).latchStage = s.latchStage := rfl
@[simp] theorem takeFault_latchTxn (u : UsageFault) (s : State) : (s.takeFault u).latchTxn = s.latchTxn := rfl
@[simp] theorem takeFault_latchTs (u : UsageFault) (s : State) : (s.takeFault u).latchTs = s.latchTs := rfl
@[simp] theorem takeFault_latchHasData (u : UsageFault) (s : State) : (s.takeFault u).latchHasData = s.latchHasData := rfl
@[simp] theorem takeFault_latchPresent (u : UsageFault) (s : State) : (s.takeFault u).latchPresent = s.latchPresent := rfl
@[simp] theorem takeFault_faultCode (u : UsageFault) (s : State) : (s.takeFault u).faultCode = if s.faultCode = 0 then u.code else s.faultCode := rfl
@[simp] theorem takeFault_params (u : UsageFault) (s : State) : (s.takeFault u).params = s.params := rfl
@[simp] theorem takeFault_cmds (u : UsageFault) (s : State) : (s.takeFault u).cmds = s.cmds := rfl
@[simp] theorem takeFault_port (u : UsageFault) (s : State) : (s.takeFault u).port = s.port := rfl
@[simp] theorem takeFault_cw (u : UsageFault) (s : State) : (s.takeFault u).cw = s.cw := rfl
@[simp] theorem takeFault_resp (u : UsageFault) (s : State) : (s.takeFault u).resp = .fault u s.port s.cw := rfl

/-! ### handoff -/

@[simp] theorem handoff_buf0 (s : State) : (handoff s).buf0 = s.buf0 := rfl
@[simp] theorem handoff_buf1 (s : State) : (handoff s).buf1 = s.buf1 := rfl
@[simp] theorem handoff_active (s : State) : (handoff s).active = s.active.other := rfl
@[simp] theorem handoff_remaining (s : State) : (handoff s).remaining = s.params.bufCap := rfl
@[simp] theorem handoff_pending (s : State) : (handoff s).pending = true := rfl
@[simp] theorem handoff_readyIdx (s : State) : (handoff s).readyIdx = s.active := rfl
@[simp] theorem handoff_readyLen (s : State) : (handoff s).readyLen = s.fill := rfl
@[simp] theorem handoff_signal (s : State) : (handoff s).signal = s.signal := rfl
@[simp] theorem handoff_snapRemaining (s : State) : (handoff s).snapRemaining = s.snapRemaining := rfl
@[simp] theorem handoff_fullSinceCheck (s : State) : (handoff s).fullSinceCheck = s.fullSinceCheck := rfl
@[simp] theorem handoff_overrunCount (s : State) : (handoff s).overrunCount = s.overrunCount := rfl
@[simp] theorem handoff_started (s : State) : (handoff s).started = s.started := rfl
@[simp] theorem handoff_protoSel (s : State) : (handoff s).protoSel = s.protoSel := rfl
@[simp] theorem handoff_decP (s : State) : (handoff s).decP = s.decP := rfl
@[simp] theorem handoff_decMode (s : State) : (handoff s).decMode = s.decMode := rfl
@[simp] theorem handoff_latchVal (s : State) : (handoff s).latchVal = s.latchVal := rfl
@[simp] theorem handoff_latchStage (s : State) : (handoff s).latchStage = s.latchStage := rfl
@[simp] theorem handoff_latchTxn (s : State) : (handoff s).latchTxn = s.latchTxn := rfl
@[simp] theorem handoff_latchTs (s : State) : (handoff s).latchTs = s.latchTs := rfl
@[simp] theorem handoff_latchHasData (s : State) : (handoff s).latchHasData = s.latchHasData := rfl
@[simp] theorem handoff_latchPresent (s : State) : (handoff s).latchPresent = s.latchPresent := rfl
@[simp] theorem handoff_faultCode (s : State) : (handoff s).faultCode = s.faultCode := rfl
@[simp] theorem handoff_params (s : State) : (handoff s).params = s.params := rfl
@[simp] theorem handoff_cmds (s : State) : (handoff s).cmds = s.cmds := rfl
@[simp] theorem handoff_port (s : State) : (handoff s).port = s.port := rfl
@[simp] theorem handoff_cw (s : State) : (handoff s).cw = s.cw := rfl
@[simp] theorem handoff_resp (s : State) : (handoff s).resp = s.resp := rfl

/-! ### overrun -/

@[simp] theorem overrun_buf0 (s : State) : (overrun s).buf0 = s.buf0 := rfl
@[simp] theorem overrun_buf1 (s : State) : (overrun s).buf1 = s.buf1 := rfl
@[simp] theorem overrun_active (s : State) : (overrun s).active = s.active := rfl
@[simp] theorem overrun_remaining (s : State) : (overrun s).remaining = s.params.bufCap := rfl
@[simp] theorem overrun_pending (s : State) : (overrun s).pending = s.pending := rfl
@[simp] theorem overrun_readyIdx (s : State) : (overrun s).readyIdx = s.readyIdx := rfl
@[simp] theorem overrun_readyLen (s : State) : (overrun s).readyLen = s.readyLen := rfl
@[simp] theorem overrun_signal (s : State) : (overrun s).signal = s.signal := rfl
@[simp] theorem overrun_snapRemaining (s : State) : (overrun s).snapRemaining = s.snapRemaining := rfl
@[simp] theorem overrun_fullSinceCheck (s : State) : (overrun s).fullSinceCheck = s.fullSinceCheck := rfl
@[simp] theorem overrun_overrunCount (s : State) : (overrun s).overrunCount = s.overrunCount + 1 := rfl
@[simp] theorem overrun_started (s : State) : (overrun s).started = s.started := rfl
@[simp] theorem overrun_protoSel (s : State) : (overrun s).protoSel = s.protoSel := rfl
@[simp] theorem overrun_decP (s : State) : (overrun s).decP = s.decP := rfl
@[simp] theorem overrun_decMode (s : State) : (overrun s).decMode = s.decMode := rfl
@[simp] theorem overrun_latchVal (s : State) : (overrun s).latchVal = s.latchVal := rfl
@[simp] theorem overrun_latchStage (s : State) : (overrun s).latchStage = s.latchStage := rfl
@[simp] theorem overrun_latchTxn (s : State) : (overrun s).latchTxn = s.latchTxn := rfl
@[simp] theorem overrun_latchTs (s : State) : (overrun s).latchTs = s.latchTs := rfl
@[simp] theorem overrun_latchHasData (s : State) : (overrun s).latchHasData = s.latchHasData := rfl
@[simp] theorem overrun_latchPresent (s : State) : (overrun s).latchPresent = s.latchPresent := rfl
@[simp] theorem overrun_faultCode (s : State) : (overrun s).faultCode = s.faultCode := rfl
@[simp] theorem overrun_params (s : State) : (overrun s).params = s.params := rfl
@[simp] theorem overrun_cmds (s : State) : (overrun s).cmds = s.cmds := rfl
@[simp] theorem overrun_port (s : State) : (overrun s).port = s.port := rfl
@[simp] theorem overrun_cw (s : State) : (overrun s).cw = s.cw := rfl
@[simp] theorem overrun_resp (s : State) : (overrun s).resp = s.resp := rfl

/-! ### setDec -/

@[simp] theorem setDec_buf0 (c : DecState) (s : State) : (s.setDec c).buf0 = s.buf0 := rfl
@[simp] theorem setDec_buf1 (c : DecState) (s : State) : (s.setDec c).buf1 = s.buf1 := rfl
@[simp] theorem setDec_active (c : DecState) (s : State) : (s.setDec c).active = s.active := rfl
@[simp] theorem setDec_remaining (c : DecState) (s : State) : (s.setDec c).remaining = s.remaining := rfl
@[simp] theorem setDec_pending (c : DecState) (s : State) : (s.setDec c).pending = s.pending := rfl
@[simp] theorem setDec_readyIdx (c : DecState) (s : State) : (s.setDec c).readyIdx = s.readyIdx := rfl
@[simp] theorem setDec_readyLen (c : DecState) (s : State) : (s.setDec c).readyLen = s.readyLen := rfl
@[simp] theorem setDec_signal (c : DecState) (s : State) : (s.setDec c).signal = s.signal := rfl
@[simp] theorem setDec_snapRemaining (c : DecState) (s : State) : (s.setDec c).snapRemaining = s.snapRemaining := rfl
@[simp] theorem setDec_fullSinceCheck (c : DecState) (s : State) : (s.setDec c).fullSinceCheck = s.fullSinceCheck := rfl
@[simp] theorem setDec_overrunCount (c : DecState) (s : State) : (s.setDec c).overrunCount = s.overrunCount := rfl
@[simp] theorem setDec_started (c : DecState) (s : State) : (s.setDec c).started = s.started := rfl
@[simp] theorem setDec_protoSel (c : DecState) (s : State) : (s.setDec c).protoSel = s.protoSel := rfl
@[simp] theorem setDec_decP (c : DecState) (s : State) : (s.setDec c).decP = c.pend := rfl
@[simp] theorem setDec_decMode (c : DecState) (s : State) : (s.setDec c).decMode = c.mode := rfl
@[simp] theorem setDec_latchVal (c : DecState) (s : State) : (s.setDec c).latchVal = s.latchVal := rfl
@[simp] theorem setDec_latchStage (c : DecState) (s : State) : (s.setDec c).latchStage = s.latchStage := rfl
@[simp] theorem setDec_latchTxn (c : DecState) (s : State) : (s.setDec c).latchTxn = s.latchTxn := rfl
@[simp] theorem setDec_latchTs (c : DecState) (s : State) : (s.setDec c).latchTs = s.latchTs := rfl
@[simp] theorem setDec_latchHasData (c : DecState) (s : State) : (s.setDec c).latchHasData = s.latchHasData := rfl
@[simp] theorem setDec_latchPresent (c : DecState) (s : State) : (s.setDec c).latchPresent = s.latchPresent := rfl
@[simp] theorem setDec_faultCode (c : DecState) (s : State) : (s.setDec c).faultCode = s.faultCode := rfl
@[simp] theorem setDec_params (c : DecState) (s : State) : (s.setDec c).params = s.params := rfl
@[simp] theorem setDec_cmds (c : DecState) (s : State) : (s.setDec c).cmds = s.cmds := rfl
@[simp] theorem setDec_port (c : DecState) (s : State) : (s.setDec c).port = s.port := rfl
@[simp] theorem setDec_cw (c : DecState) (s : State) : (s.setDec c).cw = s.cw := rfl
@[simp] theorem setDec_resp (c : DecState) (s : State) : (s.setDec c).resp = s.resp := rfl

/-! ### onPort -/

@[simp] theorem onPort_buf0 (s : State) (c : Command) (rest : List Command) : (s.onPort c rest).buf0 = s.buf0 := rfl
@[simp] theorem onPort_buf1 (s : State) (c : Command) (rest : List Command) : (s.onPort c rest).buf1 = s.buf1 := rfl
@[simp] theorem onPort_active (s : State) (c : Command) (rest : List Command) : (s.onPort c rest).active = s.active := rfl
@[simp] theorem onPort_remaining (s : State) (c : Command) (rest : List Command) : (s.onPort c rest).remaining = s.remaining := rfl
@[simp] theorem onPort_pending (s : State) (c : Command) (rest : List Command) : (s.onPort c rest).pending = s.pending := rfl
@[simp] theorem onPort_readyIdx (s : State) (c : Command) (rest : List Command) : (s.onPort c rest).readyIdx = s.readyIdx := rfl
@[simp] theorem onPort_readyLen (s : State) (c : Command) (rest : List Command) : (s.onPort c rest).readyLen = s.readyLen := rfl
@[simp] theorem onPort_signal (s : State) (c : Command) (rest : List Command) : (s.onPort c rest).signal = s.signal := rfl
@[simp] theorem onPort_snapRemaining (s : State) (c : Command) (rest : List Command) : (s.onPort c rest).snapRemaining = s.snapRemaining := rfl
@[simp] theorem onPort_fullSinceCheck (s : State) (c : Command) (rest : List Command) : (s.onPort c rest).fullSinceCheck = s.fullSinceCheck := rfl
@[simp] theorem onPort_overrunCount (s : State) (c : Command) (rest : List Command) : (s.onPort c rest).overrunCount = s.overrunCount := rfl
@[simp] theorem onPort_started (s : State) (c : Command) (rest : List Command) : (s.onPort c rest).started = s.started := rfl
@[simp] theorem onPort_protoSel (s : State) (c : Command) (rest : List Command) : (s.onPort c rest).protoSel = s.protoSel := rfl
@[simp] theorem onPort_decP (s : State) (c : Command) (rest : List Command) : (s.onPort c rest).decP = s.decP := rfl
@[simp] theorem onPort_decMode (s : State) (c : Command) (rest : List Command) : (s.onPort c rest).decMode = s.decMode := rfl
@[simp] theorem onPort_latchVal (s : State) (c : Command) (rest : List Command) : (s.onPort c rest).latchVal = s.latchVal := rfl
@[simp] theorem onPort_latchStage (s : State) (c : Command) (rest : List Command) : (s.onPort c rest).latchStage = s.latchStage := rfl
@[simp] theorem onPort_latchTxn (s : State) (c : Command) (rest : List Command) : (s.onPort c rest).latchTxn = s.latchTxn := rfl
@[simp] theorem onPort_latchTs (s : State) (c : Command) (rest : List Command) : (s.onPort c rest).latchTs = s.latchTs := rfl
@[simp] theorem onPort_latchHasData (s : State) (c : Command) (rest : List Command) : (s.onPort c rest).latchHasData = s.latchHasData := rfl
@[simp] theorem onPort_latchPresent (s : State) (c : Command) (rest : List Command) : (s.onPort c rest).latchPresent = s.latchPresent := rfl
@[simp] theorem onPort_faultCode (s : State) (c : Command) (rest : List Command) : (s.onPort c rest).faultCode = s.faultCode := rfl
@[simp] theorem onPort_params (s : State) (c : Command) (rest : List Command) : (s.onPort c rest).params = s.params := rfl
@[simp] theorem onPort_cmds (s : State) (c : Command) (rest : List Command) : (s.onPort c rest).cmds = rest := rfl
@[simp] theorem onPort_port (s : State) (c : Command) (rest : List Command) : (s.onPort c rest).port = c.agent := rfl
@[simp] theorem onPort_cw (s : State) (c : Command) (rest : List Command) : (s.onPort c rest).cw = c.cw := rfl
@[simp] theorem onPort_resp (s : State) (c : Command) (rest : List Command) : (s.onPort c rest).resp = s.resp := rfl

/-! ### resetWith -/

@[simp] theorem resetWith_buf0 (p : Params) : (State.resetWith p).buf0 = [] := rfl
@[simp] theorem resetWith_buf1 (p : Params) : (State.resetWith p).buf1 = [] := rfl
@[simp] theorem resetWith_active (p : Params) : (State.resetWith p).active = .b0 := rfl
@[simp] theorem resetWith_remaining (p : Params) : (State.resetWith p).remaining = p.bufCap := rfl
@[simp] theorem resetWith_pending (p : Params) : (State.resetWith p).pending = false := rfl
@[simp] theorem resetWith_readyIdx (p : Params) : (State.resetWith p).readyIdx = .b0 := rfl
@[simp] theorem resetWith_readyLen (p : Params) : (State.resetWith p).readyLen = 0 := rfl
@[simp] theorem resetWith_signal (p : Params) : (State.resetWith p).signal = false := rfl
@[simp] theorem resetWith_snapRemaining (p : Params) : (State.resetWith p).snapRemaining = p.bufCap := rfl
@[simp] theorem resetWith_fullSinceCheck (p : Params) : (State.resetWith p).fullSinceCheck = false := rfl
@[simp] theorem resetWith_overrunCount (p : Params) : (State.resetWith p).overrunCount = 0 := rfl
@[simp] theorem resetWith_started (p : Params) : (State.resetWith p).started = false := rfl
@[simp] theorem resetWith_protoSel (p : Params) : (State.resetWith p).protoSel = .motor := rfl
@[simp] theorem resetWith_decP (p : Params) : (State.resetWith p).decP = [] := rfl
@[simp] theorem resetWith_decMode (p : Params) : (State.resetWith p).decMode = .normal := rfl
@[simp] theorem resetWith_latchVal (p : Params) : (State.resetWith p).latchVal = [] := rfl
@[simp] theorem resetWith_latchStage (p : Params) : (State.resetWith p).latchStage = [] := rfl
@[simp] theorem resetWith_latchTxn (p : Params) : (State.resetWith p).latchTxn = false := rfl
@[simp] theorem resetWith_latchTs (p : Params) : (State.resetWith p).latchTs = 0 := rfl
@[simp] theorem resetWith_latchHasData (p : Params) : (State.resetWith p).latchHasData = false := rfl
@[simp] theorem resetWith_latchPresent (p : Params) : (State.resetWith p).latchPresent = false := rfl
@[simp] theorem resetWith_faultCode (p : Params) : (State.resetWith p).faultCode = 0 := rfl
@[simp] theorem resetWith_params (p : Params) : (State.resetWith p).params = p := rfl
@[simp] theorem resetWith_cmds (p : Params) : (State.resetWith p).cmds = [] := rfl
@[simp] theorem resetWith_port (p : Params) : (State.resetWith p).port = .wrk := rfl
@[simp] theorem resetWith_cw (p : Params) : (State.resetWith p).cw = 0 := rfl
@[simp] theorem resetWith_resp (p : Params) : (State.resetWith p).resp = .nothing := rfl

/-! ### answer -/

@[simp] theorem answer_buf0 (r : Response) (s : State) : (s.answer r).buf0 = s.buf0 := rfl
@[simp] theorem answer_buf1 (r : Response) (s : State) : (s.answer r).buf1 = s.buf1 := rfl
@[simp] theorem answer_active (r : Response) (s : State) : (s.answer r).active = s.active := rfl
@[simp] theorem answer_remaining (r : Response) (s : State) : (s.answer r).remaining = s.remaining := rfl
@[simp] theorem answer_pending (r : Response) (s : State) : (s.answer r).pending = s.pending := rfl
@[simp] theorem answer_readyIdx (r : Response) (s : State) : (s.answer r).readyIdx = s.readyIdx := rfl
@[simp] theorem answer_readyLen (r : Response) (s : State) : (s.answer r).readyLen = s.readyLen := rfl
@[simp] theorem answer_signal (r : Response) (s : State) : (s.answer r).signal = s.signal := rfl
@[simp] theorem answer_snapRemaining (r : Response) (s : State) : (s.answer r).snapRemaining = s.snapRemaining := rfl
@[simp] theorem answer_fullSinceCheck (r : Response) (s : State) : (s.answer r).fullSinceCheck = s.fullSinceCheck := rfl
@[simp] theorem answer_overrunCount (r : Response) (s : State) : (s.answer r).overrunCount = s.overrunCount := rfl
@[simp] theorem answer_started (r : Response) (s : State) : (s.answer r).started = s.started := rfl
@[simp] theorem answer_protoSel (r : Response) (s : State) : (s.answer r).protoSel = s.protoSel := rfl
@[simp] theorem answer_decP (r : Response) (s : State) : (s.answer r).decP = s.decP := rfl
@[simp] theorem answer_decMode (r : Response) (s : State) : (s.answer r).decMode = s.decMode := rfl
@[simp] theorem answer_latchVal (r : Response) (s : State) : (s.answer r).latchVal = s.latchVal := rfl
@[simp] theorem answer_latchStage (r : Response) (s : State) : (s.answer r).latchStage = s.latchStage := rfl
@[simp] theorem answer_latchTxn (r : Response) (s : State) : (s.answer r).latchTxn = s.latchTxn := rfl
@[simp] theorem answer_latchTs (r : Response) (s : State) : (s.answer r).latchTs = s.latchTs := rfl
@[simp] theorem answer_latchHasData (r : Response) (s : State) : (s.answer r).latchHasData = s.latchHasData := rfl
@[simp] theorem answer_latchPresent (r : Response) (s : State) : (s.answer r).latchPresent = s.latchPresent := rfl
@[simp] theorem answer_faultCode (r : Response) (s : State) : (s.answer r).faultCode = s.faultCode := rfl
@[simp] theorem answer_params (r : Response) (s : State) : (s.answer r).params = s.params := rfl
@[simp] theorem answer_cmds (r : Response) (s : State) : (s.answer r).cmds = s.cmds := rfl
@[simp] theorem answer_port (r : Response) (s : State) : (s.answer r).port = s.port := rfl
@[simp] theorem answer_cw (r : Response) (s : State) : (s.answer r).cw = s.cw := rfl
@[simp] theorem answer_resp (r : Response) (s : State) : (s.answer r).resp = r := rfl

/-! ### markFull -/

@[simp] theorem markFull_buf0 (s : State) : (markFull s).buf0 = s.buf0 := rfl
@[simp] theorem markFull_buf1 (s : State) : (markFull s).buf1 = s.buf1 := rfl
@[simp] theorem markFull_active (s : State) : (markFull s).active = s.active := rfl
@[simp] theorem markFull_remaining (s : State) : (markFull s).remaining = s.remaining := rfl
@[simp] theorem markFull_pending (s : State) : (markFull s).pending = s.pending := rfl
@[simp] theorem markFull_readyIdx (s : State) : (markFull s).readyIdx = s.readyIdx := rfl
@[simp] theorem markFull_readyLen (s : State) : (markFull s).readyLen = s.readyLen := rfl
@[simp] theorem markFull_signal (s : State) : (markFull s).signal = s.signal := rfl
@[simp] theorem markFull_snapRemaining (s : State) : (markFull s).snapRemaining = s.snapRemaining := rfl
@[simp] theorem markFull_fullSinceCheck (s : State) : (markFull s).fullSinceCheck = true := rfl
@[simp] theorem markFull_overrunCount (s : State) : (markFull s).overrunCount = s.overrunCount := rfl
@[simp] theorem markFull_started (s : State) : (markFull s).started = s.started := rfl
@[simp] theorem markFull_protoSel (s : State) : (markFull s).protoSel = s.protoSel := rfl
@[simp] theorem markFull_decP (s : State) : (markFull s).decP = s.decP := rfl
@[simp] theorem markFull_decMode (s : State) : (markFull s).decMode = s.decMode := rfl
@[simp] theorem markFull_latchVal (s : State) : (markFull s).latchVal = s.latchVal := rfl
@[simp] theorem markFull_latchStage (s : State) : (markFull s).latchStage = s.latchStage := rfl
@[simp] theorem markFull_latchTxn (s : State) : (markFull s).latchTxn = s.latchTxn := rfl
@[simp] theorem markFull_latchTs (s : State) : (markFull s).latchTs = s.latchTs := rfl
@[simp] theorem markFull_latchHasData (s : State) : (markFull s).latchHasData = s.latchHasData := rfl
@[simp] theorem markFull_latchPresent (s : State) : (markFull s).latchPresent = s.latchPresent := rfl
@[simp] theorem markFull_faultCode (s : State) : (markFull s).faultCode = s.faultCode := rfl
@[simp] theorem markFull_params (s : State) : (markFull s).params = s.params := rfl
@[simp] theorem markFull_cmds (s : State) : (markFull s).cmds = s.cmds := rfl
@[simp] theorem markFull_port (s : State) : (markFull s).port = s.port := rfl
@[simp] theorem markFull_cw (s : State) : (markFull s).cw = s.cw := rfl
@[simp] theorem markFull_resp (s : State) : (markFull s).resp = s.resp := rfl

/-! ### raiseSignal -/

@[simp] theorem raiseSignal_buf0 (s : State) : (raiseSignal s).buf0 = s.buf0 := rfl
@[simp] theorem raiseSignal_buf1 (s : State) : (raiseSignal s).buf1 = s.buf1 := rfl
@[simp] theorem raiseSignal_active (s : State) : (raiseSignal s).active = s.active := rfl
@[simp] theorem raiseSignal_remaining (s : State) : (raiseSignal s).remaining = s.remaining := rfl
@[simp] theorem raiseSignal_pending (s : State) : (raiseSignal s).pending = s.pending := rfl
@[simp] theorem raiseSignal_readyIdx (s : State) : (raiseSignal s).readyIdx = s.readyIdx := rfl
@[simp] theorem raiseSignal_readyLen (s : State) : (raiseSignal s).readyLen = s.readyLen := rfl
@[simp] theorem raiseSignal_signal (s : State) : (raiseSignal s).signal = true := rfl
@[simp] theorem raiseSignal_snapRemaining (s : State) : (raiseSignal s).snapRemaining = s.snapRemaining := rfl
@[simp] theorem raiseSignal_fullSinceCheck (s : State) : (raiseSignal s).fullSinceCheck = s.fullSinceCheck := rfl
@[simp] theorem raiseSignal_overrunCount (s : State) : (raiseSignal s).overrunCount = s.overrunCount := rfl
@[simp] theorem raiseSignal_started (s : State) : (raiseSignal s).started = s.started := rfl
@[simp] theorem raiseSignal_protoSel (s : State) : (raiseSignal s).protoSel = s.protoSel := rfl
@[simp] theorem raiseSignal_decP (s : State) : (raiseSignal s).decP = s.decP := rfl
@[simp] theorem raiseSignal_decMode (s : State) : (raiseSignal s).decMode = s.decMode := rfl
@[simp] theorem raiseSignal_latchVal (s : State) : (raiseSignal s).latchVal = s.latchVal := rfl
@[simp] theorem raiseSignal_latchStage (s : State) : (raiseSignal s).latchStage = s.latchStage := rfl
@[simp] theorem raiseSignal_latchTxn (s : State) : (raiseSignal s).latchTxn = s.latchTxn := rfl
@[simp] theorem raiseSignal_latchTs (s : State) : (raiseSignal s).latchTs = s.latchTs := rfl
@[simp] theorem raiseSignal_latchHasData (s : State) : (raiseSignal s).latchHasData = s.latchHasData := rfl
@[simp] theorem raiseSignal_latchPresent (s : State) : (raiseSignal s).latchPresent = s.latchPresent := rfl
@[simp] theorem raiseSignal_faultCode (s : State) : (raiseSignal s).faultCode = s.faultCode := rfl
@[simp] theorem raiseSignal_params (s : State) : (raiseSignal s).params = s.params := rfl
@[simp] theorem raiseSignal_cmds (s : State) : (raiseSignal s).cmds = s.cmds := rfl
@[simp] theorem raiseSignal_port (s : State) : (raiseSignal s).port = s.port := rfl
@[simp] theorem raiseSignal_cw (s : State) : (raiseSignal s).cw = s.cw := rfl
@[simp] theorem raiseSignal_resp (s : State) : (raiseSignal s).resp = s.resp := rfl

/-! ### setBuf -/

@[simp] theorem setBuf_active (s : State) (k : BufId) (m : Memory) : (s.setBuf k m).active = s.active := by cases k <;> rfl
@[simp] theorem setBuf_remaining (s : State) (k : BufId) (m : Memory) : (s.setBuf k m).remaining = s.remaining := by cases k <;> rfl
@[simp] theorem setBuf_pending (s : State) (k : BufId) (m : Memory) : (s.setBuf k m).pending = s.pending := by cases k <;> rfl
@[simp] theorem setBuf_readyIdx (s : State) (k : BufId) (m : Memory) : (s.setBuf k m).readyIdx = s.readyIdx := by cases k <;> rfl
@[simp] theorem setBuf_readyLen (s : State) (k : BufId) (m : Memory) : (s.setBuf k m).readyLen = s.readyLen := by cases k <;> rfl
@[simp] theorem setBuf_signal (s : State) (k : BufId) (m : Memory) : (s.setBuf k m).signal = s.signal := by cases k <;> rfl
@[simp] theorem setBuf_snapRemaining (s : State) (k : BufId) (m : Memory) : (s.setBuf k m).snapRemaining = s.snapRemaining := by cases k <;> rfl
@[simp] theorem setBuf_fullSinceCheck (s : State) (k : BufId) (m : Memory) : (s.setBuf k m).fullSinceCheck = s.fullSinceCheck := by cases k <;> rfl
@[simp] theorem setBuf_overrunCount (s : State) (k : BufId) (m : Memory) : (s.setBuf k m).overrunCount = s.overrunCount := by cases k <;> rfl
@[simp] theorem setBuf_started (s : State) (k : BufId) (m : Memory) : (s.setBuf k m).started = s.started := by cases k <;> rfl
@[simp] theorem setBuf_protoSel (s : State) (k : BufId) (m : Memory) : (s.setBuf k m).protoSel = s.protoSel := by cases k <;> rfl
@[simp] theorem setBuf_decP (s : State) (k : BufId) (m : Memory) : (s.setBuf k m).decP = s.decP := by cases k <;> rfl
@[simp] theorem setBuf_decMode (s : State) (k : BufId) (m : Memory) : (s.setBuf k m).decMode = s.decMode := by cases k <;> rfl
@[simp] theorem setBuf_latchVal (s : State) (k : BufId) (m : Memory) : (s.setBuf k m).latchVal = s.latchVal := by cases k <;> rfl
@[simp] theorem setBuf_latchStage (s : State) (k : BufId) (m : Memory) : (s.setBuf k m).latchStage = s.latchStage := by cases k <;> rfl
@[simp] theorem setBuf_latchTxn (s : State) (k : BufId) (m : Memory) : (s.setBuf k m).latchTxn = s.latchTxn := by cases k <;> rfl
@[simp] theorem setBuf_latchTs (s : State) (k : BufId) (m : Memory) : (s.setBuf k m).latchTs = s.latchTs := by cases k <;> rfl
@[simp] theorem setBuf_latchHasData (s : State) (k : BufId) (m : Memory) : (s.setBuf k m).latchHasData = s.latchHasData := by cases k <;> rfl
@[simp] theorem setBuf_latchPresent (s : State) (k : BufId) (m : Memory) : (s.setBuf k m).latchPresent = s.latchPresent := by cases k <;> rfl
@[simp] theorem setBuf_faultCode (s : State) (k : BufId) (m : Memory) : (s.setBuf k m).faultCode = s.faultCode := by cases k <;> rfl
@[simp] theorem setBuf_params (s : State) (k : BufId) (m : Memory) : (s.setBuf k m).params = s.params := by cases k <;> rfl
@[simp] theorem setBuf_cmds (s : State) (k : BufId) (m : Memory) : (s.setBuf k m).cmds = s.cmds := by cases k <;> rfl
@[simp] theorem setBuf_port (s : State) (k : BufId) (m : Memory) : (s.setBuf k m).port = s.port := by cases k <;> rfl
@[simp] theorem setBuf_cw (s : State) (k : BufId) (m : Memory) : (s.setBuf k m).cw = s.cw := by cases k <;> rfl
@[simp] theorem setBuf_resp (s : State) (k : BufId) (m : Memory) : (s.setBuf k m).resp = s.resp := by cases k <;> rfl

/-! ### storeByte -/

@[simp] theorem storeByte_active (b : Byte) (s : State) : (storeByte b s).active = s.active := setBuf_active s s.active _
@[simp] theorem storeByte_remaining (b : Byte) (s : State) : (storeByte b s).remaining = s.remaining - 1 := rfl
@[simp] theorem storeByte_pending (b : Byte) (s : State) : (storeByte b s).pending = s.pending := setBuf_pending s s.active _
@[simp] theorem storeByte_readyIdx (b : Byte) (s : State) : (storeByte b s).readyIdx = s.readyIdx := setBuf_readyIdx s s.active _
@[simp] theorem storeByte_readyLen (b : Byte) (s : State) : (storeByte b s).readyLen = s.readyLen := setBuf_readyLen s s.active _
@[simp] theorem storeByte_signal (b : Byte) (s : State) : (storeByte b s).signal = s.signal := setBuf_signal s s.active _
@[simp] theorem storeByte_snapRemaining (b : Byte) (s : State) : (storeByte b s).snapRemaining = s.snapRemaining := setBuf_snapRemaining s s.active _
@[simp] theorem storeByte_fullSinceCheck (b : Byte) (s : State) : (storeByte b s).fullSinceCheck = s.fullSinceCheck := setBuf_fullSinceCheck s s.active _
@[simp] theorem storeByte_overrunCount (b : Byte) (s : State) : (storeByte b s).overrunCount = s.overrunCount := setBuf_overrunCount s s.active _
@[simp] theorem storeByte_started (b : Byte) (s : State) : (storeByte b s).started = s.started := setBuf_started s s.active _
@[simp] theorem storeByte_protoSel (b : Byte) (s : State) : (storeByte b s).protoSel = s.protoSel := setBuf_protoSel s s.active _
@[simp] theorem storeByte_decP (b : Byte) (s : State) : (storeByte b s).decP = s.decP := setBuf_decP s s.active _
@[simp] theorem storeByte_decMode (b : Byte) (s : State) : (storeByte b s).decMode = s.decMode := setBuf_decMode s s.active _
@[simp] theorem storeByte_latchVal (b : Byte) (s : State) : (storeByte b s).latchVal = s.latchVal := setBuf_latchVal s s.active _
@[simp] theorem storeByte_latchStage (b : Byte) (s : State) : (storeByte b s).latchStage = s.latchStage := setBuf_latchStage s s.active _
@[simp] theorem storeByte_latchTxn (b : Byte) (s : State) : (storeByte b s).latchTxn = s.latchTxn := setBuf_latchTxn s s.active _
@[simp] theorem storeByte_latchTs (b : Byte) (s : State) : (storeByte b s).latchTs = s.latchTs := setBuf_latchTs s s.active _
@[simp] theorem storeByte_latchHasData (b : Byte) (s : State) : (storeByte b s).latchHasData = s.latchHasData := setBuf_latchHasData s s.active _
@[simp] theorem storeByte_latchPresent (b : Byte) (s : State) : (storeByte b s).latchPresent = s.latchPresent := setBuf_latchPresent s s.active _
@[simp] theorem storeByte_faultCode (b : Byte) (s : State) : (storeByte b s).faultCode = s.faultCode := setBuf_faultCode s s.active _
@[simp] theorem storeByte_params (b : Byte) (s : State) : (storeByte b s).params = s.params := setBuf_params s s.active _
@[simp] theorem storeByte_cmds (b : Byte) (s : State) : (storeByte b s).cmds = s.cmds := setBuf_cmds s s.active _
@[simp] theorem storeByte_port (b : Byte) (s : State) : (storeByte b s).port = s.port := setBuf_port s s.active _
@[simp] theorem storeByte_cw (b : Byte) (s : State) : (storeByte b s).cw = s.cw := setBuf_cw s s.active _
@[simp] theorem storeByte_resp (b : Byte) (s : State) : (storeByte b s).resp = s.resp := setBuf_resp s s.active _

/-! ### Derived views -/

@[simp] theorem dec_setDec (c : DecState) (s : State) : (s.setDec c).dec = c := rfl

@[simp] theorem dec_eq_mk (s : State) : s.dec = { pend := s.decP, mode := s.decMode } := rfl

@[simp] theorem fill_setBuf (s : State) (k : BufId) (m : Memory) : (s.setBuf k m).fill = s.fill := by
  cases k <;> rfl

@[simp] theorem fill_handoff (s : State) : (handoff s).fill = 0 := by simp [State.fill]

@[simp] theorem fill_overrun (s : State) : (overrun s).fill = 0 := by simp [State.fill]

@[simp] theorem fill_resetWith (p : Params) : (State.resetWith p).fill = 0 := by simp [State.fill]

@[simp] theorem buf_handoff (s : State) (k : BufId) : (handoff s).buf k = s.buf k := by cases k <;> rfl

@[simp] theorem buf_overrun (s : State) (k : BufId) : (overrun s).buf k = s.buf k := by cases k <;> rfl

@[simp] theorem cell_handoff (s : State) (k : BufId) (i : Nat) : (handoff s).cell k i = s.cell k i := by
  simp [State.cell]

@[simp] theorem cell_overrun (s : State) (k : BufId) (i : Nat) : (overrun s).cell k i = s.cell k i := by
  simp [State.cell]

@[simp] theorem buf_answer (r : Response) (s : State) (k : BufId) : (s.answer r).buf k = s.buf k := by cases k <;> rfl

@[simp] theorem cell_answer (r : Response) (s : State) (k : BufId) (i : Nat) : (s.answer r).cell k i = s.cell k i := by
  simp [State.cell]

@[simp] theorem fill_answer (r : Response) (s : State) : (s.answer r).fill = s.fill := rfl

@[simp] theorem buf_markFull (s : State) (k : BufId) : (markFull s).buf k = s.buf k := by cases k <;> rfl

@[simp] theorem cell_markFull (s : State) (k : BufId) (i : Nat) : (markFull s).cell k i = s.cell k i := by
  simp [State.cell]

@[simp] theorem fill_markFull (s : State) : (markFull s).fill = s.fill := rfl

@[simp] theorem buf_raiseSignal (s : State) (k : BufId) : (raiseSignal s).buf k = s.buf k := by cases k <;> rfl

@[simp] theorem cell_raiseSignal (s : State) (k : BufId) (i : Nat) : (raiseSignal s).cell k i = s.cell k i := by
  simp [State.cell]

@[simp] theorem fill_raiseSignal (s : State) : (raiseSignal s).fill = s.fill := rfl

@[simp] theorem buf_takeFault (u : UsageFault) (s : State) (k : BufId) : (s.takeFault u).buf k = s.buf k := by cases k <;> rfl

@[simp] theorem cell_takeFault (u : UsageFault) (s : State) (k : BufId) (i : Nat) : (s.takeFault u).cell k i = s.cell k i := by
  simp [State.cell]

@[simp] theorem fill_takeFault (u : UsageFault) (s : State) : (s.takeFault u).fill = s.fill := rfl

@[simp] theorem buf_setDec (c : DecState) (s : State) (k : BufId) : (s.setDec c).buf k = s.buf k := by cases k <;> rfl

@[simp] theorem cell_setDec (c : DecState) (s : State) (k : BufId) (i : Nat) : (s.setDec c).cell k i = s.cell k i := by
  simp [State.cell]

@[simp] theorem fill_setDec (c : DecState) (s : State) : (s.setDec c).fill = s.fill := rfl

@[simp] theorem buf_onPort (s : State) (c : Command) (rest : List Command) (k : BufId) : (s.onPort c rest).buf k = s.buf k := by cases k <;> rfl

@[simp] theorem cell_onPort (s : State) (c : Command) (rest : List Command) (k : BufId) (i : Nat) : (s.onPort c rest).cell k i = s.cell k i := by
  simp [State.cell]

@[simp] theorem fill_onPort (s : State) (c : Command) (rest : List Command) : (s.onPort c rest).fill = s.fill := rfl

@[simp] theorem other_other (k : BufId) : k.other.other = k := by cases k <;> rfl

@[simp] theorem other_ne (k : BufId) : k.other ≠ k := by cases k <;> decide

@[simp] theorem ne_other (k : BufId) : k ≠ k.other := by cases k <;> decide

theorem eq_other_iff_ne (k j : BufId) : k = j.other ↔ k ≠ j := by cases k <;> cases j <;> decide

@[simp] theorem buf_setBuf_same (s : State) (k : BufId) (m : Memory) : (s.setBuf k m).buf k = m := by
  cases k <;> rfl

theorem buf_setBuf_ne (s : State) {k j : BufId} (h : j ≠ k) (m : Memory) : (s.setBuf k m).buf j = s.buf j := by
  cases k <;> cases j <;> first | rfl | exact absurd rfl h

end Sys2Proof.Machine
end

