-- ==== Sys2Proof/Laws/Store.lean ====
section
/-!
SUPPORT. The laws of a store: read after write, and that a write keeps the canonical form and a bound on the
indexes. Then the same for the two receive buffers, which only `storeByte` writes.
-/

namespace Sys2Proof.Machine

variable {β : Type}

@[simp] theorem read_nil (k : Nat) : Store.read ([] : Store β) k = none := rfl

theorem read_cons (j k : Nat) (v : β) (rest : Store β) :
    Store.read ((j, v) :: rest) k = if j = k then some v else Store.read rest k := rfl

@[simp] theorem read_write_same (m : Store β) (k : Nat) (v : β) : Store.read (Store.write m k v) k = some v := by
  induction m with
  | nil => simp [Store.write, Store.read]
  | cons e rest ih =>
    obtain ⟨j, u⟩ := e
    simp only [Store.write]
    split
    · simp [Store.read]
    · split
      · simp [Store.read]
      · rename_i h1 h2
        rw [read_cons, if_neg fun h => h2 h.symm]
        exact ih

theorem read_write_ne (m : Store β) {k j : Nat} (h : j ≠ k) (v : β) :
    Store.read (Store.write m k v) j = Store.read m j := by
  induction m with
  | nil => simp [Store.write, Store.read, Ne.symm h]
  | cons e rest ih =>
    obtain ⟨i, u⟩ := e
    simp only [Store.write]
    split
    · simp [read_cons, Ne.symm h]
    · split
      · rename_i h1 h2
        subst h2
        simp [read_cons, Ne.symm h]
      · simp [read_cons, ih]

theorem read_write (m : Store β) (k j : Nat) (v : β) :
    Store.read (Store.write m k v) j = if j = k then some v else Store.read m j := by
  split
  · rename_i h
    simp [h]
  · rename_i h
    exact read_write_ne m h v

theorem write_fst_mem (m : Store β) (k : Nat) (v : β) {e : Nat × β} (h : e ∈ Store.write m k v) :
    e.1 = k ∨ e ∈ m := by
  induction m with
  | nil => simp [Store.write] at h; simp [h]
  | cons x rest ih =>
    obtain ⟨j, u⟩ := x
    simp only [Store.write] at h
    split at h
    · rcases List.mem_cons.1 h with h | h
      · simp [h]
      · exact .inr h
    · split at h
      · rcases List.mem_cons.1 h with h | h
        · simp [h]
        · exact .inr (List.mem_cons_of_mem _ h)
      · rcases List.mem_cons.1 h with h | h
        · simp [h]
        · rcases ih h with h | h
          · exact .inl h
          · exact .inr (List.mem_cons_of_mem _ h)

/-- A write keeps the canonical form. -/
theorem write_wf (m : Store β) (k : Nat) (v : β) (h : Store.wf m) : Store.wf (Store.write m k v) := by
  induction m with
  | nil => exact List.pairwise_singleton _ _
  | cons x rest ih =>
    obtain ⟨j, u⟩ := x
    simp only [Store.wf, List.map_cons, List.pairwise_cons] at h ih ⊢
    simp only [Store.write]
    split
    · rename_i hk
      simp only [List.map_cons, List.pairwise_cons]
      refine ⟨?_, h⟩
      intro i hi
      rcases List.mem_cons.1 hi with hi | hi
      · omega
      · have := h.1 i hi
        omega
    · split
      · rename_i hk he
        subst he
        simpa only [List.map_cons, List.pairwise_cons] using h
      · rename_i hk he
        simp only [List.map_cons, List.pairwise_cons]
        refine ⟨?_, ih h.2⟩
        intro i hi
        obtain ⟨e, he', rfl⟩ := List.mem_map.1 hi
        rcases write_fst_mem rest k v he' with hh | hh
        · omega
        · exact h.1 _ (List.mem_map_of_mem hh)

theorem write_below (m : Store β) {k n : Nat} (v : β) (hk : k < n) (h : Store.below m n) :
    Store.below (Store.write m k v) n := by
  intro e he
  rcases write_fst_mem m k v he with he | he
  · omega
  · exact h e he

/-- An index at or above the bound reads as `⊥`. -/
theorem read_below (m : Store β) {n k : Nat} (h : Store.below m n) (hk : n ≤ k) : Store.read m k = none := by
  induction m with
  | nil => rfl
  | cons x rest ih =>
    obtain ⟨j, u⟩ := x
    have hj : j < n := h (j, u) (by simp)
    rw [read_cons, if_neg (by omega)]
    exact ih fun e he => h e (List.mem_cons_of_mem _ he)

/-- Equal reads, equal stores: the canonical form has one value for each content. -/
theorem wf_ext (m m' : Store β) (h : Store.wf m) (h' : Store.wf m')
    (hr : ∀ k, Store.read m k = Store.read m' k) : m = m' := by
  have low : ∀ (l : Store β) (j k : Nat) (u : β), Store.wf ((j, u) :: l) → k ≤ j → Store.read l k = none := by
    intro l j k u hw hk
    induction l with
    | nil => rfl
    | cons x rest ih =>
      obtain ⟨i, w⟩ := x
      simp only [Store.wf, List.map_cons, List.pairwise_cons, List.mem_cons] at hw
      have hi : j < i := hw.1 i (.inl rfl)
      rw [read_cons, if_neg (by omega)]
      apply ih
      simp only [Store.wf, List.map_cons, List.pairwise_cons]
      exact ⟨fun a ha => hw.1 a (.inr ha), hw.2.2⟩
  induction m generalizing m' with
  | nil =>
    cases m' with
    | nil => rfl
    | cons x rest =>
      obtain ⟨j, u⟩ := x
      have := hr j
      simp [read_cons] at this
  | cons x rest ih =>
    obtain ⟨j, u⟩ := x
    cases m' with
    | nil =>
      have := hr j
      simp [read_cons] at this
    | cons x' rest' =>
      obtain ⟨j', u'⟩ := x'
      have hjj : j = j' := by
        rcases Nat.lt_trichotomy j j' with hlt | heq | hgt
        · have := hr j
          rw [read_cons, if_pos rfl, read_cons, if_neg (by omega), low rest' j' j u' h' (by omega)] at this
          cases this
        · exact heq
        · have := hr j'
          rw [read_cons, if_neg (by omega), read_cons, if_pos rfl, low rest j j' u h (by omega)] at this
          cases this
      subst hjj
      have huu : u = u' := by
        have := hr j
        simpa [read_cons] using this
      subst huu
      have hw : Store.wf rest := by
        simp only [Store.wf, List.map_cons, List.pairwise_cons] at h
        exact h.2
      have hw' : Store.wf rest' := by
        simp only [Store.wf, List.map_cons, List.pairwise_cons] at h'
        exact h'.2
      have hrest : rest = rest' := by
        apply ih rest' hw hw'
        intro k
        by_cases hk : j = k
        · subst hk
          rw [low rest j j u h (by omega), low rest' j j u h' (by omega)]
        · have := hr k
          rwa [read_cons, if_neg hk, read_cons, if_neg hk] at this
      rw [hrest]

/-! ### Cells -/

theorem cell_setBuf_same (s : State) (k : BufId) (m : Memory) (i : Nat) :
    (s.setBuf k m).cell k i = Store.read m i := by
  simp [State.cell]

theorem buf_storeByte_active (b : Byte) (s : State) :
    (storeByte b s).buf s.active = Store.write (s.buf s.active) s.fill.toNat b := by
  have h : ∀ (t : State) (k : BufId) (r : Half), State.buf { t with remaining := r } k = t.buf k := by
    intro t k r
    cases k <;> rfl
  rw [storeByte, h, buf_setBuf_same]

theorem buf_storeByte_ne (b : Byte) (s : State) {k : BufId} (hk : k ≠ s.active) :
    (storeByte b s).buf k = s.buf k := by
  have h : ∀ (t : State) (k : BufId) (r : Half), State.buf { t with remaining := r } k = t.buf k := by
    intro t k r
    cases k <;> rfl
  rw [storeByte, h, buf_setBuf_ne s hk]

/-- RX_BYTE's store: the one cell `BUF[ACTIVE][FILL]` takes the byte, every other cell of both buffers keeps its
value (R61, R151). -/
theorem cell_storeByte (b : Byte) (s : State) (k : BufId) (i : Nat) :
    (storeByte b s).cell k i = if k = s.active ∧ i = s.fill.toNat then some b else s.cell k i := by
  by_cases hk : k = s.active
  · subst hk
    rw [State.cell, buf_storeByte_active, read_write]
    simp [State.cell]
  · rw [State.cell, buf_storeByte_ne b s hk]
    simp [hk, State.cell]

/-- Every memory operation keeps the canonical form: `storeByte` is the only one. -/
theorem storeByte_wf (b : Byte) (s : State) (h0 : Memory.wf s.buf0) (h1 : Memory.wf s.buf1) (k : BufId) :
    Memory.wf ((storeByte b s).buf k) := by
  have hb : ∀ j, Memory.wf (s.buf j) := by
    intro j
    cases j
    · exact h0
    · exact h1
  by_cases hk : k = s.active
  · subst hk
    rw [buf_storeByte_active]
    exact write_wf _ _ _ (hb _)
  · rw [buf_storeByte_ne b s hk]
    exact hb k

theorem reset_memory_wf (p : Params) (k : BufId) : Memory.wf ((State.resetWith p).buf k) := by
  cases k <;> exact List.Pairwise.nil

end Sys2Proof.Machine
end

