-- ==== Sys2Proof/Laws/Ops.lean ====
section
/-!
SUPPORT. One lemma for each shared operation that says once everything it can do.
-/

namespace Sys2Proof.Machine

/-- `complete` always answers a next state: the given state with the result. -/
theorem complete_eq (r : Response) (s : State) : complete r s = .next (s.answer r) := rfl

/-- `raise` always answers a next state: R262's. -/
theorem raise_eq (u : UsageFault) (s : State) : raise u s = .next (s.takeFault u) := rfl

@[simp] theorem require_true (u : UsageFault) (s : State) (k : Result) : require true u s k = k := rfl

@[simp] theorem require_false (u : UsageFault) (s : State) (k : Result) :
    require false u s k = .next (s.takeFault u) := rfl

/-- A check answers the rest of the rule where it holds, and raises its fault where it does not. -/
theorem require_cases {c : Bool} {u : UsageFault} {s : State} {k r : Result} (h : require c u s k = r) :
    (c = true ∧ k = r) ∨ (c = false ∧ r = .next (s.takeFault u)) := by
  cases c
  · exact .inr ⟨rfl, h.symm⟩
  · exact .inl ⟨rfl, h⟩

/-- `receiver_event()` does nothing, overruns, or hands off (R153). -/
theorem receiverEvent_cases (s : State) :
    (s.remaining = s.params.bufCap ∧ receiverEvent s = s) ∨
    (s.remaining ≠ s.params.bufCap ∧ s.pending = true ∧
      receiverEvent s = markFull (overrun s)) ∨
    (s.remaining ≠ s.params.bufCap ∧ s.pending = false ∧
      receiverEvent s = markFull (raiseSignal (handoff s))) := by
  by_cases h : s.remaining = s.params.bufCap
  · exact .inl ⟨h, by simp [receiverEvent, h]⟩
  · cases hp : s.pending
    · exact .inr (.inr ⟨h, rfl, by simp [receiverEvent, h, hp]⟩)
    · exact .inr (.inl ⟨h, rfl, by simp [receiverEvent, h, hp]⟩)

@[simp] theorem cell_receiverEvent (s : State) (k : BufId) (i : Nat) : (receiverEvent s).cell k i = s.cell k i := by
  rcases receiverEvent_cases s with ⟨-, h⟩ | ⟨-, -, h⟩ | ⟨-, -, h⟩ <;> simp [h]

/-- RX_BYTE's body: it stops without a free cell, and else stores the byte, with the full event when the buffer is
full (R151, R152). -/
theorem receiveByte_cases (b : Byte) (s : State) :
    ((s.remaining = 0 ∨ s.params.bufCap < s.remaining) ∧ receiveByte b s = .fault .noSuchCell) ∨
    (s.remaining ≠ 0 ∧ s.remaining ≤ s.params.bufCap ∧ s.remaining ≠ 1 ∧
      receiveByte b s = .next ((storeByte b s).answer .done)) ∨
    (s.remaining ≠ 0 ∧ s.remaining ≤ s.params.bufCap ∧ s.remaining = 1 ∧
      receiveByte b s = .next ((receiverEvent (storeByte b s)).answer .done)) := by
  by_cases h : s.remaining = 0 ∨ s.params.bufCap < s.remaining
  · exact .inl ⟨h, by simp only [receiveByte, if_pos h]⟩
  · have h0 : s.remaining ≠ 0 := fun e => h (.inl e)
    have h1 : s.remaining ≤ s.params.bufCap := BitVec.not_lt.1 fun e => h (.inr e)
    by_cases h2 : s.remaining = 1
    · refine .inr (.inr ⟨h0, h1, h2, ?_⟩)
      have h3 : s.remaining - 1 = 0 := by rw [h2]; rfl
      rw [receiveByte, if_neg h, storeByte_remaining, if_pos h3, complete]
    · have h3 : s.remaining - 1 ≠ 0 := fun e => h2 (by bv_omega)
      refine .inr (.inl ⟨h0, h1, h2, ?_⟩)
      rw [receiveByte, if_neg h, storeByte_remaining, if_neg h3, complete]

/-- READ_BUF's read: it stops at an index that is no cell and at a `⊥` cell, and else returns the byte. -/
theorem readCell_cases (n : Half) (s : State) :
    (s.params.bufCap ≤ n ∧ readCell n s = .fault .noSuchCell) ∨
    (n < s.params.bufCap ∧ s.cell s.readyIdx n.toNat = none ∧ readCell n s = .fault .unwrittenCell) ∨
    (∃ b, n < s.params.bufCap ∧ s.cell s.readyIdx n.toNat = some b ∧
      readCell n s = .next (s.answer (.byte b))) := by
  by_cases h : s.params.bufCap ≤ n
  · exact .inl ⟨h, by simp [readCell, h]⟩
  · have h' : n < s.params.bufCap := BitVec.not_le.1 h
    cases hc : s.cell s.readyIdx n.toNat with
    | none => exact .inr (.inl ⟨h', rfl, by simp [readCell, h, hc]⟩)
    | some b => exact .inr (.inr ⟨b, h', rfl, by simp [readCell, h, hc, complete]⟩)

/-- With no command issued there is none to take. -/
theorem takeCommand_nil {s : State} (h : s.cmds = []) : takeCommand s = none := by
  simp [takeCommand, h]

/-- The oldest command goes on the port and leaves the queue; nothing else changes (R63). -/
theorem takeCommand_cons {s : State} {c : Command} {rest : List Command} (h : s.cmds = c :: rest) :
    takeCommand s = some (c, s.onPort c rest) := by
  simp [takeCommand, h, State.onPort]

/-- A rejected word raises one of four faults, or is refused as no command (R263). -/
theorem rejectCommand_cases (r : Reject) (s : State) :
    (r = .notWhole ∧ rejectCommand r s = .refused .notWhole) ∨
    (∃ u, (u = .illegalOp ∨ u = .wrongAgent ∨ u = .reservedField ∨ u = .badLength) ∧
      rejectCommand r s = .next (s.takeFault u)) := by
  cases r with
  | illegalOp => exact .inr ⟨.illegalOp, .inl rfl, rfl⟩
  | reservedField o =>
    cases h : o.permits s.port
    · exact .inr ⟨.wrongAgent, .inr (.inl rfl), by simp [rejectCommand, permitted, h]⟩
    · exact .inr ⟨.reservedField, .inr (.inr (.inl rfl)), by simp [rejectCommand, permitted, h, raise_eq]⟩
  | badLength o =>
    cases h : o.permits s.port
    · exact .inr ⟨.wrongAgent, .inr (.inl rfl), by simp [rejectCommand, permitted, h]⟩
    · exact .inr ⟨.badLength, .inr (.inr (.inr rfl)), by simp [rejectCommand, permitted, h, raise_eq]⟩
  | notWhole => exact .inl ⟨rfl, rfl⟩

end Sys2Proof.Machine
end

