-- ==== Sys2Proof/Laws/Decoders.lean ====
section
/-!
SUPPORT. The scan of MOTOR and SAT, said once: its loop equations (the turns it is given are enough), that a verdict
but "wait" is final, and that feeding bytes one by one is one scan of them all.
-/

namespace Sys2Proof.Machine

/-! ### Slices -/

theorem byteAt_append_left {p : List Byte} {i : Nat} (h : i < p.length) (q : List Byte) :
    byteAt (p ++ q) i = byteAt p i := by
  simp [byteAt, List.getD_eq_getElem?_getD, List.getElem?_append_left h]

theorem slice_append_left {p : List Byte} {i j : Nat} (h : j ≤ p.length) (q : List Byte) :
    slice (p ++ q) i j = slice p i j := by
  simp only [slice, List.drop_append, List.take_append]
  rw [show j - i - (List.drop i p).length = 0 by simp only [List.length_drop]; omega]
  simp

/-! ### Judges -/

/-- What a judge must do for the scan to make sense: an accepted frame lies in the buffer, and a verdict but "wait"
stands when more bytes arrive. -/
structure GoodJudge (judge : List Byte → Verdict) : Prop where
  nil : judge [] = .wait
  accept_length : ∀ {p f n}, judge p = .accept f n → 1 ≤ n ∧ n ≤ p.length
  reject_append : ∀ {p} q, judge p = .reject → judge (p ++ q) = .reject
  accept_append : ∀ {p f n} q, judge p = .accept f n → judge (p ++ q) = .accept f n

theorem motorOk_append {p : List Byte} {len : Nat} (h : len + 5 ≤ p.length) (q : List Byte) :
    motorOk (p ++ q) len = motorOk p len := by
  simp only [motorOk]
  rw [byteAt_append_left (by omega), byteAt_append_left (by omega), byteAt_append_left (by omega),
    slice_append_left (by omega)]

theorem motorJudge_good (cap : Nat) : GoodJudge (motorJudge cap) where
  nil := rfl
  accept_length := by
    intro p f n h
    match p with
    | [] => cases h
    | [b] => simp only [motorJudge] at h; split at h <;> cases h
    | b :: l :: rest =>
      simp only [motorJudge] at h
      split at h
      · cases h
      · split at h
        · cases h
        · split at h
          · cases h
          · split at h
            · injection h with h1 h2
              omega
            · cases h
  reject_append := by
    intro p q h
    match p with
    | [] => cases h
    | [b] =>
      simp only [motorJudge] at h
      split at h
      · cases h
      · rename_i hb
        cases q with
        | nil => exact if_neg hb
        | cons c q => exact if_pos hb
    | b :: l :: rest =>
      simp only [motorJudge, List.cons_append] at h ⊢
      split at h
      · rename_i hb
        rw [if_pos hb]
      · rename_i hb
        rw [if_neg hb]
        split at h
        · rename_i hc
          rw [if_pos hc]
        · rename_i hc
          rw [if_neg hc]
          split at h
          · cases h
          · rename_i hl
            have hl' : l.toNat + 5 ≤ (b :: l :: rest).length := by omega
            rw [if_neg (by simp only [List.length_cons, List.length_append] at hl' ⊢; omega)]
            split at h
            · cases h
            · rename_i hok
              rw [if_neg]
              rw [← List.cons_append, ← List.cons_append, motorOk_append hl']
              exact hok
  accept_append := by
    intro p f n q h
    match p with
    | [] => cases h
    | [b] => simp only [motorJudge] at h; split at h <;> cases h
    | b :: l :: rest =>
      simp only [motorJudge, List.cons_append] at h ⊢
      split at h
      · cases h
      · rename_i hb
        rw [if_neg hb]
        split at h
        · cases h
        · rename_i hc
          rw [if_neg hc]
          split at h
          · cases h
          · rename_i hl
            have hl' : l.toNat + 5 ≤ (b :: l :: rest).length := by omega
            rw [if_neg (by simp only [List.length_cons, List.length_append] at hl' ⊢; omega)]
            split at h
            · rename_i hok
              rw [← List.cons_append, ← List.cons_append, motorOk_append hl', if_pos hok,
                slice_append_left (by omega)]
              exact h
            · cases h

theorem satLen_append {p : List Byte} (h : 6 ≤ p.length) (q : List Byte) : satLen (p ++ q) = satLen p := by
  simp only [satLen]
  rw [byteAt_append_left (by omega), byteAt_append_left (by omega)]

theorem satOk_append {p : List Byte} {len : Nat} (h : len + 8 ≤ p.length) (q : List Byte) :
    satOk (p ++ q) len = satOk p len := by
  simp only [satOk]
  rw [byteAt_append_left (by omega), byteAt_append_left (by omega), slice_append_left (by omega)]

theorem satJudge_good (sync1 sync2 : Byte) (cap : Nat) : GoodJudge (satJudge sync1 sync2 cap) where
  nil := rfl
  accept_length := by
    intro p f n h
    match p with
    | [] => cases h
    | [b] => simp only [satJudge] at h; split at h <;> cases h
    | b :: l :: rest =>
      simp only [satJudge] at h
      split at h
      · cases h
      · split at h
        · cases h
        · split at h
          · cases h
          · split at h
            · cases h
            · split at h
              · cases h
              · split at h
                · injection h with h1 h2
                  omega
                · cases h
  reject_append := by
    intro p q h
    match p with
    | [] => cases h
    | [b] =>
      simp only [satJudge] at h
      split at h
      · cases h
      · rename_i hb
        cases q with
        | nil => exact if_neg hb
        | cons c q => exact if_pos hb
    | b :: l :: rest =>
      simp only [satJudge, List.cons_append] at h ⊢
      split at h
      · rename_i hb
        rw [if_pos hb]
      · rename_i hb
        rw [if_neg hb]
        split at h
        · rename_i hc
          rw [if_pos hc]
        · rename_i hc
          rw [if_neg hc]
          split at h
          · cases h
          · rename_i h6
            have h6' : 6 ≤ (b :: l :: rest).length := by omega
            rw [if_neg (by simp only [List.length_cons, List.length_append] at h6' ⊢; omega), ← List.cons_append,
              ← List.cons_append, satLen_append h6']
            split at h
            · rename_i hcap
              rw [if_pos hcap]
            · rename_i hcap
              rw [if_neg hcap]
              split at h
              · cases h
              · rename_i hl
                have hl' : satLen (b :: l :: rest) + 8 ≤ (b :: l :: rest).length := by omega
                rw [if_neg (by simp only [List.length_append]; omega)]
                split at h
                · cases h
                · rename_i hok
                  rw [if_neg]
                  rw [satOk_append hl']
                  exact hok
  accept_append := by
    intro p f n q h
    match p with
    | [] => cases h
    | [b] => simp only [satJudge] at h; split at h <;> cases h
    | b :: l :: rest =>
      simp only [satJudge, List.cons_append] at h ⊢
      split at h
      · cases h
      · rename_i hb
        rw [if_neg hb]
        split at h
        · cases h
        · rename_i hc
          rw [if_neg hc]
          split at h
          · cases h
          · rename_i h6
            have h6' : 6 ≤ (b :: l :: rest).length := by omega
            rw [if_neg (by simp only [List.length_cons, List.length_append] at h6' ⊢; omega), ← List.cons_append,
              ← List.cons_append, satLen_append h6']
            split at h
            · cases h
            · rename_i hcap
              rw [if_neg hcap]
              split at h
              · cases h
              · rename_i hl
                have hl' : satLen (b :: l :: rest) + 8 ≤ (b :: l :: rest).length := by omega
                rw [if_neg (by simp only [List.length_append]; omega)]
                split at h
                · rename_i hok
                  rw [satOk_append hl', if_pos hok, byteAt_append_left (by omega), byteAt_append_left (by omega),
                    slice_append_left (by omega)]
                  exact h
                · cases h

/-! ### The loop -/

/-- The loop of R183 and R188 with the turns it needs. -/
def scanAll (judge : List Byte → Verdict) (p : List Byte) : List Frame × List Byte := scan judge p.length p

/-- More turns than bytes change nothing. -/
theorem scan_turns {judge : List Byte → Verdict} (hj : GoodJudge judge) (n : Nat) (p : List Byte)
    (h : p.length ≤ n) : scan judge n p = scanAll judge p := by
  induction n using Nat.strongRecOn generalizing p with
  | _ n ih =>
    unfold scanAll
    match n, p with
    | 0, [] => rfl
    | 0, b :: p => simp at h
    | n + 1, [] => simp only [scan, hj.nil, List.length_nil]
    | n + 1, b :: p =>
      simp only [List.length_cons] at h ⊢
      cases hv : judge (b :: p) with
      | wait => simp only [scan, hv]
      | reject =>
        simp only [scan, hv, List.drop_succ_cons, List.drop_zero]
        exact ih n (by omega) p (by omega)
      | accept f len =>
        have hl := hj.accept_length hv
        have hd : (List.drop len (b :: p)).length ≤ p.length := by
          simp only [List.length_drop, List.length_cons] at *
          omega
        simp only [scan, hv]
        rw [ih n (by omega) _ (by omega), ih p.length (by omega) _ hd]

theorem scanAll_nil {judge : List Byte → Verdict} : scanAll judge [] = ([], []) := rfl

theorem scanAll_wait {judge : List Byte → Verdict} {p : List Byte} (h : judge p = .wait) :
    scanAll judge p = ([], p) := by
  cases p with
  | nil => rfl
  | cons b p => simp [scanAll, scan, h]

theorem scanAll_reject {judge : List Byte → Verdict} {b : Byte} {p : List Byte}
    (h : judge (b :: p) = .reject) : scanAll judge (b :: p) = scanAll judge p := by
  simp [scanAll, scan, h]

theorem scanAll_accept {judge : List Byte → Verdict} (hj : GoodJudge judge) {p : List Byte} {f : Frame} {n : Nat}
    (h : judge p = .accept f n) :
    scanAll judge p = (f :: (scanAll judge (p.drop n)).1, (scanAll judge (p.drop n)).2) := by
  cases p with
  | nil => cases hj.nil.symm.trans h
  | cons b p =>
    have hl := hj.accept_length h
    have hd : (List.drop n (b :: p)).length ≤ p.length := by
      simp only [List.length_drop, List.length_cons] at *
      omega
    conv => lhs; simp only [scanAll, List.length_cons, scan, h]
    rw [scan_turns hj _ _ hd]

/-- The scan rests: what it leaves waits for more bytes. -/
theorem scanAll_rests {judge : List Byte → Verdict} (hj : GoodJudge judge) (p : List Byte) :
    judge (scanAll judge p).2 = .wait := by
  induction hn : p.length using Nat.strongRecOn generalizing p with
  | _ n ih =>
    cases p with
    | nil => exact hj.nil
    | cons b p =>
      cases hv : judge (b :: p) with
      | wait => rw [scanAll_wait hv]; exact hv
      | reject =>
        rw [scanAll_reject hv]
        exact ih p.length (by simp at hn; omega) p rfl
      | accept f len =>
        rw [scanAll_accept hj hv]
        have hl := hj.accept_length hv
        exact ih _ (by simp only [List.length_drop, List.length_cons] at *; omega) _ rfl

/-- A scan of more bytes is the scan of the first ones, and then of what it left with the rest. -/
theorem scanAll_append {judge : List Byte → Verdict} (hj : GoodJudge judge) (p q : List Byte) :
    scanAll judge (p ++ q) =
      ((scanAll judge p).1 ++ (scanAll judge ((scanAll judge p).2 ++ q)).1,
        (scanAll judge ((scanAll judge p).2 ++ q)).2) := by
  induction hn : p.length using Nat.strongRecOn generalizing p with
  | _ n ih =>
    cases p with
    | nil => simp [scanAll_nil]
    | cons b p =>
      cases hv : judge (b :: p) with
      | wait => rw [scanAll_wait hv]; simp
      | reject =>
        rw [scanAll_reject hv, List.cons_append,
          scanAll_reject (by rw [← List.cons_append]; exact hj.reject_append q hv)]
        exact ih p.length (by simp at hn; omega) p rfl
      | accept f len =>
        have hl := hj.accept_length hv
        rw [scanAll_accept hj hv, scanAll_accept hj (hj.accept_append q hv), List.drop_append_of_le_length hl.2]
        rw [ih _ (by simp only [List.length_drop, List.length_cons] at *; omega) _ rfl]
        simp

/-- Bytes at which no candidate is accepted are scanned past, once so many follow that none can wait for more. -/
theorem scanAll_skip {judge : List Byte → Verdict} {cap : Nat} (hwait : ∀ q, judge q = .wait → q.length < cap)
    (p rest : List Byte) (hcap : cap ≤ rest.length + 1)
    (h : ∀ k < p.length, ∀ f n, judge ((p ++ rest).drop k) ≠ .accept f n) :
    scanAll judge (p ++ rest) = scanAll judge rest := by
  induction p with
  | nil => rfl
  | cons b p ih =>
    cases hv : judge (b :: (p ++ rest)) with
    | wait =>
      have := hwait _ hv
      simp only [List.length_cons, List.length_append] at this
      omega
    | accept f n => exact absurd hv (h 0 (by simp) f n)
    | reject =>
      rw [List.cons_append, scanAll_reject hv]
      exact ih fun k hk f n => by simpa using h (k + 1) (by simpa using hk) f n

/-- A motor candidate that waits is shorter than the cap (R183). -/
theorem motorJudge_wait_length {cap : Nat} (hcap : 5 ≤ cap) {q : List Byte} (h : motorJudge cap q = .wait) :
    q.length < cap := by
  match q with
  | [] => simp; omega
  | [_] => simp; omega
  | b :: l :: rest =>
    simp only [motorJudge] at h
    split at h
    · cases h
    · split at h
      · cases h
      · split at h
        · omega
        · split at h <;> cases h

/-- A satellite candidate that waits is shorter than the cap (R188). -/
theorem satJudge_wait_length {sync1 sync2 : Byte} {cap : Nat} (hcap : 8 ≤ cap) {q : List Byte}
    (h : satJudge sync1 sync2 cap q = .wait) : q.length < cap := by
  match q with
  | [] => simp; omega
  | [_] => simp; omega
  | b :: l :: rest =>
    simp only [satJudge] at h
    split at h
    · cases h
    · split at h
      · cases h
      · split at h
        · omega
        · split at h
          · cases h
          · split at h
            · omega
            · split at h <;> cases h

/-! ### Feeding -/

/-- The judge of a scanned protocol. -/
def judgeOf (p : Params) : Protocol → Option (List Byte → Verdict)
  | .motor => some (motorJudge p.motorCap)
  | .sat => some (satJudge p.satSync1 p.satSync2 p.satCap)
  | .cobs => none
  | .ascii => none

theorem judgeOf_good {p : Params} {proto : Protocol} {judge : List Byte → Verdict}
    (h : judgeOf p proto = some judge) : GoodJudge judge := by
  cases proto
  · cases h; exact motorJudge_good _
  · cases h; exact satJudge_good _ _ _
  · cases h
  · cases h

theorem decStep_scan {p : Params} {proto : Protocol} {judge : List Byte → Verdict}
    (h : judgeOf p proto = some judge) (b : Byte) (c : DecState) :
    decStep p proto b c =
      ((scanAll judge (c.pend ++ [b])).1, { c with pend := (scanAll judge (c.pend ++ [b])).2 }) := by
  cases proto
  · cases h; rfl
  · cases h; rfl
  · cases h
  · cases h

theorem feedBytes_nil (p : Params) (proto : Protocol) (c : DecState) : feedBytes p proto [] c = ([], c) := rfl

theorem feedBytes_cons (p : Params) (proto : Protocol) (b : Byte) (rest : List Byte) (c : DecState) :
    feedBytes p proto (b :: rest) c =
      ((decStep p proto b c).1 ++ (feedBytes p proto rest (decStep p proto b c).2).1,
        (feedBytes p proto rest (decStep p proto b c).2).2) := rfl

theorem feedBytes_append (p : Params) (proto : Protocol) (x y : List Byte) (c : DecState) :
    feedBytes p proto (x ++ y) c =
      ((feedBytes p proto x c).1 ++ (feedBytes p proto y (feedBytes p proto x c).2).1,
        (feedBytes p proto y (feedBytes p proto x c).2).2) := by
  induction x generalizing c with
  | nil => rfl
  | cons b rest ih => simp [feedBytes_cons, ih]

/-- Feeding a scanned protocol at rest is one scan of everything buffered and fed. -/
theorem feedBytes_scan {p : Params} {proto : Protocol} {judge : List Byte → Verdict}
    (h : judgeOf p proto = some judge) (d : List Byte) (c : DecState) (hc : judge c.pend = .wait) :
    feedBytes p proto d c = ((scanAll judge (c.pend ++ d)).1, { c with pend := (scanAll judge (c.pend ++ d)).2 }) := by
  have hj := judgeOf_good h
  induction d generalizing c with
  | nil => rw [List.append_nil, scanAll_wait hc, feedBytes_nil]
  | cons b rest ih =>
    rw [feedBytes_cons, decStep_scan h, ih _ (scanAll_rests hj _),
      show c.pend ++ b :: rest = (c.pend ++ [b]) ++ rest by simp, scanAll_append hj (c.pend ++ [b]) rest]

/-! ### Block read -/

/-- VALIDATE_BLOCK on a response with a length byte, its bounds as numbers (R5, R202). -/
theorem validateBlock_cons (l : Byte) (rest : List Byte) :
    validateBlock (l :: rest) =
      if l.toNat < 1 ∨ 32 < l.toNat then { accept := false, reason := .lenRange, data := [] }
      else if rest.length < l.toNat then { accept := false, reason := .short, data := [] }
      else { accept := true, reason := .ok, data := rest.take l.toNat } := rfl

end Sys2Proof.Machine
end

