-- ==== Sys2Proof/Laws/Encoding.lean ====
section
/-!
SUPPORT. The small lemmas of the word fields, the little-endian operands and the opcode map, which every statement
about the decoder and the encoder rests on.
-/

namespace Sys2Proof

/-! ### Fields of a word -/

@[simp] theorem cwOp_mkCw (op a : Byte) (n : Half) : cwOp (mkCw op a n) = op := by
  ext i hi
  simp only [cwOp, mkCw, BitVec.getElem_extractLsb', BitVec.getLsbD_append]
  rw [if_neg (by omega), show 24 + i - 16 = 8 + i by omega, if_neg (by omega)]
  simp [BitVec.getLsbD_eq_getElem hi]

@[simp] theorem cwA_mkCw (op a : Byte) (n : Half) : cwA (mkCw op a n) = a := by
  ext i hi
  simp only [cwA, mkCw, BitVec.getElem_extractLsb', BitVec.getLsbD_append]
  rw [if_neg (by omega), show 16 + i - 16 = i by omega, if_pos (by omega)]
  simp [BitVec.getLsbD_eq_getElem hi]

@[simp] theorem cwN_mkCw (op a : Byte) (n : Half) : cwN (mkCw op a n) = n := by
  ext i hi
  simp only [cwN, mkCw, BitVec.getElem_extractLsb', BitVec.getLsbD_append]
  rw [show 0 + i = i by omega, if_pos (by omega)]
  simp [BitVec.getLsbD_eq_getElem hi]

/-- A word is its three fields (R90). -/
theorem mkCw_fields (cw : Word) : mkCw (cwOp cw) (cwA cw) (cwN cw) = cw := by
  apply BitVec.eq_of_getLsbD_eq
  intro i hi
  simp only [mkCw, cwOp, cwA, cwN, BitVec.getLsbD_append, BitVec.getLsbD_extractLsb']
  by_cases h1 : i < 16
  · rw [if_pos h1]
    simp [h1]
  · by_cases h2 : i - 16 < 8
    · rw [if_neg h1, if_pos h2, show 16 + (i - 16) = i by omega]
      simp [h2]
    · rw [if_neg h1, if_neg h2, show 24 + (i - 16 - 8) = i by omega]
      simp [show i - 16 - 8 < 8 by omega]

/-! ### Little-endian operands -/

@[simp] theorem length_leBytes (n v : Nat) : (leBytes n v).length = n := by
  induction n generalizing v with
  | zero => rfl
  | succ n ih => simp [leBytes, ih]

theorem leValue_leBytes (n v : Nat) (h : v < 256 ^ n) : leValue (leBytes n v) = v := by
  induction n generalizing v with
  | zero => simp [leBytes, leValue]; omega
  | succ n ih =>
    have hq : v / 256 < 256 ^ n := by
      rw [Nat.pow_succ] at h
      omega
    simp only [leBytes, leValue, ih _ hq, BitVec.toNat_ofNat]
    omega

theorem leBytes_leValue (d : List Byte) : leBytes d.length (leValue d) = d := by
  induction d with
  | nil => rfl
  | cons b rest ih =>
    have hb : b.toNat < 256 := b.isLt
    simp only [List.length_cons, leBytes, leValue]
    rw [show (b.toNat + 256 * leValue rest) / 256 = leValue rest by omega, ih]
    congr 1
    apply BitVec.eq_of_toNat_eq
    simp only [BitVec.toNat_ofNat]
    omega

theorem leValue_lt (d : List Byte) : leValue d < 256 ^ d.length := by
  induction d with
  | nil => simp [leValue]
  | cons b rest ih =>
    have hb : b.toNat < 256 := b.isLt
    simp only [List.length_cons, leValue, Nat.pow_succ]
    omega

/-! ### The opcode map -/

@[simp] theorem ofByte_code (o : Opcode) : Opcode.ofByte o.code = some o := by
  cases o <;> decide

theorem code_of_ofByte {b : Byte} {o : Opcode} (h : Opcode.ofByte b = some o) : o.code = b := by
  have := List.find?_some h
  simpa using this

theorem ofByte_eq_some_iff {b : Byte} {o : Opcode} : Opcode.ofByte b = some o ↔ o.code = b :=
  ⟨code_of_ofByte, fun h => h ▸ ofByte_code o⟩

@[simp] theorem opcode_assemble (o : Opcode) (a : Byte) (n : Half) (d : List Byte) :
    (assemble o a n d).opcode = o := by
  cases o <;> rfl

/-- What a word that decodes has met (R93, R94). -/
theorem decode_ok_cases {cw : Word} {d : List Byte} {i : Instr} (h : decode cw d = .ok i) :
    ∃ o, Opcode.ofByte (cwOp cw) = some o ∧ d.length = dataCount o cw ∧
      fieldFault o.format (cwA cw) (cwN cw) = none ∧ i = assemble o (cwA cw) (cwN cw) d := by
  unfold decode at h
  cases ho : Opcode.ofByte (cwOp cw) with
  | none => simp [ho] at h
  | some o =>
    simp only [ho] at h
    by_cases hl : d.length = dataCount o cw
    · cases hf : fieldFault o.format (cwA cw) (cwN cw) with
      | none =>
        simp only [hl, ne_eq, not_true_eq_false, if_false, hf] at h
        exact ⟨o, rfl, hl, hf, (Except.ok.inj h).symm⟩
      | some f => cases f <;> simp [hl, hf] at h
    · simp [hl] at h

/-- A word whose fields are right decodes. -/
theorem decode_of_fields {cw : Word} {d : List Byte} {o : Opcode} (ho : Opcode.ofByte (cwOp cw) = some o)
    (hl : d.length = dataCount o cw) (hf : fieldFault o.format (cwA cw) (cwN cw) = none) :
    decode cw d = .ok (assemble o (cwA cw) (cwN cw) d) := by
  simp [decode, ho, hl, hf]

/-- Why a word does not decode. -/
theorem decode_error_cases {cw : Word} {d : List Byte} {r : Reject} (h : decode cw d = .error r) :
    (r = .illegalOp ∧ Opcode.ofByte (cwOp cw) = none) ∨
    ∃ o, Opcode.ofByte (cwOp cw) = some o ∧
      ((r = .notWhole ∧ d.length ≠ dataCount o cw) ∨
       (r = .reservedField o ∧ d.length = dataCount o cw ∧
         fieldFault o.format (cwA cw) (cwN cw) = some .reserved) ∨
       (r = .badLength o ∧ d.length = dataCount o cw ∧
         fieldFault o.format (cwA cw) (cwN cw) = some .length)) := by
  unfold decode at h
  cases ho : Opcode.ofByte (cwOp cw) with
  | none => simp only [ho, Except.error.injEq] at h; exact .inl ⟨h.symm, rfl⟩
  | some o =>
    refine .inr ⟨o, rfl, ?_⟩
    simp only [ho] at h
    by_cases hl : d.length = dataCount o cw
    · cases hf : fieldFault o.format (cwA cw) (cwN cw) with
      | none => simp [hl, hf] at h
      | some f =>
        cases f
        · simp only [hl, ne_eq, not_true_eq_false, if_false, hf, Except.error.injEq] at h
          exact .inr (.inl ⟨h.symm, hl, rfl⟩)
        · simp only [hl, ne_eq, not_true_eq_false, if_false, hf, Except.error.injEq] at h
          exact .inr (.inr ⟨h.symm, hl, rfl⟩)
    · simp only [hl, ne_eq, not_false_eq_true, if_true, Except.error.injEq] at h
      exact .inl ⟨h.symm, hl⟩

/-! ### Whole commands -/

/-- A command is whole when its word's opcode is illegal, or its data are the count R91 gives. -/
theorem whole_iff (c : Command) :
    c.whole ↔
      (match Opcode.ofByte (cwOp c.cw) with
        | none => true
        | some o => decide (c.data.length = dataCount o c.cw)) = true := by
  cases h : Opcode.ofByte (cwOp c.cw) with
  | none => simp [Command.whole, h]
  | some o => simp [Command.whole, h]

end Sys2Proof
end

