-- ==== Sys2Proof/Laws/Exec.lean ====
section
/-!
SUPPORT. What a command can do, said once: which usage fault it raises first (`firstFault`), what it writes
(`written`) and what it returns (`result`) when it raises none, and `exec` in these terms. Every
whole-machine fact is a case split over `exec_next_cases`.
-/

namespace Sys2Proof.Machine

/-- The usage fault a builder raises. -/
def buildFault : Except UsageFault (List Byte) → Option UsageFault
  | .error u => some u
  | .ok _ => none

/-- The fault of the checks in R263's order, each stated as its pseudocode states it. -/
def firstOf : List (Bool × UsageFault) → Option UsageFault
  | [] => none
  | (holds, u) :: rest => if holds then firstOf rest else some u

/-- The first usage fault a command raises in a state, none if it raises none. -/
def firstFault (i : Instr) (s : State) : Option UsageFault :=
  if i.opcode.permits s.port then
    match i with
    | .rxByte _ => none
    | .rxEvent => none
    | .start a => firstOf [(!s.started, .alreadyStarted), ((Protocol.ofByte a).isSome, .badProto)]
    | .take => firstOf [(s.started, .notStarted)]
    | .readBuf n => firstOf [(s.started, .notStarted), (s.pending, .noHandoff), (decide (n < s.readyLen), .indexRange)]
    | .done => firstOf [(s.started, .notStarted), (s.pending, .noHandoff)]
    | .flush => firstOf [(s.started, .notStarted)]
    | .readReg a => firstOf [((regValue a s).isSome, .badReg)]
    | .feed _ => firstOf [(s.started, .notStarted)]
    | .validateBlock _ => none
    | .crc16Xmodem _ => none
    | .crc16CcittFalse _ => none
    | .fletcher8 _ => none
    | .cobsEncode _ => none
    | .cobsDecode _ => none
    | .buildMotor d => buildFault (buildMotor s.params d)
    | .buildSat d => buildFault (buildSat s.params d)
    | .buildCobs d => buildFault (buildCobs s.params d)
    | .latchBegin => firstOf [(s.started, .notStarted)]
    | .latchApply f _ => firstOf [(s.started, .notStarted), (s.latchTxn, .noTxn), (fieldInRange f s, .fieldRange)]
    | .latchCommit _ => firstOf [(s.started, .notStarted), (s.latchTxn, .noTxn)]
    | .latchMarkAbsent => firstOf [(s.started, .notStarted)]
    | .latchReadField f => firstOf [(fieldInRange f s, .fieldRange)]
    | .latchReadMeta => none
    | .latchSnapshot => none
    | .latchStale _ _ => none
  else some .wrongAgent

/-- What FLUSH writes (R159). -/
def flushWritten (s : State) : State :=
  if s.fullSinceCheck ∨ s.remaining ≠ s.snapRemaining then
    { s with fullSinceCheck := false, snapRemaining := s.remaining }
  else if s.pending then s
  else if s.remaining = s.params.bufCap then s
  else { handoff s with snapRemaining := s.params.bufCap }

/-- What FLUSH returns (R159). -/
def flushResult (s : State) : Response :=
  if s.fullSinceCheck ∨ s.remaining ≠ s.snapRemaining then .flush .rearm .b0 0
  else if s.pending then .flush .busy .b0 0
  else if s.remaining = s.params.bufCap then .flush .empty .b0 0
  else .flush .flushed s.active s.fill

/-- What RX_BYTE writes on a started link (R151, R152). -/
def receivedByte (a : Byte) (s : State) : State :=
  if s.remaining = 1 then receiverEvent (storeByte a s) else storeByte a s

/-- The state a command that raises no fault writes, its result left out. -/
def written (i : Instr) (s : State) : State :=
  match i with
  | .rxByte a => if s.started then receivedByte a s else s
  | .rxEvent => if s.started then receiverEvent s else s
  | .start a => { s with protoSel := (Protocol.ofByte a).getD s.protoSel, started := true }
  | .take => if s.signal then { s with signal := false } else s
  | .readBuf _ => s
  | .done => { s with pending := false, signal := false }
  | .flush => flushWritten s
  | .readReg _ => s
  | .feed d => s.setDec (feedBytes s.params s.protoSel d s.dec).2
  | .validateBlock _ => s
  | .crc16Xmodem _ => s
  | .crc16CcittFalse _ => s
  | .fletcher8 _ => s
  | .cobsEncode _ => s
  | .cobsDecode _ => s
  | .buildMotor _ => s
  | .buildSat _ => s
  | .buildCobs _ => s
  | .latchBegin => { s with latchStage := s.latchVal, latchTxn := true }
  | .latchApply f v => { s with latchStage := Store.write s.latchStage f.toNat v }
  | .latchCommit t =>
    { s with latchVal := s.latchStage, latchTs := t, latchHasData := true, latchPresent := true,
             latchTxn := false }
  | .latchMarkAbsent => { s with latchPresent := false }
  | .latchReadField _ => s
  | .latchReadMeta => s
  | .latchSnapshot => s
  | .latchStale _ _ => s

/-- A builder's bytes. -/
def builtBytes : Except UsageFault (List Byte) → List Byte
  | .error _ => []
  | .ok d => d

/-- The result of a command that raises no fault. -/
def result (i : Instr) (s : State) : Response :=
  match i with
  | .rxByte _ => .done
  | .rxEvent => .done
  | .start _ => .done
  | .take => if s.signal then .take true s.readyIdx s.readyLen else .take false .b0 0
  | .readBuf n => .byte ((s.cell s.readyIdx n.toNat).getD 0)
  | .done => .done
  | .flush => flushResult s
  | .readReg a => .reg ((regValue a s).getD 0)
  | .feed d =>
    .feed (feedBytes s.params s.protoSel d s.dec).1 d.length
      (needMore s.protoSel (feedBytes s.params s.protoSel d s.dec).2.pend)
  | .validateBlock d => .block (validateBlock d)
  | .crc16Xmodem d => .crc (crcXmodem d)
  | .crc16CcittFalse d => .crc (crcCcittFalse d)
  | .fletcher8 d => .sums (fletcher8 d).1 (fletcher8 d).2
  | .cobsEncode d => .bytes (cobsEncode d)
  | .cobsDecode d => .unstuffed (cobsDecode d).isSome ((cobsDecode d).getD [])
  | .buildMotor d => .bytes (builtBytes (buildMotor s.params d))
  | .buildSat d => .bytes (builtBytes (buildSat s.params d))
  | .buildCobs d => .bytes (builtBytes (buildCobs s.params d))
  | .latchBegin => .done
  | .latchApply _ _ => .done
  | .latchCommit _ => .done
  | .latchMarkAbsent => .done
  | .latchReadField f => .field (slotView s.latchVal f.toNat).1 (slotView s.latchVal f.toNat).2
  | .latchReadMeta => .latchMeta s.latchHasData s.latchPresent s.latchTs
  | .latchSnapshot => .snapshot s.latchHasData s.latchPresent s.latchTs (snapshotFields s)
  | .latchStale now maxAge => .stale (isStale now maxAge s)

/-- Does the command find the cell it needs? Only RX_BYTE on a started link and READ_BUF need one. -/
def cellThere (i : Instr) (s : State) : Prop :=
  match i with
  | .rxByte _ => s.started = true → s.remaining ≠ 0 ∧ s.remaining ≤ s.params.bufCap
  | .readBuf n => n < s.params.bufCap ∧ (s.cell s.readyIdx n.toNat).isSome
  | _ => True

/-- What a command does once no check has failed. -/
def body (i : Instr) (s : State) : Result :=
  match i with
  | .rxByte a => if s.started then receiveByte a s else complete .done s
  | .readBuf n => readCell n s
  | i => .next ((written i s).answer (result i s))

/-- The outcome of a rule whose checks are listed. -/
def checked (cs : List (Bool × UsageFault)) (s : State) (k : Result) : Result :=
  match firstOf cs with
  | some u => raise u s
  | none => k

theorem checked_nil (s : State) (k : Result) : checked [] s k = k := rfl

theorem checked_cons (c : Bool) (u : UsageFault) (cs : List (Bool × UsageFault)) (s : State) (k : Result) :
    checked ((c, u) :: cs) s k = require c u s (checked cs s k) := by
  cases c <;> rfl

/-- A command is its checks in R263's order and then its rule: the first fault is taken, and with none the rule's
body runs. -/
theorem exec_eq (i : Instr) (s : State) :
    exec i s = match firstFault i s with
      | some u => .next (s.takeFault u)
      | none => body i s := by
  cases hp : i.opcode.permits s.port with
  | false =>
    have hf : firstFault i s = some .wrongAgent := by simp [firstFault, hp]
    rw [hf]
    have refuse : ∀ (o : Opcode) (k : Result), o.permits s.port = false →
        permitted o s k = .next (s.takeFault .wrongAgent) := by
      intro o k h
      simp [permitted, h]
    cases i <;> exact refuse _ _ hp
  | true =>
    have build : ∀ (r : Except UsageFault (List Byte)),
        answerBuilt r s = match buildFault r with
          | some u => .next (s.takeFault u)
          | none => .next (s.answer (.bytes (builtBytes r))) := by
      intro r
      cases r <;> rfl
    have perm : ∀ (o : Opcode) (k : Result), o.permits s.port = true → permitted o s k = k := by
      intro o k h
      simp [permitted, h]
    have chk : ∀ (cs : List (Bool × UsageFault)) (k : Result),
        checked cs s k = match firstOf cs with
          | some u => .next (s.takeFault u)
          | none => k := fun _ _ => rfl
    cases i <;> simp only [Instr.opcode] at hp <;>
      simp only [exec, firstFault, Instr.opcode, hp, if_true, execRxByte, execRxEvent, execStart, execTake, execReadBuf,
        execDone, execFlush, execReadReg, execFeed, execValidateBlock, execCrc16Xmodem, execCrc16CcittFalse,
        execFletcher8, execCobsEncode, execCobsDecode, execBuildMotor, execBuildSat, execBuildCobs, execLatchBegin,
        execLatchApply, execLatchCommit, execLatchMarkAbsent, execLatchReadField, execLatchReadMeta,
        execLatchSnapshot, execLatchStale, perm _ _ hp]
    case rxByte => rfl
    case rxEvent => rfl
    case start a =>
      rw [← chk, checked_cons, checked_cons, checked_nil]
      congr 1
      simp only [body, written, result]
      cases Protocol.ofByte a <;> rfl
    case take =>
      rw [← chk, checked_cons, checked_nil, started]
      congr 1
      simp only [body, written, result]
      split <;> rfl
    case readBuf => rw [← chk, checked_cons, checked_cons, checked_cons, checked_nil]; rfl
    case done => rw [← chk, checked_cons, checked_cons, checked_nil]; rfl
    case flush =>
      rw [← chk, checked_cons, checked_nil, started]
      congr 1
      simp only [body, written, result, flushWritten, flushResult]
      split
      · rfl
      · split
        · rfl
        · split <;> rfl
    case readReg a =>
      rw [← chk, checked_cons, checked_nil]
      simp only [body, written, result]
      cases regValue a s <;> rfl
    case feed => rw [← chk, checked_cons, checked_nil]; rfl
    case validateBlock => rfl
    case crc16Xmodem => rfl
    case crc16CcittFalse => rfl
    case fletcher8 => rfl
    case cobsEncode => rfl
    case cobsDecode => rfl
    case buildMotor => exact build _
    case buildSat => exact build _
    case buildCobs => exact build _
    case latchBegin => rw [← chk, checked_cons, checked_nil]; rfl
    case latchApply => rw [← chk, checked_cons, checked_cons, checked_cons, checked_nil]; rfl
    case latchCommit => rw [← chk, checked_cons, checked_cons, checked_nil]; rfl
    case latchMarkAbsent => rw [← chk, checked_cons, checked_nil]; rfl
    case latchReadField => rw [← chk, checked_cons, checked_nil]; rfl
    case latchReadMeta => rfl
    case latchSnapshot => rfl
    case latchStale => rfl

/-- A command that raises a fault takes it, whatever else the state holds (R262, R263). -/
theorem exec_of_firstFault {i : Instr} {s : State} {u : UsageFault} (h : firstFault i s = some u) :
    exec i s = .next (s.takeFault u) := by
  rw [exec_eq, h]

/-- The body of a rule: a stop where the cell it needs is not there, else what it writes and returns. -/
theorem body_cases (i : Instr) (s : State) :
    (cellThere i s ∧ body i s = .next ((written i s).answer (result i s))) ∨
    (¬ cellThere i s ∧ (body i s = .fault .noSuchCell ∨ body i s = .fault .unwrittenCell)) := by
  cases i
  case rxByte a =>
    cases hs : s.started
    · exact .inl ⟨by simp [cellThere, hs], by simp [body, written, result, hs, complete]⟩
    · rcases receiveByte_cases a s with ⟨h, e⟩ | ⟨h0, h1, h2, e⟩ | ⟨h0, h1, h2, e⟩
      · refine .inr ⟨?_, .inl (by simp [body, hs, e])⟩
        intro hc
        rcases h with h | h
        · exact (hc hs).1 h
        · exact absurd (hc hs).2 (BitVec.not_le.2 h)
      · exact .inl ⟨fun _ => ⟨h0, h1⟩, by simp only [body, hs, if_true, e, written, receivedByte, if_neg h2, result]⟩
      · exact .inl ⟨fun _ => ⟨h0, h1⟩, by simp only [body, hs, if_true, e, written, receivedByte, if_pos h2, result]⟩
  case readBuf n =>
    rcases readCell_cases n s with ⟨h, e⟩ | ⟨h, hc, e⟩ | ⟨b, h, hc, e⟩
    · exact .inr ⟨fun hc => absurd hc.1 (BitVec.not_lt.2 h), .inl e⟩
    · exact .inr ⟨fun hc' => by simp [cellThere, hc] at hc', .inr e⟩
    · exact .inl ⟨⟨h, by simp [hc]⟩, by simp only [body, e, written, result, hc, Option.getD_some]⟩
  all_goals exact .inl ⟨trivial, rfl⟩

/-- A command that raises no fault and finds its cell completes. -/
theorem exec_completes {i : Instr} {s : State} (hf : firstFault i s = none) (hc : cellThere i s) :
    exec i s = .next ((written i s).answer (result i s)) := by
  rw [exec_eq, hf]
  rcases body_cases i s with ⟨-, h⟩ | ⟨h, -⟩
  · exact h
  · exact absurd hc h

/-- Everything a command can do when it answers a next state: take the first fault, or write and return. -/
theorem exec_next_cases {i : Instr} {s t : State} (h : exec i s = .next t) :
    (∃ u, firstFault i s = some u ∧ t = s.takeFault u) ∨
    (firstFault i s = none ∧ cellThere i s ∧ t = (written i s).answer (result i s)) := by
  rw [exec_eq] at h
  cases hf : firstFault i s with
  | some u =>
    rw [hf] at h
    exact .inl ⟨u, rfl, (Host.Outcome.next.inj h).symm⟩
  | none =>
    rw [hf] at h
    rcases body_cases i s with ⟨hc, e⟩ | ⟨-, e | e⟩
    · exact .inr ⟨rfl, hc, Host.Outcome.next.inj (h.symm.trans e)⟩
    · cases h.symm.trans e
    · cases h.symm.trans e

/-- A command stops the machine only where no fault is raised and the cell it needs is not there. -/
theorem exec_stops {i : Instr} {s : State} (h : ∀ t, exec i s ≠ .next t) :
    firstFault i s = none ∧ ¬ cellThere i s := by
  cases hf : firstFault i s with
  | some u => exact absurd (exec_of_firstFault hf) (h _)
  | none => exact ⟨rfl, fun hc => h _ (exec_completes hf hc)⟩

/-- A result is no fault. -/
theorem result_isFault (i : Instr) (s : State) : (result i s).isFault = false := by
  cases i <;> simp only [result, flushResult] <;> (try (repeat' split)) <;> rfl

/-! ### The queue and the port are no part of the invariant -/

/-- The invariant speaks of no queue, no port, no command word and no result. -/
theorem inv_port {s : State} (h : s.Inv) (cs : List Command) (a : Agent) (w : Word) (r : Response) :
    ({ s with cmds := cs, port := a, cw := w, resp := r } : State).Inv where
  params := h.params
  buffers := h.buffers
  remaining := h.remaining
  snapRemaining := h.snapRemaining
  filling := fun i hi => h.filling i hi
  otherBuffer := h.otherBuffer
  signalled := h.signalled
  handedOff := fun hp => ⟨(h.handedOff hp).1, (h.handedOff hp).2.1, fun i hi => (h.handedOff hp).2.2 i hi⟩
  decoder := h.decoder
  slots := h.slots
  present := h.present
  faultCode := h.faultCode
  beforeStart := by
    intro hs
    have hu := h.beforeStart hs
    unfold State.untouched at hu ⊢
    conv_lhs => rw [hu]

/-! ### One step -/

theorem step_nil {s : State} (h : s.cmds = []) : step s = .next s := by
  rw [step, takeCommand_nil h]

/-- A step with a command that decodes is that command on its port. -/
theorem step_ok {s : State} {c : Command} {rest : List Command} {i : Instr} (h : s.cmds = c :: rest)
    (hd : decode c.cw c.data = .ok i) : step s = exec i (s.onPort c rest) := by
  rw [step, takeCommand_cons h]
  simp only [hd]

theorem step_error {s : State} {c : Command} {rest : List Command} {r : Reject} (h : s.cmds = c :: rest)
    (hd : decode c.cw c.data = .error r) : step s = rejectCommand r (s.onPort c rest) := by
  rw [step, takeCommand_cons h]
  simp only [hd]

/-- Everything a step can do when it answers a next state. -/
theorem step_next_cases {s t : State} (h : step s = .next t) :
    (s.cmds = [] ∧ t = s) ∨
    ∃ c rest, s.cmds = c :: rest ∧
      ((∃ u, t = (s.onPort c rest).takeFault u) ∨
       ∃ i, decode c.cw c.data = .ok i ∧ firstFault i (s.onPort c rest) = none ∧ cellThere i (s.onPort c rest) ∧
         t = (written i (s.onPort c rest)).answer (result i (s.onPort c rest))) := by
  cases hc : s.cmds with
  | nil =>
    rw [step_nil hc] at h
    exact .inl ⟨rfl, (Host.Outcome.next.inj h).symm⟩
  | cons c rest =>
    refine .inr ⟨c, rest, rfl, ?_⟩
    cases hd : decode c.cw c.data with
    | ok i =>
      rw [step_ok hc hd] at h
      rcases exec_next_cases h with ⟨u, -, e⟩ | ⟨hf, hcell, e⟩
      · exact .inl ⟨u, e⟩
      · exact .inr ⟨i, rfl, hf, hcell, e⟩
    | error r =>
      rw [step_error hc hd] at h
      rcases rejectCommand_cases r (s.onPort c rest) with ⟨-, e⟩ | ⟨u, -, e⟩
      · cases h.symm.trans e
      · exact .inl ⟨u, Host.Outcome.next.inj (h.symm.trans e)⟩

/-! ### Runs -/

theorem runSteps_zero (s : State) : runSteps 0 s = .next s := rfl

/-- A run of one more step: the step, and the run from what it answers. -/
theorem runSteps_succ {s t : State} (h : step s = .next t) (n : Nat) : runSteps (n + 1) s = runSteps n t := by
  have h' : Sys2Proof.core.step s = .next t := h
  simp only [runSteps, Host.Core.run, h']
  rfl

/-- Every run that answers a next state begins with a step that does. -/
theorem runSteps_succ_cases {n : Nat} {s t : State} (h : runSteps (n + 1) s = .next t) :
    ∃ u, step s = .next u ∧ runSteps n u = .next t := by
  cases hs : step s with
  | next u => exact ⟨u, rfl, (runSteps_succ hs n).symm.trans h⟩
  | fault r =>
    have h' : Sys2Proof.core.step s = .fault r := hs
    simp only [runSteps, Host.Core.run, h'] at h
    cases h
  | refused r =>
    have h' : Sys2Proof.core.step s = .refused r := hs
    simp only [runSteps, Host.Core.run, h'] at h
    cases h

/-- A property that every step keeps holds after every run. -/
theorem runSteps_induction {P : State → Prop} (hP : ∀ s t, P s → step s = .next t → P t) {n : Nat} {s t : State}
    (hs : P s) (h : runSteps n s = .next t) : P t := by
  induction n generalizing s with
  | zero =>
    cases h
    exact hs
  | succ n ih =>
    obtain ⟨u, hu, h⟩ := runSteps_succ_cases h
    exact ih (hP s u hs hu) h

end Sys2Proof.Machine
end

