-- ==== Sys2Proof/Laws/PerInstr.lean ====
section
/-!
SUPPORT. One statement for all commands, proved constructor by constructor: the encoder's word lies in the row of the
command's opcode (R94: `(CW and mask) = match`), and its data are as many bytes as R91 delivers with it.
-/

namespace Sys2Proof.Laws.EncodeMatchesRow

/-- The word matches its opcode's row, and the data are whole. -/
def Statement (i : Instr) : Prop :=
  i.wellFormed = true →
    (encode i).1 &&& i.opcode.format.mask = i.opcode.matchWord ∧
    (encode i).2.length = dataCount i.opcode (encode i).1

/-- The mask of a format keeps `OP`, drops the free field and keeps the fixed ones. -/
theorem and_mask (op a : Byte) (n : Half) :
    mkCw op 0 0 &&& Format.z.mask = mkCw op 0 0 ∧ mkCw op a 0 &&& Format.a.mask = mkCw op 0 0 ∧
    mkCw op 0 n &&& Format.s.mask = mkCw op 0 0 ∧ mkCw op a 4 &&& Format.w.mask = mkCw op 0 4 ∧
    mkCw op 0 8 &&& Format.t8.mask = mkCw op 0 8 ∧ mkCw op 0 16 &&& Format.t16.mask = mkCw op 0 16 := by
  have key : ∀ (a' a'' : Byte) (n' n'' : Half), mkCw op a' n' &&& mkCw 0xFF a'' n'' = mkCw op (a' &&& a'') (n' &&& n'') := by
    intro a' a'' n' n''
    apply BitVec.eq_of_getLsbD_eq
    intro i hi
    simp only [mkCw, BitVec.getLsbD_and, BitVec.getLsbD_append]
    by_cases h1 : i < 16
    · simp [h1]
    · by_cases h2 : i - 16 < 8
      · simp [h1, h2]
      · have h3 : i - 16 - 8 < 8 := by omega
        have h4 : (255#8).getLsbD (i - 16 - 8) = true := by
          generalize i - 16 - 8 = j at h3
          revert j
          decide
        simp [h1, h2, h4]
  have m1 : Format.z.mask = mkCw 0xFF 0xFF 0xFFFF := by decide
  have m2 : Format.a.mask = mkCw 0xFF 0 0xFFFF := by decide
  have m3 : Format.s.mask = mkCw 0xFF 0xFF 0 := by decide
  have m4 : Format.w.mask = mkCw 0xFF 0 0xFFFF := by decide
  have m5 : Format.t8.mask = mkCw 0xFF 0xFF 0xFFFF := by decide
  have m6 : Format.t16.mask = mkCw 0xFF 0xFF 0xFFFF := by decide
  refine ⟨?_, ?_, ?_, ?_, ?_, ?_⟩
  · rw [m1, key]; congr 1
  · rw [m2, key]; simp
  · rw [m3, key]; simp
  · rw [m4, key]; simp
  · rw [m5, key]; congr 1
  · rw [m6, key]; congr 1

theorem ofZ (o : Opcode) (h : o.format = .z) :
    (wordZ o).1 &&& o.format.mask = o.matchWord ∧ (wordZ o).2.length = dataCount o (wordZ o).1 := by
  refine ⟨?_, ?_⟩
  · rw [h, Opcode.matchWord, h]; exact (and_mask o.code 0 0).1
  · simp [wordZ, dataCount, h, Format.hasData]

theorem ofA (o : Opcode) (a : Byte) (h : o.format = .a) :
    (wordA o a).1 &&& o.format.mask = o.matchWord ∧ (wordA o a).2.length = dataCount o (wordA o a).1 := by
  refine ⟨?_, ?_⟩
  · rw [h, Opcode.matchWord, h]; exact (and_mask o.code a 0).2.1
  · simp [wordA, dataCount, h, Format.hasData]

theorem ofI (o : Opcode) (n : Half) (h : o.format = .i) :
    (wordI o n).1 &&& o.format.mask = o.matchWord ∧ (wordI o n).2.length = dataCount o (wordI o n).1 := by
  refine ⟨?_, ?_⟩
  · rw [h, Opcode.matchWord, h]; exact (and_mask o.code 0 n).2.2.1
  · simp [wordI, dataCount, h, Format.hasData]

theorem ofS (o : Opcode) (d : List Byte) (h : o.format = .s) (hd : dataFits d = true) :
    (wordS o d).1 &&& o.format.mask = o.matchWord ∧ (wordS o d).2.length = dataCount o (wordS o d).1 := by
  refine ⟨?_, ?_⟩
  · rw [h, Opcode.matchWord, h]; exact (and_mask o.code 0 _).2.2.1
  · have hl : d.length ≤ 65535 := by simpa [dataFits] using hd
    simp only [wordS, dataCount, h, Format.hasData, if_true, cwN_mkCw, BitVec.toNat_ofNat]
    omega

theorem rxByte (a : Byte) : Statement (.rxByte a) := fun _ => ofA .rxByte a rfl
theorem rxEvent : Statement .rxEvent := fun _ => ofZ .rxEvent rfl
theorem start (a : Byte) : Statement (.start a) := fun _ => ofA .start a rfl
theorem take : Statement .take := fun _ => ofZ .take rfl
theorem readBuf (n : Half) : Statement (.readBuf n) := fun _ => ofI .readBuf n rfl
theorem done : Statement .done := fun _ => ofZ .done rfl
theorem flush : Statement .flush := fun _ => ofZ .flush rfl
theorem readReg (a : Byte) : Statement (.readReg a) := fun _ => ofA .readReg a rfl
theorem feed (d : List Byte) : Statement (.feed d) := fun h => ofS .feed d rfl h
theorem validateBlock (d : List Byte) : Statement (.validateBlock d) := fun h => ofS .validateBlock d rfl h
theorem crc16Xmodem (d : List Byte) : Statement (.crc16Xmodem d) := fun h => ofS .crc16Xmodem d rfl h
theorem crc16CcittFalse (d : List Byte) : Statement (.crc16CcittFalse d) := fun h => ofS .crc16CcittFalse d rfl h
theorem fletcher8 (d : List Byte) : Statement (.fletcher8 d) := fun h => ofS .fletcher8 d rfl h
theorem cobsEncode (d : List Byte) : Statement (.cobsEncode d) := fun h => ofS .cobsEncode d rfl h
theorem cobsDecode (d : List Byte) : Statement (.cobsDecode d) := fun h => ofS .cobsDecode d rfl h
theorem buildMotor (d : List Byte) : Statement (.buildMotor d) := fun h => ofS .buildMotor d rfl h
theorem buildSat (d : List Byte) : Statement (.buildSat d) := fun h => ofS .buildSat d rfl h
theorem buildCobs (d : List Byte) : Statement (.buildCobs d) := fun h => ofS .buildCobs d rfl h
theorem latchBegin : Statement .latchBegin := fun _ => ofZ .latchBegin rfl

theorem latchApply (f : Byte) (v : Word) : Statement (.latchApply f v) := fun _ =>
  ⟨(and_mask Opcode.latchApply.code f 0).2.2.2.1, by simp [encode, dataCount, Instr.opcode, Opcode.format, Format.hasData]⟩

theorem latchCommit (t : Time) : Statement (.latchCommit t) := fun _ =>
  ⟨(and_mask Opcode.latchCommit.code 0 0).2.2.2.2.1,
    by simp [encode, dataCount, Instr.opcode, Opcode.format, Format.hasData]⟩

theorem latchMarkAbsent : Statement .latchMarkAbsent := fun _ => ofZ .latchMarkAbsent rfl
theorem latchReadField (f : Byte) : Statement (.latchReadField f) := fun _ => ofA .latchReadField f rfl
theorem latchReadMeta : Statement .latchReadMeta := fun _ => ofZ .latchReadMeta rfl
theorem latchSnapshot : Statement .latchSnapshot := fun _ => ofZ .latchSnapshot rfl

theorem latchStale (now maxAge : Time) : Statement (.latchStale now maxAge) := fun _ =>
  ⟨(and_mask Opcode.latchStale.code 0 0).2.2.2.2.2,
    by simp [encode, dataCount, Instr.opcode, Opcode.format, Format.hasData]⟩

end Sys2Proof.Laws.EncodeMatchesRow
end

