-- ==== Sys2Proof/Tests/Slice0.lean ====
section
/-!
SUPPORT. Tests on fixed values, each expected result taken from the spec's text or its vectors (the section is named
in the comment), and for every obligation with hypotheses a witness that meets them, clause by clause.
-/

namespace Sys2Proof.Tests

open Sys2Proof Sys2Proof.Machine

/-! ### Helpers -/

/-- Does the outcome answer a next state with the property? -/
def answers (r : Result) (p : State → Bool) : Bool :=
  match r with
  | .next t => p t
  | .fault _ => false
  | .refused _ => false

/-- A link after reset and START of the protocol, with the worker on the port. -/
def link (proto : Protocol) : State := { State.reset with started := true, protoSel := proto }

/-- The same state with the receiver on the port. -/
def fromRcv (s : State) : State := { s with port := .rcv }

/-- The same state with a reader on the port. -/
def fromRdr (s : State) : State := { s with port := .rdr }

/-- Vectors T1 (spec/95_test_vectors.md 2.2): `start motor`, two bytes received, not yet handed off. -/
def filling : State := { link .motor with buf0 := [(0, 0x02), (1, 0x00)], remaining := 2 }

/-- T1 after `rx.event`: a signalled hand-off of `BUF[0]`, length 2. -/
def held : State :=
  { link .motor with buf0 := [(0, 0x02), (1, 0x00)], active := .b1, pending := true, readyIdx := .b0,
                     readyLen := 2, signal := true, fullSinceCheck := true }

/-- A link whose latch holds field 0 = 7 of the commit at 1000, with no transaction open (R236's example). -/
def committed : State :=
  { link .motor with latchVal := [(0, 7)], latchStage := [(0, 7)], latchTs := 1000, latchHasData := true,
                     latchPresent := true }

/-- The payload of a FEED result. -/
def fed (s : State) : List Frame :=
  match s.resp with
  | .feed fs _ _ => fs
  | _ => []

/-! ### Well-formedness: the only check is the data count of format S -/

theorem dataFits_replicate (n : Nat) (b : Byte) : dataFits (List.replicate n b) = decide (n ≤ 65535) := by
  rw [dataFits, List.length_replicate]

theorem test_wellFormed_refuses_65536_data_bytes :
    (Instr.feed (List.replicate 65536 0)).wellFormed = false ∧
    (Instr.validateBlock (List.replicate 65536 0)).wellFormed = false ∧
    (Instr.crc16Xmodem (List.replicate 65536 0)).wellFormed = false ∧
    (Instr.crc16CcittFalse (List.replicate 65536 0)).wellFormed = false ∧
    (Instr.fletcher8 (List.replicate 65536 0)).wellFormed = false ∧
    (Instr.cobsEncode (List.replicate 65536 0)).wellFormed = false ∧
    (Instr.cobsDecode (List.replicate 65536 0)).wellFormed = false ∧
    (Instr.buildMotor (List.replicate 65536 0)).wellFormed = false ∧
    (Instr.buildSat (List.replicate 65536 0)).wellFormed = false ∧
    (Instr.buildCobs (List.replicate 65536 0)).wellFormed = false := by
  simp only [Instr.wellFormed, dataFits_replicate]
  decide

theorem test_wellFormed_admits_65535_data_bytes : (Instr.feed (List.replicate 65535 0)).wellFormed = true := by
  simp only [Instr.wellFormed, dataFits_replicate]
  decide

/-! ### Decoding: the words of spec/95_test_vectors.md 2.5, one for every opcode -/

theorem test_decode_receiver_words :
    decode 0x01020000 [] = .ok (.rxByte 0x02) ∧ decode 0x02000000 [] = .ok .rxEvent := by decide

theorem test_decode_transport_words :
    decode 0x10000000 [] = .ok (.start 0) ∧ decode 0x10010000 [] = .ok (.start 1) ∧
    decode 0x10020000 [] = .ok (.start 2) ∧ decode 0x10030000 [] = .ok (.start 3) ∧
    decode 0x11000000 [] = .ok .take ∧ decode 0x12000005 [] = .ok (.readBuf 5) ∧
    decode 0x13000000 [] = .ok .done ∧ decode 0x14000000 [] = .ok .flush ∧
    decode 0x15050000 [] = .ok (.readReg 5) := by decide

theorem test_decode_decoder_words :
    decode 0x20000005 [0x02, 0x00, 0x00, 0x00, 0x03] = .ok (.feed [0x02, 0x00, 0x00, 0x00, 0x03]) ∧
    decode 0x21000002 [0x01, 0xAA] = .ok (.validateBlock [0x01, 0xAA]) := by decide

theorem test_decode_checksum_words :
    decode 0x30000003 [0x01, 0x02, 0x03] = .ok (.crc16Xmodem [0x01, 0x02, 0x03]) ∧
    decode 0x31000001 [0x00] = .ok (.crc16CcittFalse [0x00]) ∧
    decode 0x32000002 [0xFF, 0xFF] = .ok (.fletcher8 [0xFF, 0xFF]) ∧
    decode 0x33000004 [0x11, 0x22, 0x00, 0x33] = .ok (.cobsEncode [0x11, 0x22, 0x00, 0x33]) ∧
    decode 0x34000005 [0x03, 0x11, 0x22, 0x02, 0x33] = .ok (.cobsDecode [0x03, 0x11, 0x22, 0x02, 0x33]) ∧
    decode 0x35000003 [0x01, 0x02, 0x03] = .ok (.buildMotor [0x01, 0x02, 0x03]) ∧
    decode 0x36000002 [0x06, 0x01] = .ok (.buildSat [0x06, 0x01]) ∧
    decode 0x37000002 [0x01, 0x02] = .ok (.buildCobs [0x01, 0x02]) := by decide

theorem test_decode_latch_words :
    decode 0x40000000 [] = .ok .latchBegin ∧
    decode 0x41020004 [0x78, 0x56, 0x34, 0x12] = .ok (.latchApply 2 0x12345678) ∧
    decode 0x42000008 [0x88, 0x13, 0, 0, 0, 0, 0, 0] = .ok (.latchCommit 5000) ∧
    decode 0x43000000 [] = .ok .latchMarkAbsent ∧ decode 0x44030000 [] = .ok (.latchReadField 3) ∧
    decode 0x45000000 [] = .ok .latchReadMeta ∧ decode 0x46000000 [] = .ok .latchSnapshot ∧
    decode 0x47000010 [0xE0, 0x15, 0, 0, 0, 0, 0, 0, 0xF4, 0x01, 0, 0, 0, 0, 0, 0] =
      .ok (.latchStale 5600 500) := by decide

/-- 2.5, fault vectors: rejected words, each by name. -/
theorem test_decode_rejects_by_name :
    decode 0xFF000000 [] = .error .illegalOp ∧ decode 0x03000000 [] = .error .illegalOp ∧
    decode 0x11000001 [] = .error (.reservedField .take) ∧
    decode 0x02010000 [] = .error (.reservedField .rxEvent) ∧
    decode 0x41000003 [0, 0, 0] = .error (.badLength .latchApply) ∧
    decode 0x47000008 [0, 0, 0, 0, 0, 0, 0, 0] = .error (.badLength .latchStale) ∧
    decode 0x20000002 [0] = .error .notWhole := by decide

theorem test_encode_words :
    encode (.latchApply 2 0x12345678) = (0x41020004, [0x78, 0x56, 0x34, 0x12]) ∧
    encode (.latchStale 5600 500) =
      (0x47000010, [0xE0, 0x15, 0, 0, 0, 0, 0, 0, 0xF4, 0x01, 0, 0, 0, 0, 0, 0]) ∧
    encode (.readBuf 5) = (0x12000005, []) ∧ encode (.buildSat [0x06, 0x01]) = (0x36000002, [0x06, 0x01]) := by
  decide

theorem test_table_words :
    decodeTableWord 32 0x01020000 = some (.rxByte 2) ∧ decodeTableWord 32 0x15050000 = some (.readReg 5) ∧
    decodeTableWord 32 0x42000008 = some (.latchCommit 0) ∧ decodeTableWord 32 0x20000000 = some (.feed []) ∧
    decodeTableWord 64 0x1234567841020004 = some (.latchApply 2 0x12345678) ∧
    decodeTableWord 32 0xFF000000 = none := by decide

/-- The next step after `withFetchWord` runs the word: `start cobs` from reset (2.5). -/
theorem test_withFetchWord_start :
    answers (step (State.reset.withFetchWord 32 0x10020000)) (fun t => t.started && t.protoSel == .cobs) = true := by
  decide

/-! ### Reset (R42, T1's first row) -/

theorem test_reset_memory_is_canonical :
    Memory.wf State.reset.buf0 ∧ Memory.wf State.reset.buf1 ∧ Store.wf State.reset.latchVal := by decide

theorem test_reset_status_and_counters :
    statusWord State.reset = 0 ∧ State.reset.remaining = 4 ∧ State.reset.snapRemaining = 4 := by decide

/-! ### Transport (vectors 2.2) -/

/-- R150's example: `start sat` from reset gives STATUS = 0x101. -/
theorem test_start_sat : answers (exec (.start 1) State.reset) (fun t => statusWord t == 0x101) = true := by decide

/-- 2.5: START with `a` = 4 is BAD_PROTO, code 7. -/
theorem test_start_bad_proto :
    answers (exec (.start 4) State.reset) (fun t => t.faultCode == 7 && !t.started) = true := by decide

/-- R151's example. -/
theorem test_rx_byte :
    answers (exec (.rxByte 0x02) (fromRcv (link .motor)))
      (fun t => t.cell .b0 0 == some 0x02 && t.remaining == 3) = true := by decide

/-- T6: with `BUF_CAP` = 1 a byte that arrives while a hand-off is pending overruns. -/
theorem test_rx_byte_full_overruns :
    answers (exec (.rxByte 0x66)
        { fromRcv (link .motor) with params := { Config.resetParams with bufCap := 1 }, remaining := 1,
                                     active := .b1, pending := true, readyLen := 1, buf0 := [(0, 0x55)] })
      (fun t => t.overrunCount == 1 && t.cell .b0 0 == some 0x55 && t.cell .b1 0 == some 0x66 &&
        t.remaining == 1 && t.active == .b1) = true := by decide

/-- T1: `rx.event` after two bytes gives STATUS 0x02F. -/
theorem test_rx_event_hands_off :
    answers (exec .rxEvent (fromRcv filling))
      (fun t => statusWord t == 0x02F && t.readyLen == 2 && t.remaining == 4) = true := by decide

/-- T5: an RX_EVENT with no byte received changes nothing. -/
theorem test_rx_event_empty :
    answers (exec .rxEvent (fromRcv held)) (fun t => { t with resp := .nothing } == fromRcv held) = true := by decide

/-- T1: `take` returns (1, 0, 2), STATUS 0x027. -/
theorem test_take :
    answers (exec .take held) (fun t => t.resp == .take true .b0 2 && statusWord t == 0x027) = true := by decide

/-- T3: a flushed hand-off is not signalled. -/
theorem test_take_without_signal :
    answers (exec .take { held with signal := false }) (fun t => t.resp == .take false .b0 0) = true := by decide

/-- T1: `read.buf 0` = 0x02. -/
theorem test_read_buf : answers (exec (.readBuf 0) held) (fun t => t.resp == .byte 0x02) = true := by decide

/-- T1: `read.buf 2` is INDEX_RANGE. -/
theorem test_read_buf_index_range :
    answers (exec (.readBuf 2) held) (fun t => t.resp == .fault .indexRange .wrk 0) = true := by decide

/-- T1: `done` withdraws the hand-off and its signal, STATUS 0x023. -/
theorem test_done : answers (exec .done held) (fun t => statusWord t == 0x023) = true := by decide

/-- T1: a second `done` is NO_HANDOFF, code 8. -/
theorem test_done_twice : answers (exec .done (link .motor)) (fun t => t.faultCode == 8) = true := by decide

/-- T3: the first `flush` after bytes re-arms. -/
theorem test_flush_rearm :
    answers (exec .flush filling) (fun t => t.resp == .flush .rearm .b0 0 && t.snapRemaining == 2) = true := by decide

/-- T3: the second flushes: (FLUSHED, 0, 2), STATUS 0x007. -/
theorem test_flush_flushed :
    answers (exec .flush { filling with snapRemaining := 2 })
      (fun t => t.resp == .flush .flushed .b0 2 && statusWord t == 0x007) = true := by decide

/-- 2.5: after T1's `done`, register 0 = 0x023 and register 3 = 2. -/
theorem test_read_reg :
    answers (exec (.readReg 0) { held with pending := false, signal := false }) (fun t => t.resp == .reg 0x023) &&
    answers (exec (.readReg 3) { held with pending := false, signal := false }) (fun t => t.resp == .reg 2) =
      true := by decide

/-- 2.5: a reader's `read.reg 10` is BAD_REG, code 10. -/
theorem test_read_reg_bad : answers (exec (.readReg 10) (fromRdr State.reset)) (fun t => t.faultCode == 10) = true := by
  decide

/-! ### Decoders (vectors 2.3) -/

/-- M3: the rescan after a bad CRC leaves `[02 07 61 31 03]` and a need of 7. -/
theorem test_feed_motor_resync :
    answers (exec (.feed [0x02, 0x03, 0x01, 0x02, 0x07, 0x61, 0x31, 0x03]) (link .motor))
      (fun t => t.resp == .feed [] 8 7 && t.decP == [0x02, 0x07, 0x61, 0x31, 0x03]) = true := by decide +kernel

/-- S3, CB5 and R200's example `$AB$CD` LF: one FEED on each of the other protocols. -/
theorem test_feed_other_protocols :
    answers (exec (.feed [0xB5, 0xB5, 0x62, 0x06, 0x01, 0x00, 0x00, 0x07, 0x1B]) (link .sat))
      (fun t => t.resp == .feed [.sat 0x06 0x01 []] 9 1) &&
    answers (exec (.feed [1, 1, 1, 1, 1, 1, 0, 0x05, 0x01, 0x02, 0x7C, 0x0E, 0x00])
        { link .cobs with params := { Config.resetParams with cobsCap := 5 } })
      (fun t => t.resp == .feed [.cobs [0x01, 0x02]] 13 1) &&
    answers (exec (.feed [0x24, 0x41, 0x42, 0x24, 0x43, 0x44, 0x0A]) (link .ascii))
      (fun t => t.resp == .feed [.ascii [0x24, 0x43, 0x44, 0x0A]] 7 1) = true := by decide +kernel

/-- R202's examples. -/
theorem test_validate_block :
    validateBlock [0x03, 0x01, 0x02, 0x03] = ⟨true, .ok, [0x01, 0x02, 0x03]⟩ ∧
    validateBlock [0x03, 0x01, 0x02] = ⟨false, .short, []⟩ ∧
    validateBlock [40, 0, 0] = ⟨false, .lenRange, []⟩ := by decide

/-! ### Checksum kit (vectors 2.1) -/

theorem test_crc16_xmodem :
    answers (exec (.crc16Xmodem [0x01, 0x02, 0x03]) (fromRdr State.reset)) (fun t => t.resp == .crc 0x6131) = true := by
  decide +kernel

theorem test_crc16_ccitt_false :
    answers (exec (.crc16CcittFalse [0x12, 0x34]) (fromRdr State.reset)) (fun t => t.resp == .crc 0x0EC9) = true := by
  decide +kernel

theorem test_fletcher8 :
    answers (exec (.fletcher8 [0xFF, 0xFF]) (fromRdr State.reset)) (fun t => t.resp == .sums 0xFE 0xFD) = true := by
  decide +kernel

theorem test_cobs_encode :
    answers (exec (.cobsEncode [0x11, 0x00, 0x00]) (fromRdr State.reset))
      (fun t => t.resp == .bytes [0x02, 0x11, 0x01, 0x01]) = true := by decide +kernel

/-- 255 bytes `[01 02 … FF]` encode to 257 bytes that end in `02 FF`. -/
theorem test_cobs_encode_full_block :
    (cobsEncode ((List.range 255).map fun k => BitVec.ofNat 8 (k + 1))).length = 257 ∧
    (cobsEncode ((List.range 255).map fun k => BitVec.ofNat 8 (k + 1))).drop 255 = [0x02, 0xFF] := by decide +kernel

theorem test_cobs_decode :
    cobsDecode [0x02, 0x05, 0x01] = some [0x05, 0x00] ∧ cobsDecode [0x03, 0x11] = none ∧
    cobsDecode [0x02, 0x11, 0x00, 0x01] = none := by decide +kernel

theorem test_cobs_decode_command :
    answers (exec (.cobsDecode [0x03, 0x11]) (fromRdr State.reset)) (fun t => t.resp == .unstuffed false []) = true := by
  decide +kernel

theorem test_build_motor :
    answers (exec (.buildMotor [0x02, 0x03]) (fromRdr State.reset))
      (fun t => t.resp == .bytes [0x02, 0x02, 0x02, 0x03, 0x56, 0x01, 0x03]) = true := by decide +kernel

theorem test_build_sat :
    answers (exec (.buildSat [0x01, 0x07, 0xAA, 0xBB, 0xCC, 0xDD]) (fromRdr State.reset))
      (fun t => t.resp == .bytes [0xB5, 0x62, 0x01, 0x07, 0x04, 0x00, 0xAA, 0xBB, 0xCC, 0xDD, 0x1A, 0x9F]) = true := by
  decide +kernel

theorem test_build_sat_bad_length :
    answers (exec (.buildSat [0x06]) (fromRdr State.reset)) (fun t => t.faultCode == 4) = true := by decide +kernel

theorem test_build_cobs :
    answers (exec (.buildCobs [0x11, 0x00, 0x22]) (fromRdr State.reset))
      (fun t => t.resp == .bytes [0x02, 0x11, 0x04, 0x22, 0xEF, 0xBC, 0x00]) = true := by decide +kernel

/-! ### Latch (vectors 2.4, R236's example) -/

/-- A second BEGIN drops the staged change. -/
theorem test_latch_begin :
    answers (exec .latchBegin { committed with latchTxn := true, latchStage := [(0, 7), (1, 0x12345678)] })
      (fun t => t.latchTxn && t.latchStage == [(0, 7)]) = true := by decide

theorem test_latch_apply :
    answers (exec (.latchApply 2 0x12345678) { committed with latchTxn := true })
      (fun t => t.latchStage == [(0, 7), (2, 0x12345678)] && t.latchVal == [(0, 7)]) = true := by decide

theorem test_latch_commit :
    answers (exec (.latchCommit 2000) { committed with latchTxn := true })
      (fun t => t.latchVal == [(0, 7)] && t.latchTs == 2000 && !t.latchTxn) = true := by decide

theorem test_latch_mark_absent :
    answers (exec .latchMarkAbsent committed) (fun t => !t.latchPresent && t.latchHasData) = true := by decide

theorem test_latch_read_field :
    answers (exec (.latchReadField 0) (fromRdr committed)) (fun t => t.resp == .field true 7) &&
    answers (exec (.latchReadField 1) (fromRdr committed)) (fun t => t.resp == .field false 0) = true := by decide

/-- 2.5: `latch.read 4` with `K_FIELDS` = 4 is FIELD_RANGE, code 12. -/
theorem test_latch_read_field_range :
    answers (exec (.latchReadField 4) (fromRdr committed)) (fun t => t.faultCode == 12) = true := by decide

theorem test_latch_read_meta :
    answers (exec .latchReadMeta (fromRdr committed)) (fun t => t.resp == .latchMeta true true 1000) = true := by decide

theorem test_latch_snapshot :
    answers (exec .latchSnapshot (fromRdr committed))
      (fun t => t.resp == .snapshot true true 1000 [(true, 7), (false, 0), (false, 0), (false, 0)]) = true := by decide

/-- Age 500 is not stale, age 501 is, and a `now` before the commit wraps to a large age. -/
theorem test_latch_stale :
    answers (exec (.latchStale 1500 500) (fromRdr committed)) (fun t => t.resp == .stale false) &&
    answers (exec (.latchStale 1501 500) (fromRdr committed)) (fun t => t.resp == .stale true) &&
    answers (exec (.latchStale 999 500) (fromRdr committed)) (fun t => t.resp == .stale true) = true := by decide

/-! ### Faults (2.5) -/

/-- A reader's word 0x11000001 is WRONG_AGENT, checked before RESERVED_FIELD. -/
theorem test_wrong_agent_before_reserved_field :
    answers (step { link .motor with cmds := [⟨.rdr, 0x11000001, []⟩] })
      (fun t => t.resp == .fault .wrongAgent .rdr 0x11000001) = true := by decide

/-- The second fault leaves `FAULT_CODE` as the first set it. -/
theorem test_fault_code_is_sticky :
    answers (step { link .motor with faultCode := 1, cmds := [⟨.wrk, 0x03000000, []⟩] })
      (fun t => t.faultCode == 1 && t.resp == .fault .illegalOp .wrk 0x03000000) = true := by decide

/-! ### The printer (R98) -/

theorem test_assembler_line :
    asmLine .wrk (.buildSat [0x06, 0x01, 0xAA]) = "WRK: build.sat 0x06, 0x01, [AA]".toList ∧
    asmLine .rcv (.rxByte 0x02) = "RCV: rx.byte 0x02".toList := by decide

/-! ### Witnesses: good states -/

/-- A started link of any protocol, right after START. -/
theorem witness_link_inv (proto : Protocol) : (link proto).Inv where
  params := by cases proto <;> decide
  buffers := ⟨by cases proto <;> decide, by cases proto <;> decide, nofun, nofun⟩
  remaining := by cases proto <;> decide
  snapRemaining := by cases proto <;> decide
  filling := fun i hi => absurd hi (by simp [State.fill, link, State.reset, State.resetWith])
  otherBuffer := nofun
  signalled := nofun
  handedOff := nofun
  decoder := by cases proto <;> simp [DecState.good, State.dec, link, State.reset, State.resetWith, motorJudge, satJudge]
  slots := ⟨by cases proto <;> decide, by cases proto <;> decide, nofun, nofun⟩
  present := nofun
  faultCode := by cases proto <;> decide
  beforeStart := nofun

/-- T1's state with a reception open. -/
theorem witness_filling_inv : filling.Inv where
  params := by decide
  buffers := ⟨by decide, by decide, by unfold Store.below; decide, nofun⟩
  remaining := by decide
  snapRemaining := by decide
  filling := by unfold State.filled; decide
  otherBuffer := nofun
  signalled := nofun
  handedOff := nofun
  decoder := ⟨rfl, rfl⟩
  slots := ⟨by decide, by decide, nofun, nofun⟩
  present := nofun
  faultCode := by decide
  beforeStart := nofun

/-- T1's state with a hand-off pending. -/
theorem witness_held_inv : held.Inv where
  params := by decide
  buffers := ⟨by decide, by decide, by unfold Store.below; decide, nofun⟩
  remaining := by decide
  snapRemaining := by decide
  filling := by unfold State.filled; decide
  otherBuffer := by decide
  signalled := by decide
  handedOff := by unfold State.filled; decide
  decoder := ⟨rfl, rfl⟩
  slots := ⟨by decide, by decide, nofun, nofun⟩
  present := nofun
  faultCode := by decide
  beforeStart := nofun

/-- A link never started. -/
theorem witness_reset_inv : State.reset.Inv where
  params := by decide
  buffers := ⟨by decide, by decide, nofun, nofun⟩
  remaining := by decide
  snapRemaining := by decide
  filling := fun i hi => absurd hi (by simp [State.fill, State.reset, State.resetWith])
  otherBuffer := nofun
  signalled := nofun
  handedOff := nofun
  decoder := ⟨rfl, rfl⟩
  slots := ⟨by decide, by decide, nofun, nofun⟩
  present := nofun
  faultCode := by decide
  beforeStart := fun _ => rfl

/-! ### Witnesses: commands, faults -/

theorem witness_StepRunsTheDecodedCommand :
    ({ link .motor with cmds := [⟨.wrk, 0x11000000, []⟩] } : State).cmds = ⟨.wrk, 0x11000000, []⟩ :: [] ∧
    decode 0x11000000 [] = .ok .take := by decide

theorem witness_IdleBlockKeepsItsState : State.reset.cmds = [] := by decide

theorem witness_DecodingAnEncodedCommandGivesItBack :
    (Instr.latchStale 5600 500).wellFormed = true ∧ (Instr.feed [0x02]).wellFormed = true := by decide

theorem witness_EncodingADecodedCommandGivesItsWord :
    decode 0x41020004 [0x78, 0x56, 0x34, 0x12] = .ok (.latchApply 2 0x12345678) := by decide

/-- One word of each format with as many data bytes as R91 delivers, and one of format A and of format W whose `N` is not
the format's. -/
theorem witness_MaskAndMatchSelectTheOpcode :
    ([] : List Byte).length = 0 ∧ [(0 : Byte)].length = ((0x20000001 : Word).extractLsb' 0 16).toNat ∧
    [(1 : Byte), 2, 3, 4].length = ((0x41020004 : Word).extractLsb' 0 16).toNat ∧
    [(1 : Byte), 2, 3].length = ((0x41020003 : Word).extractLsb' 0 16).toNat ∧
    (List.replicate 8 (0 : Byte)).length = ((0x42000008 : Word).extractLsb' 0 16).toNat ∧
    (List.replicate 16 (0 : Byte)).length = ((0x47000010 : Word).extractLsb' 0 16).toNat ∧
    decode 0x11000000 [] = .ok .take ∧ decode 0x11000001 [] = .error (.reservedField .take) ∧
    decode 0x41020003 [1, 2, 3] = .error (.badLength .latchApply) := by decide

theorem witness_IllFormedWords_illegalOp_and_wrongAgent :
    Command.whole ⟨.wrk, 0xFF000000, []⟩ ∧ Opcode.ofByte (cwOp 0xFF000000) = none ∧
    Command.whole ⟨.rdr, 0x11000001, []⟩ ∧ Opcode.ofByte (cwOp 0x11000001) = some .take ∧
    Opcode.permits .take .rdr = false := by
  simp only [whole_iff]
  decide

/-- RESERVED_FIELD, for each format: `N` = 1 or `A` = 1 where R93 wants 0. -/
theorem witness_IllFormedWords_reservedField :
    Command.whole ⟨.wrk, 0x11000001, []⟩ ∧ Opcode.ofByte (cwOp 0x11000001) = some .take ∧
    Opcode.permits .take .wrk = true ∧ Opcode.format .take = .z ∧ cwN 0x11000001 ≠ 0 ∧
    Command.whole ⟨.wrk, 0x10000001, []⟩ ∧ Opcode.ofByte (cwOp 0x10000001) = some .start ∧
    Opcode.format .start = .a ∧ cwN 0x10000001 ≠ 0 ∧
    Command.whole ⟨.wrk, 0x12010000, []⟩ ∧ Opcode.ofByte (cwOp 0x12010000) = some .readBuf ∧
    Opcode.format .readBuf = .i ∧ cwA 0x12010000 ≠ 0 ∧
    Command.whole ⟨.wrk, 0x20010000, []⟩ ∧ Opcode.ofByte (cwOp 0x20010000) = some .feed ∧
    Opcode.format .feed = .s ∧ cwA 0x20010000 ≠ 0 ∧
    Command.whole ⟨.wrk, 0x42010008, List.replicate 8 0⟩ ∧ Opcode.ofByte (cwOp 0x42010008) = some .latchCommit ∧
    Opcode.format .latchCommit = .t8 ∧ cwA 0x42010008 ≠ 0 ∧
    Command.whole ⟨.rdr, 0x47010010, List.replicate 16 0⟩ ∧ Opcode.ofByte (cwOp 0x47010010) = some .latchStale ∧
    Opcode.permits .latchStale .rdr = true ∧ Opcode.format .latchStale = .t16 ∧ cwA 0x47010010 ≠ 0 := by
  simp only [whole_iff]
  decide

/-- BAD_LENGTH, with a count one below the fixed one. -/
theorem witness_IllFormedWords_badLength :
    Command.whole ⟨.wrk, 0x41000003, [0, 0, 0]⟩ ∧ Opcode.ofByte (cwOp 0x41000003) = some .latchApply ∧
    Opcode.permits .latchApply .wrk = true ∧ Opcode.format .latchApply = .w ∧ cwN 0x41000003 ≠ 4 ∧
    Command.whole ⟨.wrk, 0x42000007, List.replicate 7 0⟩ ∧ Opcode.ofByte (cwOp 0x42000007) = some .latchCommit ∧
    Opcode.format .latchCommit = .t8 ∧ cwA 0x42000007 = 0 ∧ cwN 0x42000007 ≠ 8 ∧
    Command.whole ⟨.rdr, 0x4700000F, List.replicate 15 0⟩ ∧ Opcode.ofByte (cwOp 0x4700000F) = some .latchStale ∧
    Opcode.format .latchStale = .t16 ∧ cwA 0x4700000F = 0 ∧ cwN 0x4700000F ≠ 16 := by
  simp only [whole_iff]
  decide

theorem witness_FaultWritesOnlyTheFaultRecord :
    exec .take State.reset = .next (State.reset.takeFault .notStarted) ∧
    (State.reset.takeFault .notStarted).resp = .fault .notStarted .wrk 0 := ⟨rfl, rfl⟩

/-- No command; a fault on a clean record, a completion on one, and a fault on a record that is not clean. -/
theorem witness_FaultCodeKeepsTheFirstFault :
    answers (step { State.reset with faultCode := 1 }) (fun t => t.cmds == []) &&
    answers (step { State.reset with cmds := [commandOf .wrk .take] })
      (fun t => t.resp == .fault .notStarted .wrk 0x11000000) &&
    answers (step { State.reset with cmds := [commandOf .wrk (.start 0)] }) (fun t => t.resp.isFault == false) &&
    answers (step { State.reset with faultCode := 1, cmds := [commandOf .wrk .take] }) (fun t => t.resp.isFault) =
      true := by decide

theorem witness_FaultsAreThoseOfTheTable :
    answers (step { State.reset with cmds := [⟨.wrk, 0x03000000, []⟩] })
      (fun t => t.resp == .fault .illegalOp .wrk 0x03000000) &&
    answers (step { State.reset with cmds := [⟨.wrk, 0x13000000, []⟩] })
      (fun t => t.resp == .fault .notStarted .wrk 0x13000000) = true := by decide

/-- Each agent with an opcode it may issue, whose command completes, and one it may not. -/
theorem witness_AgentsMayIssueOnlyTheirOpcodes :
    Instr.opcode .rxEvent ∈ [Opcode.rxByte, .rxEvent] ∧ Instr.opcode .take ∉ [Opcode.rxByte, .rxEvent] ∧
    Instr.opcode .latchReadMeta ∈ [Opcode.readReg, .latchReadMeta] ∧ Instr.opcode .done ∉ [Opcode.readReg] ∧
    answers (exec .rxEvent (fromRcv (link .motor))) (fun t => t.resp == .done) ∧
    answers (exec .take (link .motor)) (fun t => t.resp == .take false .b0 0) ∧
    answers (exec .latchReadMeta (fromRdr State.reset)) (fun t => t.resp == .latchMeta false false 0) := by decide

theorem witness_WorkerCommandsNeedAStartedLink :
    State.reset.port = .wrk ∧ State.reset.started = false ∧
    Instr.opcode (.latchCommit 1) ∈ [Opcode.take, .readBuf, .done, .flush, .feed, .latchBegin, .latchApply,
      .latchCommit, .latchMarkAbsent] := by decide

/-! ### Witnesses: transport -/

/-- Every clause, the operand at 3 and 4 where the last protocol and BAD_PROTO meet. -/
theorem witness_StartSelectsTheProtocolOnce :
    (link .motor).port = .wrk ∧ (link .motor).started = true ∧ State.reset.port = .wrk ∧
    State.reset.started = false ∧ 3 < (4 : Byte).toNat ∧ (0 : Byte).toNat = 0 ∧ (1 : Byte).toNat = 1 ∧
    (2 : Byte).toNat = 2 ∧ (3 : Byte).toNat = 3 := by decide

/-- Before START; `REMAINING` = 2, then the last free cell (1) with and without a pending hand-off. -/
theorem witness_RxByteStoresAtFillAndEndsAFullReception :
    (fromRcv State.reset).port = .rcv ∧ (fromRcv State.reset).started = false ∧
    (fromRcv filling).started = true ∧ 1 ≤ filling.remaining.toNat ∧
    filling.remaining.toNat ≤ filling.params.bufCap.toNat ∧ filling.remaining.toNat ≠ 1 ∧
    ({ filling with remaining := 1 } : State).remaining.toNat = 1 ∧ filling.pending = false ∧
    ({ held with remaining := 1 } : State).remaining.toNat = 1 ∧ held.pending = true ∧ held.started = true := by decide

theorem witness_RxEventHandsOffOrOverruns :
    (fromRcv State.reset).port = .rcv ∧ State.reset.started = false ∧ held.remaining = held.params.bufCap ∧
    filling.started = true ∧ filling.remaining ≠ filling.params.bufCap ∧ filling.pending = false ∧
    ({ held with remaining := 3 } : State).remaining ≠ held.params.bufCap ∧ held.pending = true ∧
    held.started = true := by decide

theorem witness_TakeReturnsASignalledHandOffOnce :
    State.reset.port = .wrk ∧ State.reset.started = false ∧ held.port = .wrk ∧ held.started = true ∧
    held.signal = true ∧ filling.started = true ∧ filling.signal = false := by decide

/-- The indexes 1 and 2 at the end of a hand-off of length 2. -/
theorem witness_ReadBufReturnsTheReadyByte :
    State.reset.started = false ∧ filling.started = true ∧ filling.pending = false ∧ held.port = .wrk ∧
    held.started = true ∧ held.pending = true ∧ held.readyLen ≤ 2 ∧ (1 : Half) < held.readyLen ∧
    (1 : Half) < held.params.bufCap ∧ held.cell held.readyIdx 1 = some 0x00 := by decide

theorem witness_DoneConsumesTheHandOff :
    State.reset.started = false ∧ filling.port = .wrk ∧ filling.started = true ∧ filling.pending = false ∧
    held.port = .wrk ∧ held.started = true ∧ held.pending = true := by decide

/-- REARM by either cause, BUSY, EMPTY and FLUSHED. -/
theorem witness_FlushRearmsOrHandsOffAQuietBuffer :
    held.port = .wrk ∧ held.started = true ∧ held.fullSinceCheck = true ∧ filling.remaining ≠ filling.snapRemaining ∧
    ({ held with fullSinceCheck := false } : State).fullSinceCheck = false ∧ held.remaining = held.snapRemaining ∧
    held.pending = true ∧ (link .motor).fullSinceCheck = false ∧ (link .motor).pending = false ∧
    (link .motor).remaining = (link .motor).snapRemaining ∧ (link .motor).remaining = (link .motor).params.bufCap ∧
    ({ filling with snapRemaining := 2 } : State).remaining = 2 ∧ filling.fullSinceCheck = false ∧
    filling.pending = false ∧ filling.remaining ≠ filling.params.bufCap ∧ filling.started = true ∧
    State.reset.started = false := by decide

/-- The register numbers 0 to 10, with the side conditions of FILL and DEC_PLEN. -/
theorem witness_ReadRegReturnsTheRegister :
    held.port ≠ .rcv ∧ filling.remaining.toNat ≤ filling.params.bufCap.toNat ∧ filling.decP.length < 2 ^ 17 ∧
    ((List.range 11).map fun n => (BitVec.ofNat 8 n : Byte).toNat) = List.range 11 ∧ 9 < (10 : Byte).toNat := by decide

/-- A command outside every set of the statement completes. -/
theorem witness_EachElementIsWrittenOnlyByItsCommands :
    exec .latchReadMeta (link .motor) =
      .next { link .motor with resp := .latchMeta false false 0 } := rfl

/-- Each flag raised and each flag cleared by a step. -/
theorem witness_FlagsAreSetAndClearedByTheirCommands :
    answers (exec .rxEvent (fromRcv filling)) (fun t => t.pending && t.signal && t.fullSinceCheck) ∧
    answers (exec .done held) (fun t => !t.pending && !t.signal) ∧
    answers (exec .flush held) (fun t => !t.fullSinceCheck) ∧
    answers (exec (.start 0) State.reset) (fun t => t.started) ∧
    answers (exec .latchBegin (link .motor)) (fun t => t.latchTxn) ∧
    answers (exec (.latchCommit 1) { link .motor with latchTxn := true })
      (fun t => !t.latchTxn && t.latchHasData && t.latchPresent) ∧
    answers (exec .latchMarkAbsent committed) (fun t => !t.latchPresent) := by decide

/-- Two receiver commands and a TAKE while a hand-off is held. -/
theorem witness_HeldHandOffIsUntouchedUntilDone :
    ({ held with cmds := [commandOf .rcv (.rxByte 0xAA), commandOf .rcv .rxEvent, commandOf .wrk .take] } : State).Inv ∧
    held.pending = true ∧
    (∀ c ∈ [commandOf .rcv (.rxByte 0xAA), commandOf .rcv .rxEvent, commandOf .wrk .take], cwOp c.cw ≠ 0x13) ∧
    answers (runSteps 3
        { held with cmds := [commandOf .rcv (.rxByte 0xAA), commandOf .rcv .rxEvent, commandOf .wrk .take] })
      (fun t => t.overrunCount == 1 && t.cmds == []) :=
  ⟨inv_port witness_held_inv _ _ _ _, by decide, by decide, by decide⟩

/-- A history of an open reception, and one of a hand-off. -/
theorem witness_HandOffsCarryTheReceivedBytesInOrder :
    filling.Inv ∧ History.tells ⟨[0x02, 0x00], []⟩ filling ∧
    answers (exec .rxEvent (fromRcv filling)) (fun t => t.pending) ∧
    held.Inv ∧ History.tells ⟨[], [[0x02, 0x00]]⟩ held :=
  ⟨witness_filling_inv, ⟨by decide, nofun⟩, by decide, witness_held_inv,
    ⟨by decide, fun _ => ⟨[0x02, 0x00], by decide⟩⟩⟩

/-- Three bytes, one fewer than the buffer holds. -/
theorem witness_ShortReceptionIsHandedOffByteForByte :
    (link .motor).params.wf ∧ (link .motor).started = true ∧ (link .motor).pending = false ∧
    (link .motor).remaining = (link .motor).params.bufCap ∧ 0 < [(1 : Byte), 2, 3].length ∧
    [(1 : Byte), 2, 3].length < (link .motor).params.bufCap.toNat ∧
    answers (runSteps 4 { link .motor with cmds := rxBytes [1, 2, 3] ++ [commandOf .rcv .rxEvent] })
      (fun t => t.readyLen == 3 && t.signal) := by decide

/-- Four bytes fill the buffer: the counter is back at its old value and the flag decides. -/
theorem witness_FlushAfterNewBytesRearms :
    ({ link .motor with cmds := rxBytes [1, 2, 3, 4] ++ commandOf .wrk .flush :: [] } : State).Inv ∧
    (link .motor).started = true ∧ (link .motor).fullSinceCheck = false ∧
    (link .motor).snapRemaining = (link .motor).remaining ∧ [(1 : Byte), 2, 3, 4] ≠ [] ∧
    answers (runSteps 5 { link .motor with cmds := rxBytes [1, 2, 3, 4] ++ commandOf .wrk .flush :: [] })
      (fun t => t.resp == .flush .rearm .b0 0 && t.remaining == 4) :=
  ⟨inv_port (witness_link_inv .motor) _ _ _ _, by decide, by decide, by decide, by decide, by decide⟩

/-- Each clause runs on T1's open reception; the full event with one cell free, and with `BUF_CAP` = 1, where
`REMAINING` = 1 is the empty buffer. -/
theorem witness_ReceptionEndAndFlushFollowTheirOrder :
    filling.params.wf ∧ filling.started = true ∧ filling.pending = false ∧ filling.remaining ≠ filling.params.bufCap ∧
    filling.fullSinceCheck = false ∧ ({ filling with snapRemaining := 2 } : State).remaining = 2 ∧
    ({ filling with remaining := 1 } : State).remaining = 1 ∧ [(1 : Byte), 2, 3, 4].length = filling.params.bufCap.toNat ∧
    answers (runSteps 2 { filling with cmds := [commandOf .rcv .rxEvent, commandOf .wrk .flush] })
      (fun t => t.resp == .flush .rearm .b0 0 && t.signal) ∧
    answers (runSteps 2 { filling with remaining := 1, cmds := [commandOf .rcv (.rxByte 9), commandOf .wrk .flush] })
      (fun t => t.resp == .flush .rearm .b0 0 && t.signal && t.readyLen == 4) ∧
    answers (runSteps 3 { filling with snapRemaining := 2, cmds := [commandOf .wrk .flush,
        commandOf .rcv (.rxByte 9), commandOf .rcv .rxEvent] })
      (fun t => t.overrunCount == 1 && t.readyLen == 2 && !t.signal) ∧
    answers (runSteps 5 { filling with snapRemaining := 2, cmds := commandOf .wrk .flush :: rxBytes [1, 2, 3, 4] })
      (fun t => t.overrunCount == 1 && t.readyLen == 2 && t.remaining == 4 && !t.signal) := by decide

/-- One cell is all the buffer has: the byte is a reception of its own, and the FLUSH after it answers REARM. -/
theorem witness_ReceptionEndAndFlush_oneCell :
    ({ Config.resetParams with bufCap := 1 } : Params).wf ∧
    answers (runSteps 2
        { State.resetWith { Config.resetParams with bufCap := 1 } with
          started := true, cmds := [commandOf .rcv (.rxByte 9), commandOf .wrk .flush] })
      (fun t => t.resp == .flush .rearm .b0 0 && t.signal && t.readyLen == 1) := by decide

/-! ### Witnesses: checksum kit -/

theorem witness_ChecksumCommandsReturnTheirValue :
    (fromRdr State.reset).port ≠ .rcv ∧ cobsDecode [0x02, 0x05] = some [0x05] ∧ cobsDecode [0x00] = none := by decide

theorem witness_CrcSeesEveryOneByteChange : (0x03 : Byte) ≠ 0x07 := by decide

/-- A block of 253 and one of 254 non-zero bytes, and a rest. -/
theorem witness_CobsEncodeClosesBlocks :
    (0 : Byte) ∉ List.replicate 253 (0x41 : Byte) ∧ (List.replicate 253 (0x41 : Byte)).length < 254 ∧
    (0 : Byte) ∉ List.replicate 254 (0x41 : Byte) ∧ (List.replicate 254 (0x41 : Byte)).length = 254 ∧
    ([0x33] : List Byte) ≠ [] := by
  simp only [List.length_replicate, List.mem_replicate]
  decide

/-- A code byte that just runs past the end, one that just fits, and the code 0xFF. -/
theorem witness_CobsDecodeFollowsTheBlockLoop :
    (0x03 : Byte) ≠ 0 ∧ (0x03 : Byte).toNat > [(0x11 : Byte)].length + 1 ∧
    [(0x11 : Byte), 0x22].length + 1 = (0x03 : Byte).toNat ∧
    (List.replicate 254 (0x11 : Byte)).length + 1 = (0xFF : Byte).toNat := by
  simp only [List.length_replicate]
  decide

theorem witness_CobsStuffingLaws :
    (List.replicate 300 (0x41 : Byte)).length = 300 ∧ (0 : Byte) ∉ List.replicate 300 (0x41 : Byte) := by
  simp only [List.length_replicate, List.mem_replicate]
  decide

/-- A payload that just fits and one that just does not, by either bound. -/
theorem witness_BuildMotorReturnsTheFrame :
    (fromRdr State.reset).port ≠ .rcv ∧ (List.replicate 255 (0x55 : Byte)).length ≤ 255 ∧
    (List.replicate 255 (0x55 : Byte)).length + 5 ≤ State.reset.params.motorCap ∧
    (List.replicate 256 (0x55 : Byte)).length > 255 ∧
    [(1 : Byte), 2, 3, 4].length + 5 > ({ Config.resetParams with motorCap := 8 } : Params).motorCap := by
  simp only [List.length_replicate]
  decide

theorem witness_BuildSatReturnsTheFrame :
    (fromRdr State.reset).port ≠ .rcv ∧ [(0x06 : Byte)].length < 2 ∧
    [(1 : Byte), 2, 3].length + 8 > ({ Config.resetParams with satCap := 10 } : Params).satCap ∧
    [(1 : Byte), 2].length + 8 ≤ ({ Config.resetParams with satCap := 10 } : Params).satCap := by decide

/-- `[01 02]` encodes to 5 bytes: it fits a cap of 5, and three bytes do not. -/
theorem witness_BuildCobsReturnsTheFrame :
    (fromRdr State.reset).port ≠ .rcv ∧ [(0x01 : Byte)].length < 2 ∧ 2 ≤ [(0x01 : Byte), 0x02].length ∧
    (cobsStuffed [0x01, 0x02]).length ≤ ({ Config.resetParams with cobsCap := 5 } : Params).cobsCap ∧
    (cobsStuffed [0x01, 0x02, 0x03]).length > ({ Config.resetParams with cobsCap := 5 } : Params).cobsCap := by
  decide +kernel

theorem witness_BuiltFramesDecodeToTheirPayload :
    (link .motor).params.wf ∧ (link .motor).port = .wrk ∧ (link .motor).started = true ∧ (link .motor).decP = [] ∧
    (link .motor).decMode = .normal ∧
    answers (exec (.buildMotor [1, 2, 3]) (link .motor))
      (fun t => t == { link .motor with resp := .bytes [2, 3, 1, 2, 3, 0x61, 0x31, 3] }) ∧
    answers (exec (.buildSat [6, 1]) (link .sat))
      (fun t => t == { link .sat with resp := .bytes [0xB5, 0x62, 6, 1, 0, 0, 7, 0x1B] }) ∧
    answers (exec (.buildCobs [1, 2]) (link .cobs))
      (fun t => t == { link .cobs with resp := .bytes [5, 1, 2, 0x7C, 0x0E, 0] }) := by decide +kernel

/-! ### Witnesses: decoders -/

theorem witness_FeedRunsTheByteSteps :
    State.reset.port = .wrk ∧ State.reset.started = false ∧ (link .cobs).port = .wrk ∧ (link .cobs).started = true ∧
    feedBytes Config.resetParams .cobs [0x01, 0x00] ⟨[], .normal⟩ = ([], ⟨[], .normal⟩) := by decide +kernel

theorem witness_SplitFeedsEqualOneFeed : (link .sat).port = .wrk ∧ (link .sat).started = true := by decide

/-- Each clause: lengths at the cap and one above, a frame one byte short, a whole frame, a wrong trailer. -/
theorem witness_MotorDecoderFollowsItsLoop :
    (0x55 : Byte) ≠ 0x02 ∧ (4 : Byte).toNat + 5 > 8 ∧ (3 : Byte).toNat + 5 ≤ 8 ∧
    [(1 : Byte), 2, 3, 0x61, 0x31].length + 2 < (3 : Byte).toNat + 5 ∧
    [(1 : Byte), 2, 3].length = (3 : Byte).toNat ∧
    256 * (0x61 : Byte).toNat + (0x31 : Byte).toNat = (crc16 0x0000 [1, 2, 3]).toNat ∧ (0x04 : Byte) ≠ 0x03 := by
  decide +kernel

/-- Each clause, with `SAT_CAP` = 12 for the frame of length 4 and 11 for the clause above the cap. -/
theorem witness_SatDecoderFollowsItsLoop :
    (0x55 : Byte) ≠ Config.resetParams.satSync1 ∧ (0x55 : Byte) ≠ Config.resetParams.satSync2 ∧
    [(1 : Byte), 7, 4].length < 4 ∧ (4 : Byte).toNat + 256 * (0 : Byte).toNat + 8 > 11 ∧
    (4 : Byte).toNat + 256 * (0 : Byte).toNat + 8 ≤ 12 ∧
    [(0xAA : Byte), 0xBB, 0xCC, 0xDD, 0x1A].length + 6 < (4 : Byte).toNat + 256 * (0 : Byte).toNat + 8 ∧
    [(0xAA : Byte), 0xBB, 0xCC, 0xDD].length = (4 : Byte).toNat + 256 * (0 : Byte).toNat ∧
    ((0x1A : Byte), (0x9F : Byte)) = fletcher8 ([1, 7, 4, 0] ++ [0xAA, 0xBB, 0xCC, 0xDD]) ∧
    ((0x1A : Byte), (0x9E : Byte)) ≠ fletcher8 ([1, 7, 4, 0] ++ [0xAA, 0xBB, 0xCC, 0xDD]) := by decide +kernel

/-- A byte at the cap and below it, a frame that passes `cobs_ok`, and one whose decoded length is 2. -/
theorem witness_CobsDecoderFollowsItsStep :
    (0x01 : Byte) ≠ 0 ∧ [(1 : Byte), 1, 1, 1, 1].length = ({ Config.resetParams with cobsCap := 5 } : Params).cobsCap ∧
    [(1 : Byte), 1, 1, 1].length ≠ ({ Config.resetParams with cobsCap := 5 } : Params).cobsCap ∧
    cobsDecode [5, 1, 2, 0x7C, 0x0E] = some ([1, 2] ++ [0x7C, 0x0E]) ∧ 2 ≤ [(1 : Byte), 2].length ∧
    (0x7C : Byte).toNat + 256 * (0x0E : Byte).toNat = (crc16 0xFFFF [1, 2]).toNat ∧
    cobsDecode [5, 0x11] = none := by decide +kernel

theorem witness_AsciiFramerFollowsItsStep :
    (0x41 : Byte) ≠ 0x24 ∧ (0x41 : Byte) ≠ 0x0A ∧
    [(0x24 : Byte), 0x41, 0x42, 0x43, 0x44].length = ({ Config.resetParams with asciiCap := 5 } : Params).asciiCap ∧
    [(0x24 : Byte), 0x41, 0x42, 0x43].length ≠ ({ Config.resetParams with asciiCap := 5 } : Params).asciiCap := by
  decide

/-- One FEED on each protocol from a good state, and a continuation shorter than the need. -/
theorem witness_FeedNeedIsTheBytesStillMissing :
    (link .motor).Inv ∧ (link .sat).Inv ∧
    answers (exec (.feed [2, 3, 1]) (link .motor)) (fun t => t.resp == .feed [] 3 5) ∧
    answers (exec (.feed [2]) (link .motor)) (fun t => t.resp == .feed [] 1 1) ∧
    answers (exec (.feed [0xB5, 0x62, 1, 7, 4, 0]) (link .sat)) (fun t => t.resp == .feed [] 6 6) ∧
    answers (exec (.feed [0xB5, 0x62, 1]) (link .sat)) (fun t => t.resp == .feed [] 3 1) ∧
    answers (exec (.feed [5]) (link .cobs)) (fun t => t.resp == .feed [] 1 1) ∧
    answers (exec (.feed [0x24]) (link .ascii)) (fun t => t.resp == .feed [] 1 1) ∧
    ([(2 : Byte), 3, 0x61, 0x31].length : Int) < 5 ∧
    answers (exec (.feed [2, 3, 0x61, 0x31]) { link .motor with decP := [2, 3, 1] }) (fun t => t.resp == .feed [] 4 1) :=
  ⟨witness_link_inv _, witness_link_inv _, by decide +kernel, by decide +kernel, by decide +kernel,
    by decide +kernel, by decide +kernel, by decide +kernel, by decide, by decide +kernel⟩

/-- A frame emitted on each protocol (M1, S1 shortened, CB2, the ASCII example). -/
theorem witness_EmittedFramesWereReceivedWhole :
    (link .ascii).Inv ∧
    answers (exec (.feed [0x55, 2, 3, 1, 2, 3, 0x61, 0x31, 3]) (link .motor)) (fun t => fed t == [.motor [1, 2, 3]]) ∧
    answers (exec (.feed [0xB5, 0x62, 6, 1, 0, 0, 7, 0x1B]) (link .sat)) (fun t => fed t == [.sat 6 1 []]) ∧
    answers (exec (.feed [0, 5, 1, 2, 0x7C, 0x0E, 0]) (link .cobs)) (fun t => fed t == [.cobs [1, 2]]) ∧
    answers (exec (.feed [0x24, 0x0A]) (link .ascii)) (fun t => fed t == [.ascii [0x24, 0x0A]]) :=
  ⟨witness_link_inv _, by decide +kernel, by decide +kernel, by decide +kernel, by decide +kernel⟩

/-- With a start byte pending (`MOTOR_CAP` = 5, `SAT_CAP` = 8): M5's frame with its trailer corrupted and a corrupted SAT
frame, each in front of the same frame intact; a line at the cap; a stuffed frame at the cap, from DISCARD. -/
theorem witness_NextFrameSurvivesCorruption :
    ({ Config.resetParams with motorCap := 5, satCap := 8, cobsCap := 5, asciiCap := 5 } : Params).wf ∧
    DecState.good { Config.resetParams with motorCap := 5 } .motor ⟨[2], .normal⟩ ∧
    5 ≤ (motorFrame [] ++ []).length + 1 ∧
    (∀ k < 6, motorJudge 5 (([2] ++ [2, 0, 0, 0, 4] ++ motorFrame [] ++ []).drop k) = .reject) ∧
    DecState.good { Config.resetParams with satCap := 8 } .sat ⟨[0xB5], .normal⟩ ∧
    8 ≤ (satFrame Config.resetParams 6 1 [] ++ []).length + 1 ∧
    (∀ k < 9, satJudge 0xB5 0x62 8
      (([0xB5] ++ [0xB5, 0x62, 6, 1, 0, 0, 7, 0x1C] ++ satFrame Config.resetParams 6 1 [] ++ []).drop k) = .reject) ∧
    (0x24 : Byte) ∉ [(0x41 : Byte), 0x42, 0x43] ∧ (0x0A : Byte) ∉ [(0x41 : Byte), 0x42, 0x43] ∧
    [(0x41 : Byte), 0x42, 0x43].length + 2 ≤ 5 ∧ DecState.good Config.resetParams .cobs ⟨[], .discard⟩ ∧
    2 ≤ [(1 : Byte), 2].length ∧ (cobsStuffed [1, 2]).length ≤ 5 :=
  ⟨by decide, ⟨rfl, rfl⟩, by decide, by decide +kernel, ⟨rfl, rfl⟩, by decide, by decide +kernel, by decide, by decide,
    by decide, by simp [DecState.good], by decide, by decide +kernel⟩

/-- The length bytes 0, 1, 32 and 33 at the ends of the range, and a data length one short. -/
theorem witness_ValidateBlockChecksTheLength :
    (fromRdr State.reset).port ≠ .rcv ∧ (0 : Byte).toNat < 1 ∧ 32 < (33 : Byte).toNat ∧ 1 ≤ (1 : Byte).toNat ∧
    (32 : Byte).toNat ≤ 32 ∧ ([] : List Byte).length < (1 : Byte).toNat ∧ [(0xAA : Byte)].length = (1 : Byte).toNat ∧
    (List.replicate 32 (0 : Byte)).length = (32 : Byte).toNat := by decide

/-! ### Witnesses: latch -/

/-- Before START; field numbers 3 and 4 with `K_FIELDS` = 4, with and without a transaction. -/
theorem witness_LatchTransactionCommandsWriteTheirElements :
    State.reset.port = .wrk ∧ State.reset.started = false ∧
    committed.port = .wrk ∧ committed.started = true ∧ committed.latchTxn = false ∧
    ({ committed with latchTxn := true } : State).latchTxn = true ∧ committed.params.kFields ≤ (4 : Byte).toNat ∧
    (3 : Byte).toNat < committed.params.kFields := by decide

theorem witness_LatchReadersReturnTheCommittedState :
    (fromRdr committed).port ≠ .rcv ∧ committed.params.kFields ≤ (4 : Byte).toNat ∧
    (3 : Byte).toNat < committed.params.kFields ∧ Store.read committed.latchVal 3 = none ∧
    Store.read committed.latchVal 0 = some 7 := by decide

theorem witness_LatchStaleComparesTheAge :
    (fromRdr State.reset).port ≠ .rcv ∧ State.reset.latchHasData = false ∧ committed.latchHasData = true := by decide

/-- A snapshot with and without a staged value. -/
theorem witness_ReadersNeverSeeStagedSlots :
    (fromRdr committed).port = .rdr ∧
    exec .latchSnapshot (fromRdr committed) =
      .next { fromRdr committed with resp := .snapshot true true 1000 [(true, 7), (false, 0), (false, 0), (false, 0)] } ∧
    exec .latchSnapshot { fromRdr committed with latchStage := [(1, 9)] } =
      .next { fromRdr committed with
        latchStage := [(1, 9)]
        resp := .snapshot true true 1000 [(true, 7), (false, 0), (false, 0), (false, 0)] } := ⟨rfl, rfl, rfl⟩

/-- A field applied twice, the last field, and one that is not applied. -/
theorem witness_LatchUpdatePublishesInOneStep :
    committed.started = true ∧ (∀ e ∈ [((1 : Byte), (5 : Word)), (3, 6), (1, 8)], e.1.toNat < committed.params.kFields) ∧
    answers (runSteps 5 { committed with cmds := latchUpdate 2000 [(1, 5), (3, 6), (1, 8)] })
      (fun t => t.latchVal == [(0, 7), (1, 8), (3, 6)] && t.latchTs == 2000) = true := by
  simp only [List.forall_mem_cons, List.not_mem_nil, false_imp_iff, implies_true, and_true]
  exact ⟨by decide, by decide, by decide +kernel⟩

/-! ### Witnesses: reset, invariant, platform -/

/-- The parameters of reset, and the least legal ones. -/
theorem witness_ResetMeetsTheInvariant :
    Config.resetParams.wf ∧
    ({ bufCap := 1, motorCap := 5, satCap := 8, cobsCap := 5, asciiCap := 2, satSync1 := 0, satSync2 := 0,
       kFields := 1 } : Params).wf := by decide

theorem witness_EveryStepKeepsTheInvariant :
    ({ held with cmds := [commandOf .wrk .done] } : State).Inv ∧
    answers (step { held with cmds := [commandOf .wrk .done] }) (fun t => !t.pending) :=
  ⟨inv_port witness_held_inv _ _ _ _, by decide⟩

theorem witness_NoCommandStopsAGoodState :
    ({ held with cmds := [commandOf .wrk (.readBuf 1)] } : State).Inv ∧
    ∀ c ∈ [commandOf .wrk (.readBuf 1)], c.whole := by
  refine ⟨inv_port witness_held_inv _ _ _ _, ?_⟩
  simp only [List.mem_singleton, forall_eq, whole_iff]
  decide

theorem witness_ReachableStatesMeetTheSixItems :
    Config.resetParams.wf ∧
    answers (runSteps 4 { State.resetWith Config.resetParams with
        cmds := [commandOf .wrk (.start 0), commandOf .rcv (.rxByte 2), commandOf .rcv .rxEvent,
          commandOf .wrk (.feed [2])] })
      (fun t => t.pending && t.signal && t.decP == [2]) := by decide +kernel

/-- The link that steps is the first of two. -/
theorem witness_LinksAreIndependent :
    ([{ State.reset with cmds := [commandOf .wrk .take] }, State.reset] : Platform)[0]? =
      some { State.reset with cmds := [commandOf .wrk .take] } ∧
    platformStep 0 [{ State.reset with cmds := [commandOf .wrk .take] }, State.reset] =
      .next [{ State.reset with
        faultCode := 5, port := .wrk, cw := 0x11000000, resp := .fault .notStarted .wrk 0x11000000 }, State.reset] ∧
    (1 : Nat) ≠ 0 := ⟨rfl, rfl, by decide⟩

end Sys2Proof.Tests
end

section
/-!
PROOFS. The step of a platform of several links (R6, R272): it replaces the state of the link that steps and no other.
-/

namespace Sys2Proof.Machine

/-- The step of an existing link goes on exactly when the link's own step does, and then only replaces that link. -/
theorem platformStep_eq_next_iff {k : Nat} {p q : Platform} {s : State} (hs : p[k]? = some s) :
    platformStep k p = .next q ↔ ∃ t, step s = .next t ∧ q = p.set k t := by
  simp only [platformStep, hs]
  cases step s with
  | next t => simp [eq_comm]
  | fault r => simp
  | refused r => simp

/-- Replacing an existing link stores the new state there and keeps every other link. -/
theorem platform_set_getElem? {k : Nat} {p : Platform} {s : State} (hs : p[k]? = some s) (t : State) :
    (p.set k t)[k]? = some t ∧ ∀ j, j ≠ k → (p.set k t)[j]? = p[j]? := by
  obtain ⟨hk, -⟩ := List.getElem?_eq_some_iff.mp hs
  exact ⟨List.getElem?_set_self hk, fun _ hj => List.getElem?_set_ne hj.symm⟩

/-- Settles O60: the platform's step is the link's own step followed by a replacement of that link. -/
theorem linksAreIndependent : Obligations.LinksAreIndependent := by
  intro k p s hs
  constructor
  · intro t ht
    exact ⟨p.set k t, (platformStep_eq_next_iff hs).mpr ⟨t, ht, rfl⟩, platform_set_getElem? hs t⟩
  · intro q hq
    obtain ⟨t, ht, rfl⟩ := (platformStep_eq_next_iff hs).mp hq
    exact ⟨t, ht, platform_set_getElem? hs t⟩

end Sys2Proof.Machine
end

section
/-!
PROOFS. What each command writes, element by element (R39, R60, R67), and FAULT_CODE's stickiness (R37).
-/

namespace Sys2Proof.Machine

/-! ### The receive path writes only its own elements -/

/-- `t` differs from `s` at most in the two buffers and the elements of the receive path (R22 to R29). -/
def State.receiveOnly (s t : State) : Prop :=
  t = { s with buf0 := t.buf0, buf1 := t.buf1, active := t.active, remaining := t.remaining, pending := t.pending,
               readyIdx := t.readyIdx, readyLen := t.readyLen, signal := t.signal,
               snapRemaining := t.snapRemaining, fullSinceCheck := t.fullSinceCheck,
               overrunCount := t.overrunCount }

theorem receiveOnly_refl (s : State) : s.receiveOnly s := rfl

theorem receiveOnly_trans {s t u : State} (hst : s.receiveOnly t) (htu : t.receiveOnly u) : s.receiveOnly u := by
  unfold State.receiveOnly at hst htu ⊢
  rw [hst] at htu
  exact htu

theorem storeByte_receiveOnly (b : Byte) (s : State) : s.receiveOnly (storeByte b s) := by
  unfold State.receiveOnly storeByte
  cases s.active <;> rfl

theorem receiverEvent_receiveOnly (s : State) : s.receiveOnly (receiverEvent s) := by
  rcases receiverEvent_cases s with ⟨-, h⟩ | ⟨-, -, h⟩ | ⟨-, -, h⟩ <;> rw [h] <;> rfl

theorem receivedByte_receiveOnly (b : Byte) (s : State) : s.receiveOnly (receivedByte b s) := by
  unfold receivedByte
  split
  · exact receiveOnly_trans (storeByte_receiveOnly b s) (receiverEvent_receiveOnly _)
  · exact storeByte_receiveOnly b s

/-- What FLUSH writes (R159): it rearms, leaves everything, or hands off a quiet buffer. -/
theorem flushWritten_cases (s : State) :
    flushWritten s = { s with fullSinceCheck := false, snapRemaining := s.remaining } ∨
    flushWritten s = s ∨
    (s.fullSinceCheck = false ∧ s.pending = false ∧ s.remaining ≠ s.params.bufCap ∧
      flushWritten s = { handoff s with snapRemaining := s.params.bufCap }) := by
  unfold flushWritten
  split
  · exact .inl rfl
  next hquiet =>
    split
    · exact .inr (.inl rfl)
    next hp =>
      split
      · exact .inr (.inl rfl)
      next hne =>
        exact .inr (.inr ⟨by simpa using fun hf => hquiet (.inl hf), by simpa using hp, hne, rfl⟩)

theorem flushWritten_receiveOnly (s : State) : s.receiveOnly (flushWritten s) := by
  rcases flushWritten_cases s with h | h | ⟨-, -, -, h⟩ <;> rw [h] <;> rfl

/-- TAKE leaves SIGNAL at 0 and nothing else changed (R156). -/
theorem written_take (s : State) : written .take s = { s with signal := false } := by
  unfold written
  cases h : s.signal
  · simp [← h]
  · rfl

/-- The five commands of the receive path write nothing outside it. -/
theorem written_receiveOnly {i : Instr} (h : i.opcode ∈ [Opcode.rxByte, .rxEvent, .take, .done, .flush])
    (s : State) : s.receiveOnly (written i s) := by
  cases i
  case rxByte a =>
    simp only [written]
    split
    · exact receivedByte_receiveOnly a s
    · exact receiveOnly_refl s
  case rxEvent =>
    simp only [written]
    split
    · exact receiverEvent_receiveOnly s
    · exact receiveOnly_refl s
  case take => rw [written_take]; rfl
  case done => rfl
  case flush => exact flushWritten_receiveOnly s
  all_goals simp [Instr.opcode] at h

/-- The elements outside the receive path keep their values (the names of R30 to R37, the parameters and the port). -/
theorem receiveOnly_keeps {s t : State} (h : s.receiveOnly t) :
    t.started = s.started ∧ t.protoSel = s.protoSel ∧ t.decP = s.decP ∧ t.decMode = s.decMode ∧
    t.latchVal = s.latchVal ∧ t.latchStage = s.latchStage ∧ t.latchTxn = s.latchTxn ∧ t.latchTs = s.latchTs ∧
    t.latchHasData = s.latchHasData ∧ t.latchPresent = s.latchPresent ∧ t.faultCode = s.faultCode ∧
    t.params = s.params ∧ t.cmds = s.cmds ∧ t.port = s.port ∧ t.cw = s.cw := by
  unfold State.receiveOnly at h
  rw [h]
  simp

/-! ### The flags of the receive path -/

/-- A reception end raises PENDING where bytes were received, and never clears it (R153). -/
@[simp] theorem receiverEvent_pending (s : State) :
    (receiverEvent s).pending = (s.pending || decide (s.remaining ≠ s.params.bufCap)) := by
  rcases receiverEvent_cases s with ⟨hr, h⟩ | ⟨hr, hp, h⟩ | ⟨hr, hp, h⟩ <;> simp [*]

/-- SIGNAL goes up with a hand-off and is never cleared by a reception end (R153). -/
@[simp] theorem receiverEvent_signal (s : State) :
    (receiverEvent s).signal = (s.signal || (!s.pending && decide (s.remaining ≠ s.params.bufCap))) := by
  rcases receiverEvent_cases s with ⟨hr, h⟩ | ⟨hr, hp, h⟩ | ⟨hr, hp, h⟩ <;> simp [*]

@[simp] theorem receiverEvent_fullSinceCheck (s : State) :
    (receiverEvent s).fullSinceCheck = (s.fullSinceCheck || decide (s.remaining ≠ s.params.bufCap)) := by
  rcases receiverEvent_cases s with ⟨hr, h⟩ | ⟨hr, hp, h⟩ | ⟨hr, hp, h⟩ <;> simp [*]

@[simp] theorem receiverEvent_snapRemaining (s : State) : (receiverEvent s).snapRemaining = s.snapRemaining := by
  rcases receiverEvent_cases s with ⟨-, h⟩ | ⟨-, -, h⟩ | ⟨-, -, h⟩ <;> simp [h]

/-- A reception end leaves an empty active buffer. -/
@[simp] theorem receiverEvent_remaining (s : State) : (receiverEvent s).remaining = s.params.bufCap := by
  rcases receiverEvent_cases s with ⟨hr, h⟩ | ⟨-, -, h⟩ | ⟨-, -, h⟩ <;> simp [*]

/-! ### The frames -/

theorem cell_congr {s t : State} (h0 : t.buf0 = s.buf0) (h1 : t.buf1 = s.buf1) (k : BufId) (n : Nat) :
    t.cell k n = s.cell k n := by
  cases k
  · exact congrArg (Store.read · n) h0
  · exact congrArg (Store.read · n) h1

@[simp] theorem cell_flushWritten (s : State) (k : BufId) (n : Nat) : (flushWritten s).cell k n = s.cell k n := by
  rcases flushWritten_cases s with h | h | ⟨-, -, -, h⟩ <;> rw [h] <;> exact cell_congr rfl rfl k n

/-- Only RX_BYTE writes a cell (R60, R61). -/
theorem written_cell {i : Instr} (hi : i.opcode ≠ .rxByte) (s : State) (k : BufId) (n : Nat) :
    (written i s).cell k n = s.cell k n := by
  cases i
  case rxByte => exact absurd rfl hi
  case rxEvent => simp only [written]; split <;> simp
  case take => rw [written_take]; exact cell_congr rfl rfl k n
  case flush => exact cell_flushWritten s k n
  all_goals exact cell_congr rfl rfl k n

@[simp] theorem receivedByte_snapRemaining (b : Byte) (s : State) :
    (receivedByte b s).snapRemaining = s.snapRemaining := by
  unfold receivedByte
  split <;> simp

/-- Neither command of the receiver writes FLUSH's snapshot (R27). -/
theorem written_rx_snapRemaining {i : Instr} (hi : i.opcode ∈ [Opcode.rxByte, .rxEvent]) (s : State) :
    (written i s).snapRemaining = s.snapRemaining := by
  cases i
  case rxByte => simp only [written]; split <;> simp
  case rxEvent => simp only [written]; split <;> simp
  all_goals simp [Instr.opcode] at hi

/-- FLUSH neither signals nor counts an overrun (R159). -/
theorem flushWritten_keeps (s : State) :
    (flushWritten s).signal = s.signal ∧ (flushWritten s).overrunCount = s.overrunCount := by
  rcases flushWritten_cases s with h | h | ⟨-, -, -, h⟩ <;> simp [h]

/-- Settles O22: the fault record is R262's; a completed command's frame is read off what it writes. -/
theorem eachElementIsWrittenOnlyByItsCommands : Obligations.EachElementIsWrittenOnlyByItsCommands := by
  intro i s t h
  rcases exec_next_cases h with ⟨u, -, rfl⟩ | ⟨-, -, rfl⟩
  · simp [Response.isFault]
  refine ⟨fun hi k n => by rw [cell_answer, written_cell hi], ?_⟩
  cases i
  case rxByte a =>
    simp [Instr.opcode, written_rx_snapRemaining (i := .rxByte a) (by simp [Instr.opcode]),
      receiveOnly_keeps (written_receiveOnly (i := .rxByte a) (by simp [Instr.opcode]) s)]
  case rxEvent =>
    simp [Instr.opcode, written_rx_snapRemaining (i := .rxEvent) (by simp [Instr.opcode]),
      receiveOnly_keeps (written_receiveOnly (i := .rxEvent) (by simp [Instr.opcode]) s)]
  case flush =>
    simp [Instr.opcode, written, flushWritten_keeps, receiveOnly_keeps (flushWritten_receiveOnly s)]
  case take => simp [Instr.opcode, written_take]
  all_goals simp [Instr.opcode, written]

/-- What a command of the receiver writes to a flag only raises it (R39, column "cleared by"). -/
theorem written_rx_raises {i : Instr} (hi : i.opcode ∈ [Opcode.rxByte, .rxEvent]) (s : State) :
    (s.pending = true → (written i s).pending = true) ∧ (s.signal = true → (written i s).signal = true) ∧
    (s.fullSinceCheck = true → (written i s).fullSinceCheck = true) := by
  cases i
  case rxByte =>
    simp only [written, receivedByte]
    repeat' split
    all_goals simp +contextual
  case rxEvent => simp only [written]; split <;> simp +contextual
  all_goals simp [Instr.opcode] at hi

/-- FLUSH keeps a pending hand-off and never marks a full buffer (R159). -/
theorem flushWritten_flags (s : State) :
    (s.pending = true → (flushWritten s).pending = true) ∧
    (s.fullSinceCheck = false → (flushWritten s).fullSinceCheck = false) := by
  rcases flushWritten_cases s with h | h | ⟨hf, -, -, h⟩ <;> simp [*]

theorem start_not_started {a : Byte} {s : State} (h : firstFault (.start a) s = none) : s.started = false := by
  cases hs : s.started with
  | false => rfl
  | true =>
    simp only [firstFault, firstOf, hs] at h
    split at h <;> simp at h

/-- Settles O23: a faulting command writes no flag, and a completed one only those of its row. -/
theorem flagsAreSetAndClearedByTheirCommands : Obligations.FlagsAreSetAndClearedByTheirCommands := by
  intro i s t h
  rcases exec_next_cases h with ⟨u, -, rfl⟩ | ⟨hf, -, rfl⟩
  · simp_all
  cases i
  case rxByte a =>
    simp +contextual [Instr.opcode, written_rx_raises (i := .rxByte a) (by simp [Instr.opcode]) s,
      receiveOnly_keeps (written_receiveOnly (i := .rxByte a) (by simp [Instr.opcode]) s)]
  case rxEvent =>
    simp +contextual [Instr.opcode, written_rx_raises (i := .rxEvent) (by simp [Instr.opcode]) s,
      receiveOnly_keeps (written_receiveOnly (i := .rxEvent) (by simp [Instr.opcode]) s)]
  case flush =>
    simp +contextual [Instr.opcode, written, flushWritten_flags, flushWritten_keeps,
      receiveOnly_keeps (flushWritten_receiveOnly s)]
  case take => simp +contextual [Instr.opcode, written_take]
  case start a => simp [Instr.opcode, written, start_not_started hf]
  all_goals simp [Instr.opcode, written]

/-! ### The sticky fault code -/

/-- No completed command writes the fault record, the parameters, the queue or the port (R37, R5). -/
theorem written_fixed (i : Instr) (s : State) :
    (written i s).faultCode = s.faultCode ∧ (written i s).params = s.params ∧ (written i s).cmds = s.cmds ∧
    (written i s).port = s.port ∧ (written i s).cw = s.cw := by
  by_cases hi : i.opcode ∈ [Opcode.rxByte, .rxEvent, .take, .done, .flush]
  · simp [receiveOnly_keeps (written_receiveOnly hi s)]
  cases i
  case rxByte | rxEvent | take | flush => simp [Instr.opcode] at hi
  all_goals exact ⟨rfl, rfl, rfl, rfl, rfl⟩

/-- Settles O9: a step idles, takes a fault, or completes a command, and only a fault writes the code. -/
theorem faultCodeKeepsTheFirstFault : Obligations.FaultCodeKeepsTheFirstFault := by
  intro s t h
  rcases step_next_cases h with ⟨hnil, rfl⟩ | ⟨c, rest, hcons, ⟨u, rfl⟩ | ⟨i, -, -, -, rfl⟩⟩
  · simp [hnil]
  · simp +contextual [hcons, Response.isFault]
  · have hkept : (written i (s.onPort c rest)).faultCode = s.faultCode := (written_fixed i _).1
    have hresp := result_isFault i (s.onPort c rest)
    refine ⟨fun _ => hkept, fun _ => hkept, fun h0 _ => ⟨fun u a w hfault => ?_, fun _ => hkept.trans h0⟩⟩
    rw [answer_resp] at hfault
    rw [hfault] at hresp
    cases hresp

end Sys2Proof.Machine
end

section
/-!
PROOFS. The invariant of the block (R38): reset meets it and every step keeps it. The proof follows what a command
writes: the receive path, the decoder, the latch, START, or nothing.
-/

namespace Sys2Proof.Machine

/-! ### The receive path -/

/-- The part of `State.Inv` that the receive path writes, a full buffer (REMAINING = 0) allowed: what holds between
the store of RX_BYTE and the full event in the same step (R151, R152). -/
structure State.ReceiveInv (s : State) : Prop where
  buffers : ∀ k, Memory.wf (s.buf k) ∧ Store.below (s.buf k) s.params.bufCap.toNat
  remaining : s.remaining ≤ s.params.bufCap
  filling : s.filled s.active s.fill.toNat
  otherBuffer : s.pending = true → s.readyIdx = s.active.other
  signalled : s.signal = true → s.pending = true
  handedOff : s.pending = true →
    1 ≤ s.readyLen ∧ s.readyLen ≤ s.params.bufCap ∧ s.filled s.readyIdx s.readyLen.toNat

theorem State.Inv.receiveInv {s : State} (h : s.Inv) : s.ReceiveInv where
  buffers := by
    obtain ⟨hw0, hw1, hb0, hb1⟩ := h.buffers
    intro k
    cases k
    · exact ⟨hw0, hb0⟩
    · exact ⟨hw1, hb1⟩
  remaining := h.remaining.2
  filling := h.filling
  otherBuffer := h.otherBuffer
  signalled := h.signalled
  handedOff := h.handedOff

/-- On a started link a write of the receive path keeps the invariant when it keeps the receive path's part of it and
leaves both counters in their range. -/
theorem State.Inv.of_receiveOnly {s t : State} (h : s.Inv) (hs : s.started = true) (ht : s.receiveOnly t)
    (hr : t.ReceiveInv) (hrem : 1 ≤ t.remaining)
    (hsnap : 1 ≤ t.snapRemaining ∧ t.snapRemaining ≤ t.params.bufCap) : t.Inv := by
  obtain ⟨hst, hproto, hp, hmode, hval, hstage, -, -, hdata, hpres, hcode, hparams, -, -, -⟩ := receiveOnly_keeps ht
  constructor
  case params => rw [hparams]; exact h.params
  case buffers => exact ⟨(hr.buffers .b0).1, (hr.buffers .b1).1, (hr.buffers .b0).2, (hr.buffers .b1).2⟩
  case remaining => exact ⟨hrem, hr.remaining⟩
  case snapRemaining => exact hsnap
  case filling => exact hr.filling
  case otherBuffer => exact hr.otherBuffer
  case signalled => exact hr.signalled
  case handedOff => exact hr.handedOff
  case decoder => simpa [hp, hmode, hparams, hproto] using h.decoder
  case slots => rw [hval, hstage, hparams]; exact h.slots
  case present => rw [hpres, hdata]; exact h.present
  case faultCode => rw [hcode]; exact h.faultCode
  case beforeStart => rw [hst, hs]; nofun

theorem fill_toNat {s : State} (h : s.remaining ≤ s.params.bufCap) :
    s.fill.toNat = s.params.bufCap.toNat - s.remaining.toNat := by
  unfold State.fill
  bv_omega

/-- The byte goes into the first free cell, so the cells below the new FILL hold bytes (R151). -/
theorem storeByte_receiveInv {s : State} (h : s.ReceiveInv) (h0 : s.remaining ≠ 0) (b : Byte) :
    (storeByte b s).ReceiveInv := by
  have hfill := fill_toNat h.remaining
  have hrem : 1 ≤ s.remaining.toNat ∧ s.remaining.toNat ≤ s.params.bufCap.toNat := by
    have := h.remaining
    bv_omega
  have hle : (storeByte b s).remaining ≤ (storeByte b s).params.bufCap := by
    simp only [storeByte_remaining, storeByte_params]
    bv_omega
  have hfill' : (storeByte b s).fill.toNat = s.fill.toNat + 1 := by
    rw [fill_toNat hle, hfill]
    simp only [storeByte_remaining, storeByte_params]
    bv_omega
  constructor
  case buffers =>
    intro k
    rw [storeByte_params]
    by_cases hk : k = s.active
    · subst hk
      rw [buf_storeByte_active]
      exact ⟨write_wf _ _ _ (h.buffers _).1, write_below _ _ (by omega) (h.buffers _).2⟩
    · rw [buf_storeByte_ne b s hk]
      exact h.buffers k
  case remaining => exact hle
  case filling =>
    intro i hi
    rw [cell_storeByte, storeByte_active]
    split
    · rfl
    next hne => exact h.filling i (by simp at hne; omega)
  case otherBuffer => simpa using h.otherBuffer
  case signalled => simpa using h.signalled
  case handedOff =>
    simp only [storeByte_pending, storeByte_readyLen, storeByte_params, storeByte_readyIdx]
    intro hp
    obtain ⟨h1, h2, h3⟩ := h.handedOff hp
    refine ⟨h1, h2, fun i hi => ?_⟩
    rw [cell_storeByte]
    split
    · rfl
    · exact h3 i hi

/-- A hand-off passes the bytes received to the worker and leaves the other buffer empty (R154). -/
theorem handoff_receiveInv {s : State} (h : s.ReceiveInv) (hne : s.remaining ≠ s.params.bufCap) :
    (handoff s).ReceiveInv where
  buffers := by simpa using h.buffers
  remaining := by simp
  filling := by simp [State.filled]
  otherBuffer := by simp
  signalled := by simp
  handedOff := by
    have hle := h.remaining
    simp only [handoff_readyLen, handoff_params, handoff_readyIdx, State.filled, cell_handoff]
    refine fun _ => ⟨?_, ?_, h.filling⟩ <;> unfold State.fill <;> bv_omega

theorem overrun_receiveInv {s : State} (h : s.ReceiveInv) : (overrun s).ReceiveInv where
  buffers := by simpa using h.buffers
  remaining := by simp
  filling := by simp [State.filled]
  otherBuffer := by simpa using h.otherBuffer
  signalled := by simpa using h.signalled
  handedOff := by simpa [State.filled] using h.handedOff

theorem markFull_receiveInv {s : State} (h : s.ReceiveInv) : (markFull s).ReceiveInv where
  buffers := by simpa using h.buffers
  remaining := h.remaining
  filling := by simpa [State.filled] using h.filling
  otherBuffer := h.otherBuffer
  signalled := h.signalled
  handedOff := by simpa [State.filled] using h.handedOff

theorem raiseSignal_receiveInv {s : State} (h : s.ReceiveInv) (hp : s.pending = true) : (raiseSignal s).ReceiveInv where
  buffers := by simpa using h.buffers
  remaining := h.remaining
  filling := by simpa [State.filled] using h.filling
  otherBuffer := h.otherBuffer
  signalled := fun _ => hp
  handedOff := by simpa [State.filled] using h.handedOff

theorem receiverEvent_receiveInv {s : State} (h : s.ReceiveInv) : (receiverEvent s).ReceiveInv := by
  rcases receiverEvent_cases s with ⟨-, e⟩ | ⟨-, -, e⟩ | ⟨hne, -, e⟩ <;> rw [e]
  · exact h
  · exact markFull_receiveInv (overrun_receiveInv h)
  · exact markFull_receiveInv (raiseSignal_receiveInv (handoff_receiveInv h hne) rfl)

/-- RX_BYTE on a started link with a free cell (R151, R152). -/
theorem receivedByte_inv {s : State} (h : s.Inv) (hs : s.started = true) (h0 : s.remaining ≠ 0) (b : Byte) :
    (receivedByte b s).Inv := by
  have hstore := storeByte_receiveInv h.receiveInv h0 b
  refine h.of_receiveOnly hs (receivedByte_receiveOnly b s) ?_ ?_ ?_
  · unfold receivedByte
    split
    · exact receiverEvent_receiveInv hstore
    · exact hstore
  · have hcap := h.params.1
    unfold receivedByte
    split
    · simp only [receiverEvent_remaining, storeByte_params]
      bv_omega
    · simp only [storeByte_remaining]
      bv_omega
  · simpa [receivedByte_snapRemaining, receiveOnly_keeps (receivedByte_receiveOnly b s)] using h.snapRemaining

/-- A reception end on a started link (R153). -/
theorem receiverEvent_inv {s : State} (h : s.Inv) (hs : s.started = true) : (receiverEvent s).Inv := by
  refine h.of_receiveOnly hs (receiverEvent_receiveOnly s) (receiverEvent_receiveInv h.receiveInv) ?_ ?_
  · have hcap := h.params.1
    rw [receiverEvent_remaining]
    bv_omega
  · simpa [receiveOnly_keeps (receiverEvent_receiveOnly s)] using h.snapRemaining

theorem take_inv {s : State} (h : s.Inv) (hs : s.started = true) : ({ s with signal := false } : State).Inv :=
  { h with
    signalled := nofun
    beforeStart := fun hn => nomatch hs.symm.trans hn }

theorem done_inv {s : State} (h : s.Inv) (hs : s.started = true) :
    ({ s with pending := false, signal := false } : State).Inv :=
  { h with
    otherBuffer := nofun
    signalled := nofun
    handedOff := nofun
    beforeStart := fun hn => nomatch hs.symm.trans hn }

/-- FLUSH on a started link (R159). -/
theorem flushWritten_inv {s : State} (h : s.Inv) (hs : s.started = true) : (flushWritten s).Inv := by
  have hcap := h.params.1
  rcases flushWritten_cases s with e | e | ⟨-, -, hne, e⟩ <;> rw [e]
  · exact { h with
      snapRemaining := h.remaining
      beforeStart := fun hn => nomatch hs.symm.trans hn }
  · exact h
  · have hr := handoff_receiveInv h.receiveInv hne
    have hr' : ({ handoff s with snapRemaining := s.params.bufCap } : State).ReceiveInv := { hr with }
    exact h.of_receiveOnly hs rfl hr' (by simp; bv_omega) (by simp; bv_omega)

/-! ### The decoder -/

/-- A COBS byte step keeps the buffer free of delimiters and within its cap (R193, R195). -/
theorem cobsStep_good {p : Params} {c : DecState} (h : c.good p .cobs) (b : Byte) :
    (cobsStep p b c).2.good p .cobs := by
  obtain ⟨hline, hlen, hzero, hdiscard⟩ := h
  unfold cobsStep
  split
  next hm =>
    dsimp only
    split
    · simp [DecState.good, hdiscard hm]
    · exact ⟨hline, hlen, hzero, hdiscard⟩
  next hm =>
    split
    · simp [DecState.good, hline, hm]
    next hb =>
      split
      · simp [DecState.good]
      next hcap =>
        refine ⟨hline, ?_, ?_, fun hd => absurd hd hm⟩
        · simp; omega
        · exact List.not_mem_append hzero (mt List.mem_singleton.1 (Ne.symm hb))

/-- An ASCII byte step opens a line at `$` and closes it at LF, and the body of a line holds neither (R198, R199). -/
theorem asciiStep_good {p : Params} (hp : p.wf) {c : DecState} (h : c.good p .ascii) (b : Byte) :
    (asciiStep p b c).2.good p .ascii := by
  obtain ⟨hlen, hclosed, hopen⟩ := h
  have hcap : 2 ≤ p.asciiCap := by omega
  unfold asciiStep
  split
  next hb => exact ⟨by simp; omega, by simp, fun _ => ⟨[], by simp [hb]⟩⟩
  next hb =>
    split
    next hm => exact ⟨hlen, hclosed, hopen⟩
    next hm =>
      dsimp only
      split
      · simp [DecState.good, hclosed, hm]
      · exact ⟨hlen, hclosed, hopen⟩
    next hm =>
      split
      · dsimp only
        split <;> simp [DecState.good]
      next hfull =>
        split
        · simp [DecState.good]
        next hlf =>
          obtain ⟨body, hpend, hdollar, hnl⟩ := hopen hm
          refine ⟨by simp; omega, by simp [hm], fun _ => ⟨body ++ [b], by simp [hpend], ?_, ?_⟩⟩
          · exact List.not_mem_append hdollar (mt List.mem_singleton.1 (Ne.symm hb))
          · exact List.not_mem_append hnl (mt List.mem_singleton.1 (Ne.symm hlf))

theorem decStep_good {p : Params} (hp : p.wf) {proto : Protocol} {c : DecState} (h : c.good p proto) (b : Byte) :
    (decStep p proto b c).2.good p proto := by
  cases proto
  case motor => exact ⟨h.1, scanAll_rests (motorJudge_good _) _⟩
  case sat => exact ⟨h.1, scanAll_rests (satJudge_good _ _ _) _⟩
  case cobs => exact cobsStep_good h b
  case ascii => exact asciiStep_good hp h b

theorem feedBytes_good {p : Params} (hp : p.wf) {proto : Protocol} (d : List Byte) {c : DecState}
    (h : c.good p proto) : (feedBytes p proto d c).2.good p proto := by
  induction d generalizing c with
  | nil => exact h
  | cons b rest ih => exact ih (decStep_good hp h b)

/-- A decoder that was never fed is good for every protocol START may select. -/
theorem empty_dec_good (p : Params) (proto : Protocol) : DecState.good p proto ⟨[], .normal⟩ := by
  cases proto <;> simp [DecState.good, motorJudge, satJudge]

theorem feed_inv {s : State} (h : s.Inv) (hs : s.started = true) (d : List Byte) :
    (s.setDec (feedBytes s.params s.protoSel d s.dec).2).Inv :=
  { h with
    decoder := feedBytes_good h.params d h.decoder
    beforeStart := fun hn => nomatch hs.symm.trans hn }

/-! ### The latch and START -/

theorem latchBegin_inv {s : State} (h : s.Inv) (hs : s.started = true) :
    ({ s with latchStage := s.latchVal, latchTxn := true } : State).Inv :=
  { h with
    slots := by
      obtain ⟨hwf, -, hbelow, -⟩ := h.slots
      exact ⟨hwf, hwf, hbelow, hbelow⟩
    beforeStart := fun hn => nomatch hs.symm.trans hn }

theorem latchApply_inv {s : State} (h : s.Inv) (hs : s.started = true) {f : Byte} (hf : f.toNat < s.params.kFields)
    (v : Word) : ({ s with latchStage := Store.write s.latchStage f.toNat v } : State).Inv :=
  { h with
    slots := by
      obtain ⟨hwf, hwfStage, hbelow, hbelowStage⟩ := h.slots
      exact ⟨hwf, write_wf _ _ _ hwfStage, hbelow, write_below _ _ hf hbelowStage⟩
    beforeStart := fun hn => nomatch hs.symm.trans hn }

theorem latchCommit_inv {s : State} (h : s.Inv) (hs : s.started = true) (t : Time) :
    ({ s with latchVal := s.latchStage, latchTs := t, latchHasData := true, latchPresent := true,
              latchTxn := false } : State).Inv :=
  { h with
    slots := by
      obtain ⟨-, hwf, -, hbelow⟩ := h.slots
      exact ⟨hwf, hwf, hbelow, hbelow⟩
    present := fun _ => rfl
    beforeStart := fun hn => nomatch hs.symm.trans hn }

theorem latchMarkAbsent_inv {s : State} (h : s.Inv) (hs : s.started = true) :
    ({ s with latchPresent := false } : State).Inv :=
  { h with
    present := nofun
    beforeStart := fun hn => nomatch hs.symm.trans hn }

/-- START finds the state reset left (R150), whose empty decoder is good for the protocol selected. -/
theorem start_inv {s : State} (h : s.Inv) (hs : s.started = false) (proto : Protocol) :
    ({ s with protoSel := proto, started := true } : State).Inv :=
  { h with
    decoder := by
      have hu : s.untouched := h.beforeStart hs
      have hp : s.decP = [] := congrArg State.decP hu
      have hm : s.decMode = .normal := congrArg State.decMode hu
      simpa [hp, hm] using empty_dec_good s.params proto
    beforeStart := nofun }

/-! ### Every step -/

theorem answer_inv {s : State} (h : s.Inv) (r : Response) : (s.answer r).Inv :=
  inv_port h s.cmds s.port s.cw r

theorem onPort_inv {s : State} (h : s.Inv) (c : Command) (rest : List Command) : (s.onPort c rest).Inv :=
  inv_port h rest c.agent c.cw s.resp

theorem code_le (u : UsageFault) : u.code ≤ 14 := by cases u <;> decide

/-- R262 writes a code of R261 and nothing else of the block. -/
theorem takeFault_inv {s : State} (h : s.Inv) (u : UsageFault) : (s.takeFault u).Inv :=
  { h with
    faultCode := by
      rw [takeFault_faultCode]
      split
      · exact code_le u
      · exact h.faultCode
    beforeStart := fun hn => by
      have hu : s.untouched := h.beforeStart hn
      unfold State.untouched at hu ⊢
      unfold State.takeFault
      conv_lhs => rw [hu] }

/-- The nine commands that need a started link complete only on one (R261 row 5). -/
theorem started_of_firstFault {i : Instr} {s : State} (hf : firstFault i s = none)
    (hi : i.opcode ∈ [Opcode.take, .readBuf, .done, .flush, .feed, .latchBegin, .latchApply, .latchCommit,
      .latchMarkAbsent]) : s.started = true := by
  cases hs : s.started with
  | true => rfl
  | false =>
    have hperm : i.opcode.permits s.port = true := by
      by_contra hn
      simp [firstFault, hn] at hf
    cases i <;> simp [Instr.opcode] at hi <;> simp [firstFault, hperm, firstOf, hs] at hf

/-- LATCH_APPLY completes only on an existing slot (R233). -/
theorem field_of_firstFault {f : Byte} {v : Word} {s : State} (hf : firstFault (.latchApply f v) s = none) :
    f.toNat < s.params.kFields := by
  by_contra hn
  have hout : fieldInRange f s = false := decide_eq_false hn
  simp only [firstFault, firstOf, hout, Bool.false_eq_true, if_false] at hf
  repeat' split at hf
  all_goals cases hf

/-- What a completed command writes keeps the invariant. -/
theorem written_inv {i : Instr} {s : State} (h : s.Inv) (hf : firstFault i s = none) (hc : cellThere i s) :
    (written i s).Inv := by
  have hstarted := started_of_firstFault hf
  cases i
  case rxByte a =>
    simp only [written]
    split
    next hs => exact receivedByte_inv h hs (hc hs).1 a
    next => exact h
  case rxEvent =>
    simp only [written]
    split
    next hs => exact receiverEvent_inv h hs
    next => exact h
  case start a => exact start_inv h (start_not_started hf) _
  case take => rw [written_take]; exact take_inv h (hstarted (by decide))
  case done => exact done_inv h (hstarted (by decide))
  case flush => exact flushWritten_inv h (hstarted (by decide))
  case feed d => exact feed_inv h (hstarted (by simp [Instr.opcode])) d
  case latchBegin => exact latchBegin_inv h (hstarted (by decide))
  case latchApply f v => exact latchApply_inv h (hstarted (by simp [Instr.opcode])) (field_of_firstFault hf) v
  case latchCommit t => exact latchCommit_inv h (hstarted (by simp [Instr.opcode])) t
  case latchMarkAbsent => exact latchMarkAbsent_inv h (hstarted (by decide))
  all_goals exact h

/-- Settles O57: a step idles, takes a fault, or completes a command on the port. -/
theorem everyStepKeepsTheInvariant : Obligations.EveryStepKeepsTheInvariant := by
  intro s t h hstep
  rcases step_next_cases hstep with ⟨-, rfl⟩ | ⟨c, rest, -, ⟨u, rfl⟩ | ⟨i, -, hf, hc, rfl⟩⟩
  · exact h
  · exact takeFault_inv (onPort_inv h c rest) u
  · exact answer_inv (written_inv (onPort_inv h c rest) hf hc) _

/-! ### Reset and the reachable states -/

/-- Settles O55: every store is empty, and every other element is a field of the reset state. -/
theorem resetLeavesTheSpecsValues : Obligations.ResetLeavesTheSpecsValues := by
  intro p
  have hcell : ∀ k i, (State.resetWith p).cell k i = none := by
    intro k i
    cases k <;> rfl
  have hreset : State.reset = State.resetWith Config.resetParams := rfl
  simp [hcell, hreset]

/-- Settles O56: both buffers and the latch are empty, no reception is open and no hand-off pending. -/
theorem resetMeetsTheInvariant : Obligations.ResetMeetsTheInvariant := by
  intro p cmds hp
  have hcap := hp.1
  have h : (State.resetWith p).Inv := {
    params := hp
    buffers := ⟨.nil, .nil, nofun, nofun⟩
    remaining := by simp; bv_omega
    snapRemaining := by simp; bv_omega
    filling := by simp [State.filled]
    otherBuffer := nofun
    signalled := nofun
    handedOff := nofun
    decoder := empty_dec_good p .motor
    slots := ⟨.nil, .nil, nofun, nofun⟩
    present := nofun
    faultCode := by simp
    beforeStart := fun _ => rfl }
  exact inv_port h cmds .wrk 0 .nothing

/-- No step writes the parameters (R5). -/
theorem step_params {s t : State} (h : step s = .next t) : t.params = s.params := by
  rcases step_next_cases h with ⟨-, rfl⟩ | ⟨c, rest, -, ⟨u, rfl⟩ | ⟨i, -, -, -, rfl⟩⟩
  · rfl
  · rfl
  · exact (written_fixed i _).2.1

/-- The continuation of a good decoder fits its cap (R31, R38 item 6). -/
theorem good_length_le {p : Params} (hp : p.wf) {proto : Protocol} {c : DecState} (h : c.good p proto) :
    c.pend.length ≤ protocolCap p proto := by
  obtain ⟨-, hmotor, -, hsat, -⟩ := hp
  cases proto
  case motor => exact (motorJudge_wait_length hmotor h.2).le
  case sat => exact (satJudge_wait_length hsat h.2).le
  case cobs => exact h.2.1
  case ascii => exact h.1

/-- Every state reached from reset keeps its parameters and meets the invariant. -/
theorem reachable_inv {p : Params} {cmds : List Command} {n : Nat} {s : State} (hp : p.wf)
    (h : runSteps n { State.resetWith p with cmds := cmds } = .next s) : s.Inv ∧ s.params = p :=
  runSteps_induction (P := fun s => s.Inv ∧ s.params = p)
    (fun s t hs hstep => ⟨everyStepKeepsTheInvariant s t hs.1 hstep, (step_params hstep).trans hs.2⟩)
    ⟨resetMeetsTheInvariant p cmds hp, rfl⟩ h

/-- Settles O59: the six items are read off the invariant. -/
theorem reachableStatesMeetTheSixItems : Obligations.ReachableStatesMeetTheSixItems := by
  intro p cmds n s hp hrun
  obtain ⟨h, rfl⟩ := reachable_inv hp hrun
  obtain ⟨hrem, hcap⟩ := h.remaining
  refine ⟨fun hpend => ?_, h.signalled, fun hpend => ?_, by bv_omega, by bv_omega, good_length_le hp h.decoder⟩
  · simp [h.otherBuffer hpend]
  · obtain ⟨hlen, hle, hfilled⟩ := h.handedOff hpend
    exact ⟨by bv_omega, by bv_omega, hfilled⟩

end Sys2Proof.Machine
end

section
/-!
PROOFS. What software sees of the state: the STATUS word (R41), and that no result tells of the staged slots (R34,
R231, R72).
-/

namespace Sys2Proof.Machine

/-! ### STATUS -/

theorem bit_eq (k : BufId) : k.bit = decide (k = .b1) := by cases k <;> rfl

theorem faulted_eq (s : State) : s.faulted = decide (s.faultCode ≠ 0) := by
  simp [State.faulted, bne, Bool.beq_eq_decide_eq]

theorem getLsbD_append_ofBool {n : Nat} (x : BitVec n) (b : Bool) (k : Nat) :
    (x ++ BitVec.ofBool b).getLsbD k = if k = 0 then b else x.getLsbD (k - 1) := by
  rw [BitVec.getLsbD_append]
  cases k <;> simp

/-- The bits of STATUS, bit 0 first: eight flags, the three bits of PROTO, two flags, and 0 above them (R41). -/
theorem getLsbD_statusWord (s : State) (k : Nat) :
    (statusWord s).getLsbD k =
      if k < 8 then
        [s.started, s.active.bit, s.pending, s.signal, s.readyIdx.bit, s.fullSinceCheck, s.latchTxn,
          s.latchPresent].getD k false
      else if k < 11 then s.protoSel.code.getLsbD (k - 8)
      else [s.latchHasData, s.faulted].getD (k - 11) false := by
  unfold statusWord
  rw [getLsbD_append_ofBool, getLsbD_append_ofBool, getLsbD_append_ofBool, getLsbD_append_ofBool,
    getLsbD_append_ofBool, getLsbD_append_ofBool, getLsbD_append_ofBool, getLsbD_append_ofBool,
    BitVec.getLsbD_append, getLsbD_append_ofBool, getLsbD_append_ofBool]
  match k with
  | 0 | 1 | 2 | 3 | 4 | 5 | 6 | 7 => rfl
  | 8 | 9 | 10 => rfl
  | 11 | 12 => rfl
  | k + 13 => simp

/-- The field PROTO of STATUS is `PROTO_SEL`. -/
theorem extractLsb'_statusWord_proto (s : State) : (statusWord s).extractLsb' 8 3 = s.protoSel.code := by
  apply BitVec.eq_of_getLsbD_eq
  intro i hi
  have h8 : ¬ 8 + i < 8 := by omega
  have h11 : 8 + i < 11 := by omega
  simp [getLsbD_statusWord, h8, h11, hi]

/-- Settles O21: each bit is looked up in the list of STATUS's bits. -/
theorem statusWordHoldsTheFlags : Obligations.StatusWordHoldsTheFlags := by
  intro s
  simp only [getLsbD_statusWord, extractLsb'_statusWord_proto, ← bit_eq, ← faulted_eq]
  refine ⟨rfl, rfl, rfl, rfl, rfl, rfl, rfl, rfl, ?_, rfl, rfl, fun k hk => ?_⟩
  · cases s.protoSel <;> rfl
  · have h8 : ¬ k < 8 := by omega
    have h11 : ¬ k < 11 := by omega
    have hlen : 2 ≤ k - 11 := by omega
    rw [if_neg h8, if_neg h11, List.getD_eq_default _ _ hlen]

/-! ### The staged slots -/

/-- No check of a command reads the staged slots. -/
theorem firstFault_latchStage (i : Instr) (s : State) (stage : Slots) :
    firstFault i { s with latchStage := stage } = firstFault i s := by
  cases i <;> rfl

/-- No result is computed from the staged slots. -/
theorem result_latchStage (i : Instr) (s : State) (stage : Slots) :
    result i { s with latchStage := stage } = result i s := by
  cases i <;> rfl

/-- Settles O53: the two runs raise the same fault, or both complete with the same result. -/
theorem readersNeverSeeStagedSlots : Obligations.ReadersNeverSeeStagedSlots := by
  intro i s t u stage _ ht hu
  rcases exec_next_cases ht with ⟨f, hf, rfl⟩ | ⟨hf, -, rfl⟩
  · have hf' : firstFault i { s with latchStage := stage } = some f := (firstFault_latchStage i s stage).trans hf
    rw [exec_of_firstFault hf'] at hu
    cases hu
    rfl
  · rcases exec_next_cases hu with ⟨f, hf', -⟩ | ⟨-, -, rfl⟩
    · rw [firstFault_latchStage, hf] at hf'
      cases hf'
    · exact result_latchStage i s stage

end Sys2Proof.Machine
end

section
/-!
PROOFS. A command runs when its turn comes (R63, R21), and the buffers hold the received bytes in order (R70, R163). A
history extended by a command is the history with the command's byte noted, then closed where the command ended the
reception; each part is followed through what the receive path writes.
-/

namespace Sys2Proof.Machine

/-- Settles O1: the step takes the command and runs what it decodes to on its port. -/
theorem stepRunsTheDecodedCommand : Obligations.StepRunsTheDecodedCommand :=
  fun _ _ _ _ hcmds hdecode => step_ok hcmds hdecode

/-! ### The history in two parts -/

/-- The history with the byte of a command noted. -/
def History.noted (h : History) (i : Instr) (s : State) : History :=
  { h with current := noteByte i s h.current }

/-- The history closed where the block went from `s` to `t` by a reception end: a hand-off made keeps the open
reception as its sequence, an overrun discards it. -/
def History.closed (h : History) (s t : State) : History :=
  if s.pending = false ∧ t.pending = true then { current := [], handed := h.handed ++ [h.current] }
  else if t.overrunCount ≠ s.overrunCount then { h with current := [] }
  else h

theorem after_eq_noted_closed (h : History) (i : Instr) (s t : State) :
    h.after i s t = (h.noted i s).closed s t := rfl

theorem closed_of_handOff (h : History) {s t : State} (hs : s.pending = false) (ht : t.pending = true) :
    h.closed s t = { current := [], handed := h.handed ++ [h.current] } :=
  if_pos ⟨hs, ht⟩

theorem closed_of_overrun (h : History) {s t : State} (hs : s.pending = true)
    (ht : t.overrunCount ≠ s.overrunCount) : h.closed s t = { h with current := [] } := by
  simp [History.closed, hs, ht]

theorem closed_of_no_end (h : History) {s t : State} (hp : t.pending = true → s.pending = true)
    (hc : t.overrunCount = s.overrunCount) : h.closed s t = h := by
  have hrise : ¬ (s.pending = false ∧ t.pending = true) := by
    rintro ⟨hs, ht⟩
    exact absurd (hp ht) (by simp [hs])
  rw [History.closed, if_neg hrise, if_neg (not_not_intro hc)]

/-- The store of a byte ends no reception, so closing may start from the state after it. -/
theorem closed_storeByte (h : History) (b : Byte) (s t : State) : h.closed (storeByte b s) t = h.closed s t := by
  simp [History.closed]

/-- RX_BYTE raises no fault exactly on the receiver's port (R264). -/
theorem firstFault_rxByte_eq_none_iff {a : Byte} {s : State} : firstFault (.rxByte a) s = none ↔ s.port = .rcv := by
  cases hp : s.port <;> simp [firstFault, hp, Instr.opcode, Opcode.permits, Opcode.agents]

/-- A faulting command delivers no byte. -/
theorem noted_of_firstFault (h : History) {i : Instr} {s : State} {u : UsageFault} (hf : firstFault i s = some u) :
    h.noted i s = h := by
  cases i
  case rxByte a =>
    have hport : s.port ≠ .rcv := by
      rw [Ne, ← firstFault_rxByte_eq_none_iff (a := a), hf]
      nofun
    simp [History.noted, noteByte, hport]
  all_goals rfl

/-! ### What the history tells, through the receive path -/

section
variable {h : History} {s t : State}

/-- The history speaks of the cells, of where and how far the active buffer is filled, and of a pending hand-off. -/
theorem tells_congr (ht : h.tells s) (hcell : ∀ k n, t.cell k n = s.cell k n) (hactive : t.active = s.active)
    (hfill : t.fill = s.fill) (hpending : t.pending = true → s.pending = true) (hidx : t.readyIdx = s.readyIdx)
    (hlen : t.readyLen = s.readyLen) : h.tells t where
  current := by simpa [hcell, hactive, hfill] using ht.current
  handed := fun hp => by simpa [hcell, hidx, hlen] using ht.handed (hpending hp)

/-- With no reception ended the history goes on telling what it told. -/
theorem tells_of_no_end (ht : h.tells s) (hcell : ∀ k n, t.cell k n = s.cell k n) (hactive : t.active = s.active)
    (hfill : t.fill = s.fill) (hpending : t.pending = true → s.pending = true) (hidx : t.readyIdx = s.readyIdx)
    (hlen : t.readyLen = s.readyLen) (hcount : t.overrunCount = s.overrunCount) : (h.closed s t).tells t := by
  rw [closed_of_no_end h hpending hcount]
  exact tells_congr ht hcell hactive hfill hpending hidx hlen

theorem tells_unchanged (ht : h.tells s) : (h.closed s s).tells s :=
  tells_of_no_end ht (fun _ _ => rfl) rfl rfl id rfl rfl rfl

/-- A byte stored in a free cell fills one cell more (R24, R151). -/
theorem fill_storeByte_toNat (hle : s.remaining ≤ s.params.bufCap) (h0 : s.remaining ≠ 0) (b : Byte) :
    (storeByte b s).fill.toNat = s.fill.toNat + 1 := by
  simp only [State.fill, storeByte_params, storeByte_remaining]
  bv_omega

/-- The byte stored is the next of the open reception, and a pending hand-off lies in the other buffer (R151). -/
theorem tells_storeByte (ht : h.tells s) (hr : s.ReceiveInv) (h0 : s.remaining ≠ 0) (b : Byte) :
    ({ h with current := h.current ++ [b] } : History).tells (storeByte b s) := by
  obtain ⟨hlen, hcells⟩ := ht.current
  have hfill := fill_storeByte_toNat hr.remaining h0 b
  constructor
  case current =>
    refine ⟨by simp [hlen, hfill], fun i hi => ?_⟩
    rw [cell_storeByte, storeByte_active]
    by_cases hlast : i = s.fill.toNat
    · simp [hlast, ← hlen]
    · have hlt : i < s.fill.toNat := by omega
      simp [hlast, hcells i hlt, List.getElem?_append_left (hlen ▸ hlt)]
  case handed =>
    simp only [storeByte_pending, storeByte_readyLen, storeByte_readyIdx]
    intro hp
    have hother : s.readyIdx ≠ s.active := by simp [hr.otherBuffer hp]
    simpa [cell_storeByte, hother] using ht.handed hp

/-- A hand-off passes on exactly the open reception (R154). -/
theorem tells_handoff (ht : h.tells s) :
    ({ current := [], handed := h.handed ++ [h.current] } : History).tells (handoff s) where
  current := by simp
  handed := fun _ => ⟨h.current, by simpa using ht.current⟩

/-- An overrun discards the open reception and leaves the pending hand-off (R155). -/
theorem tells_overrun (ht : h.tells s) : ({ h with current := [] } : History).tells (overrun s) where
  current := by simp
  handed := by simpa using ht.handed

/-- A reception end hands off, overruns, or finds no byte (R153). -/
theorem tells_receiverEvent (ht : h.tells s) : (h.closed s (receiverEvent s)).tells (receiverEvent s) := by
  rcases receiverEvent_cases s with ⟨-, e⟩ | ⟨-, hp, e⟩ | ⟨-, hp, e⟩ <;> rw [e]
  · exact tells_unchanged ht
  · rw [closed_of_overrun h hp (by simp)]
    exact tells_congr (tells_overrun ht) (by simp) rfl rfl id rfl rfl
  · rw [closed_of_handOff h hp rfl]
    exact tells_congr (tells_handoff ht) (by simp) rfl rfl id rfl rfl

/-- RX_BYTE on a started link stores the byte, and the full event may end the reception (R151, R152). -/
theorem tells_receivedByte (ht : h.tells s) (hr : s.ReceiveInv) (h0 : s.remaining ≠ 0) (b : Byte) :
    (({ h with current := h.current ++ [b] } : History).closed s (receivedByte b s)).tells (receivedByte b s) := by
  have hstore := tells_storeByte ht hr h0 b
  rw [← closed_storeByte _ b]
  unfold receivedByte
  split
  · exact tells_receiverEvent hstore
  · exact tells_of_no_end hstore (fun _ _ => rfl) rfl rfl id rfl rfl rfl

/-- FLUSH hands off a quiet buffer or moves no byte (R159). -/
theorem tells_flushWritten (ht : h.tells s) : (h.closed s (flushWritten s)).tells (flushWritten s) := by
  rcases flushWritten_cases s with e | e | ⟨-, hp, -, e⟩ <;> rw [e]
  · exact tells_of_no_end ht (cell_congr rfl rfl) rfl rfl id rfl rfl rfl
  · exact tells_unchanged ht
  · rw [closed_of_handOff h hp rfl]
    exact tells_congr (tells_handoff ht) (cell_congr rfl rfl) rfl rfl id rfl rfl

end

/-- What a completed command writes, the history extended by it tells. -/
theorem tells_written {h : History} {i : Instr} {s : State} (ht : h.tells s) (hinv : s.Inv)
    (hf : firstFault i s = none) (hc : cellThere i s) :
    ((h.noted i s).closed s (written i s)).tells (written i s) := by
  cases i
  case rxByte a =>
    cases hs : s.started with
    | false => simpa [History.noted, noteByte, written, hs] using tells_unchanged ht
    | true =>
      simpa [History.noted, noteByte, written, hs, firstFault_rxByte_eq_none_iff.mp hf] using
        tells_receivedByte ht hinv.receiveInv (hc hs).1 a
  case rxEvent =>
    simp only [written]
    split
    · exact tells_receiverEvent ht
    · exact tells_unchanged ht
  case flush => exact tells_flushWritten ht
  case take => rw [written_take]; exact tells_of_no_end ht (cell_congr rfl rfl) rfl rfl id rfl rfl rfl
  case done => exact tells_of_no_end ht (cell_congr rfl rfl) rfl rfl nofun rfl rfl rfl
  all_goals exact tells_of_no_end ht (cell_congr rfl rfl) rfl rfl id rfl rfl rfl

/-- Settles O25: a faulting command moves no byte, and a completed one what the receive path writes. -/
theorem handOffsCarryTheReceivedBytesInOrder : Obligations.HandOffsCarryTheReceivedBytesInOrder := by
  intro i s t h hinv ht hexec
  rw [after_eq_noted_closed]
  rcases exec_next_cases hexec with ⟨u, hf, rfl⟩ | ⟨hf, hc, rfl⟩
  · rw [noted_of_firstFault h hf]
    exact tells_of_no_end ht (by simp) rfl rfl id rfl rfl rfl
  · exact tells_congr (tells_written ht hinv hf hc) (by simp) rfl rfl id rfl rfl

end Sys2Proof.Machine
end

section
/-!
PROOFS. The decoder and the encoder are inverse to each other (R90 to R96). Both directions go through R93's table: a
word and data decode exactly when their format admits them, every well-formed command is assembled from fields and
data that its format admits, and encoding what is assembled from such gives them back.
-/

namespace Sys2Proof

/-! ### The fields and data a format admits -/

/-- R93's table with R91's data counts: the fields `A`, `N` and the data that form a command of the format. -/
def Format.Admits (f : Format) (a : Byte) (n : Half) (d : List Byte) : Prop :=
  match f with
  | .z => a = 0 ∧ n = 0 ∧ d = []
  | .a => n = 0 ∧ d = []
  | .i => a = 0 ∧ d = []
  | .s => a = 0 ∧ d.length = n.toNat
  | .w => n = 4 ∧ d.length = 4
  | .t8 => a = 0 ∧ n = 8 ∧ d.length = 8
  | .t16 => a = 0 ∧ n = 16 ∧ d.length = 16

/-- R96 finds no fault in the fields of a word when each of `A` and `N` is free or has its fixed value. -/
theorem fieldFault_eq_none_iff (f : Format) (a : Byte) (n : Half) :
    fieldFault f a n = none ↔ (f ≠ .a ∧ f ≠ .w → a = 0) ∧ (f ≠ .i ∧ f ≠ .s → n = f.fixedN) := by
  cases f <;> simp [fieldFault, Format.fixedN]
  case t8 | t16 => split_ifs <;> simp [*]

/-- A format admits what the decoder finds no fault in and R91 delivers whole. -/
theorem admits_iff {f : Format} {a : Byte} {n : Half} {d : List Byte} :
    f.Admits a n d ↔ fieldFault f a n = none ∧ d.length = if f.hasData then n.toNat else 0 := by
  rw [fieldFault_eq_none_iff]
  cases f <;> simp +contextual [Format.Admits, Format.hasData, Format.fixedN, and_assoc]

/-- A word and data decode exactly when the format of their opcode admits them, and then to the command assembled
from them. -/
theorem decode_eq_ok_iff {cw : Word} {d : List Byte} {i : Instr} :
    decode cw d = .ok i ↔
      ∃ o, o.code = cwOp cw ∧ o.format.Admits (cwA cw) (cwN cw) d ∧ assemble o (cwA cw) (cwN cw) d = i := by
  constructor
  · intro h
    obtain ⟨o, ho, hl, hf, rfl⟩ := decode_ok_cases h
    exact ⟨o, code_of_ofByte ho, admits_iff.mpr ⟨hf, hl⟩, rfl⟩
  · rintro ⟨o, ho, h, rfl⟩
    obtain ⟨hf, hl⟩ := admits_iff.mp h
    exact decode_of_fields (ofByte_eq_some_iff.mpr ho) hl hf

/-! ### The encoder and the assembled command -/

/-- Bytes are the little-endian bytes of the number they are read as, at the width they have. -/
theorem leBytes_ofNat_leValue {k : Nat} {d : List Byte} (h : d.length = k) :
    leBytes k (BitVec.ofNat (8 * k) (leValue d)).toNat = d := by
  have hlt : leValue d < 2 ^ (8 * k) := by
    rw [Nat.pow_mul, ← h]
    exact leValue_lt d
  rw [BitVec.toNat_ofNat, Nat.mod_eq_of_lt hlt, ← h, leBytes_leValue]

/-- A number of `k` bytes is read back from its little-endian bytes. -/
theorem ofNat_leValue_leBytes {k : Nat} (v : BitVec (8 * k)) :
    BitVec.ofNat (8 * k) (leValue (leBytes k v.toNat)) = v := by
  have hlt : v.toNat < 256 ^ k := by
    rw [show 256 = 2 ^ 8 from rfl, ← Nat.pow_mul]
    exact v.isLt
  rw [leValue_leBytes _ _ hlt, BitVec.ofNat_toNat, BitVec.setWidth_eq]

theorem wordS_eq (o : Opcode) {n : Half} {d : List Byte} (h : d.length = n.toNat) :
    wordS o d = (mkCw o.code 0 n, d) := by
  rw [wordS, h, BitVec.ofNat_toNat, BitVec.setWidth_eq]

/-- Encoding the command assembled from admitted fields and data gives those fields and data. -/
theorem encode_assemble {o : Opcode} {a : Byte} {n : Half} {d : List Byte} (h : o.format.Admits a n d) :
    encode (assemble o a n d) = (mkCw o.code a n, d) := by
  cases o
  case rxEvent | take | done | flush | latchBegin | latchMarkAbsent | latchReadMeta | latchSnapshot =>
    obtain ⟨rfl, rfl, rfl⟩ := h
    rfl
  case rxByte | start | readReg | latchReadField =>
    obtain ⟨rfl, rfl⟩ := h
    rfl
  case readBuf =>
    obtain ⟨rfl, rfl⟩ := h
    rfl
  case latchApply =>
    obtain ⟨rfl, hd⟩ := h
    exact Prod.ext rfl (leBytes_ofNat_leValue hd)
  case latchCommit =>
    obtain ⟨rfl, rfl, hd⟩ := h
    exact Prod.ext rfl (leBytes_ofNat_leValue hd)
  case latchStale =>
    obtain ⟨rfl, rfl, hd⟩ := h
    have hnow : leBytes 8 (BitVec.ofNat 64 (leValue (d.take 8))).toNat = d.take 8 :=
      leBytes_ofNat_leValue (by simp [hd])
    have hage : leBytes 8 (BitVec.ofNat 64 (leValue (d.drop 8))).toNat = d.drop 8 :=
      leBytes_ofNat_leValue (by simp [hd])
    simp only [assemble, encode, hnow, hage, List.take_append_drop]
  all_goals
    obtain ⟨rfl, hd⟩ := h
    exact wordS_eq _ hd

/-- A command is well formed when its data fit the count field. -/
theorem wellFormed_assemble {o : Opcode} {a : Byte} {n : Half} {d : List Byte} (h : o.format.Admits a n d) :
    (assemble o a n d).wellFormed = true := by
  have hd : dataFits d = true := by
    obtain ⟨-, hl⟩ := admits_iff.mp h
    have hn : n.toNat < 65536 := n.isLt
    rw [dataFits, decide_eq_true_iff, hl]
    split <;> omega
  cases o <;> simp [assemble, Instr.wellFormed, hd]

/-- Every well-formed command is assembled from fields and data that its format admits. -/
theorem exists_assemble_eq {i : Instr} (h : i.wellFormed = true) :
    ∃ a n d, i.opcode.format.Admits a n d ∧ assemble i.opcode a n d = i := by
  cases i
  case rxEvent | take | done | flush | latchBegin | latchMarkAbsent | latchReadMeta | latchSnapshot =>
    exact ⟨0, 0, [], ⟨rfl, rfl, rfl⟩, rfl⟩
  case rxByte a | start a | readReg a | latchReadField a => exact ⟨a, 0, [], ⟨rfl, rfl⟩, rfl⟩
  case readBuf n => exact ⟨0, n, [], ⟨rfl, rfl⟩, rfl⟩
  case latchApply f v =>
    refine ⟨f, 4, leBytes 4 v.toNat, ⟨rfl, length_leBytes _ _⟩, ?_⟩
    exact congrArg _ (ofNat_leValue_leBytes (k := 4) v)
  case latchCommit t =>
    refine ⟨0, 8, leBytes 8 t.toNat, ⟨rfl, rfl, length_leBytes _ _⟩, ?_⟩
    exact congrArg _ (ofNat_leValue_leBytes (k := 8) t)
  case latchStale now maxAge =>
    refine ⟨0, 16, leBytes 8 now.toNat ++ leBytes 8 maxAge.toNat, ⟨rfl, rfl, by simp⟩, ?_⟩
    have hnow := ofNat_leValue_leBytes (k := 8) now
    have hage := ofNat_leValue_leBytes (k := 8) maxAge
    simp only [Instr.opcode, assemble, List.take_left' (length_leBytes _ _), List.drop_left' (length_leBytes _ _)]
    exact congrArg₂ _ hnow hage
  all_goals
    rename_i d
    have hd : d.length ≤ 65535 := of_decide_eq_true h
    exact ⟨0, BitVec.ofNat 16 d.length, d, ⟨rfl, by rw [BitVec.toNat_ofNat]; omega⟩, rfl⟩

/-! ### The two round trips -/

/-- Settles O3: the command is assembled from admitted fields and data, which are its encoding and decode to it. -/
theorem decodingAnEncodedCommandGivesItBack : Obligations.DecodingAnEncodedCommandGivesItBack := by
  intro i hi
  obtain ⟨a, n, d, hadmits, hassemble⟩ := exists_assemble_eq hi
  have hencode := encode_assemble hadmits
  rw [hassemble] at hencode
  rw [hencode, decode_eq_ok_iff]
  exact ⟨i.opcode, by simp [hadmits, hassemble]⟩

/-- Settles O4: a word that decodes is made of its fields, which its format admits. -/
theorem encodingADecodedCommandGivesItsWord : Obligations.EncodingADecodedCommandGivesItsWord := by
  intro cw d i h
  obtain ⟨o, hcode, hadmits, rfl⟩ := decode_eq_ok_iff.mp h
  refine ⟨wellFormed_assemble hadmits, ?_⟩
  rw [encode_assemble hadmits, hcode, mkCw_fields]

/-! ### Mask and match -/

theorem mkCw_and_mkCw (op a op' a' : Byte) (n n' : Half) :
    mkCw op a n &&& mkCw op' a' n' = mkCw (op &&& op') (a &&& a') (n &&& n') := by
  simp only [mkCw, ← BitVec.and_append]

/-- Equal words have equal fields (R90). -/
theorem mkCw_inj {op a op' a' : Byte} {n n' : Half} :
    mkCw op a n = mkCw op' a' n' ↔ op = op' ∧ a = a' ∧ n = n' := by
  refine ⟨fun h => ?_, fun ⟨hop, ha, hn⟩ => by rw [hop, ha, hn]⟩
  exact ⟨by simpa using congrArg cwOp h, by simpa using congrArg cwA h, by simpa using congrArg cwN h⟩

/-- The mask of a format clears the field that is free in its words (R94). -/
theorem and_mask_eq (f : Format) (cw : Word) :
    cw &&& f.mask =
      mkCw (cwOp cw) (if f = .a ∨ f = .w then 0 else cwA cw) (if f = .i ∨ f = .s then 0 else cwN cw) := by
  have hmask : f.mask = mkCw (.allOnes 8) (if f = .a ∨ f = .w then 0 else .allOnes 8)
      (if f = .i ∨ f = .s then 0 else .allOnes 16) := by
    cases f <;> decide
  conv_lhs => rw [hmask, ← mkCw_fields cw, mkCw_and_mkCw, BitVec.and_allOnes]
  congr 1 <;> (split; exacts [BitVec.and_zero, BitVec.and_allOnes])

/-- `(CW and mask) = match` compares `OP`, and asks of the other fields what R96 asks of them. -/
theorem and_mask_eq_matchWord_iff {o : Opcode} {cw : Word} :
    cw &&& o.format.mask = o.matchWord ↔ o.code = cwOp cw ∧ fieldFault o.format (cwA cw) (cwN cw) = none := by
  rw [and_mask_eq, Opcode.matchWord, mkCw_inj, fieldFault_eq_none_iff, eq_comm]
  cases o.format <;> simp [Format.fixedN]

/-- A word delivered with its data decodes to an opcode exactly when it meets the opcode's mask and match (R94). -/
theorem decodes_to_iff_and_mask {o : Opcode} {cw : Word} {d : List Byte} (h : d.length = dataCount o cw) :
    (∃ i, decode cw d = .ok i ∧ i.opcode = o) ↔ cw &&& o.format.mask = o.matchWord := by
  have hfits : o.format.Admits (cwA cw) (cwN cw) d ↔ fieldFault o.format (cwA cw) (cwN cw) = none :=
    admits_iff.trans (and_iff_left h)
  rw [and_mask_eq_matchWord_iff, ← hfits]
  constructor
  · rintro ⟨i, hi, rfl⟩
    obtain ⟨o, hcode, hadmits, rfl⟩ := decode_eq_ok_iff.mp hi
    rw [opcode_assemble]
    exact ⟨hcode, hadmits⟩
  · rintro ⟨hcode, hadmits⟩
    exact ⟨_, decode_eq_ok_iff.mpr ⟨o, hcode, hadmits, rfl⟩, opcode_assemble ..⟩

/-- Settles O5: opcode by opcode, the row written out is the model's. -/
theorem maskAndMatchSelectTheOpcode : Obligations.MaskAndMatchSelectTheOpcode := by
  intro o cw d
  have h := @decodes_to_iff_and_mask o cw d
  cases o <;> exact h

/-- Settles O6: each word of the table is decoded. -/
theorem sampleWordsDecode : Obligations.SampleWordsDecode := by
  unfold Obligations.SampleWordsDecode
  decide

end Sys2Proof
end

section
/-!
PROOFS. Commands taken from the queue: a whole command whose word is no encoding raises the first fault of R263's
order (R96), and the commands of the pseudo-instruction latch.update run one after the other (R99).
-/

namespace Sys2Proof.Machine

/-! ### Words that are no encoding -/

section
variable {s : State} {c : Command} {rest : List Command} {o : Opcode}

/-- A word with an `OP` outside R94's table raises ILLEGAL_OP, whatever data stand beside it. -/
theorem step_of_illegalOp (hcmds : s.cmds = c :: rest) (ho : Opcode.ofByte (cwOp c.cw) = none) :
    step s = .next ((s.onPort c rest).takeFault .illegalOp) := by
  have hd : decode c.cw c.data = .error .illegalOp := by simp only [decode, ho]
  exact step_error hcmds hd

variable (hcmds : s.cmds = c :: rest) (hwhole : c.whole) (ho : Opcode.ofByte (cwOp c.cw) = some o)
include hcmds hwhole ho

/-- The agent is checked before the fields and before every check of the command itself (R263). -/
theorem step_of_not_permitted (hp : o.permits c.agent = false) :
    step s = .next ((s.onPort c rest).takeFault .wrongAgent) := by
  have hperm : ∀ k, permitted o (s.onPort c rest) k = .next ((s.onPort c rest).takeFault .wrongAgent) := by
    simp [permitted, hp]
  cases hd : decode c.cw c.data with
  | ok i =>
    obtain ⟨o', ho', -, -, rfl⟩ := decode_ok_cases hd
    cases ho.symm.trans ho'
    rw [step_ok hcmds hd]
    exact exec_of_firstFault (by simp [firstFault, hp])
  | error r =>
    rw [step_error hcmds hd]
    obtain ⟨-, ho'⟩ | ⟨o', ho', hr⟩ := decode_error_cases hd
    · cases ho.symm.trans ho'
    · cases ho.symm.trans ho'
      obtain ⟨-, hl⟩ | ⟨rfl, -⟩ | ⟨rfl, -⟩ := hr
      · exact absurd (hwhole o ho) hl
      · exact hperm _
      · exact hperm _

/-- A field that must be 0 and is not raises RESERVED_FIELD for an agent that may issue the opcode (R96). -/
theorem step_of_reserved (hp : o.permits c.agent = true)
    (hf : fieldFault o.format (cwA c.cw) (cwN c.cw) = some .reserved) :
    step s = .next ((s.onPort c rest).takeFault .reservedField) := by
  have hd : decode c.cw c.data = .error (.reservedField o) := by simp [decode, ho, hwhole o ho, hf]
  rw [step_error hcmds hd]
  simp [rejectCommand, permitted, hp, raise_eq]

/-- A wrong fixed count raises BAD_LENGTH for an agent that may issue the opcode (R96). -/
theorem step_of_badLength (hp : o.permits c.agent = true)
    (hf : fieldFault o.format (cwA c.cw) (cwN c.cw) = some .length) :
    step s = .next ((s.onPort c rest).takeFault .badLength) := by
  have hd : decode c.cw c.data = .error (.badLength o) := by simp [decode, ho, hwhole o ho, hf]
  rw [step_error hcmds hd]
  simp [rejectCommand, permitted, hp, raise_eq]

end

/-- Settles O7: the fields of each format are looked up in R96's rule, and the four faults are taken in R263's order. -/
theorem illFormedWordsRaiseTheFirstFault : Obligations.IllFormedWordsRaiseTheFirstFault := by
  intro s c rest hcmds hwhole
  refine ⟨step_of_illegalOp hcmds, fun o ho => ⟨step_of_not_permitted hcmds hwhole ho, fun hp => ?_⟩⟩
  have reserved := step_of_reserved hcmds hwhole ho hp
  have length := step_of_badLength hcmds hwhole ho hp
  refine ⟨?_, ?_, ?_, ?_, ?_, ?_, ?_⟩
  · intro hz h
    exact reserved (by rw [hz]; exact if_pos h)
  · intro ha h
    exact reserved (by rw [ha]; exact if_pos h)
  · rintro (hf | hf) h <;> exact reserved (by rw [hf]; exact if_pos h)
  · rintro (hf | hf) h <;> exact reserved (by rw [hf]; exact if_pos h)
  · intro hw h
    exact length (by rw [hw]; exact if_pos h)
  · intro ht ha h
    exact length (by rw [ht, ha]; exact if_pos h)
  · intro ht ha h
    exact length (by rw [ht, ha]; exact if_pos h)

/-! ### Commands an agent issues -/

/-- An issued command that raises no fault and needs no cell completes in its step. -/
theorem step_commandOf {s : State} {a : Agent} {i : Instr} {rest : List Command}
    (hcmds : s.cmds = commandOf a i :: rest) (hi : i.wellFormed = true)
    (hf : firstFault i (s.onPort (commandOf a i) rest) = none) (hc : cellThere i (s.onPort (commandOf a i) rest)) :
    step s = .next ((written i (s.onPort (commandOf a i) rest)).answer
      (result i (s.onPort (commandOf a i) rest))) := by
  rw [step_ok hcmds (decodingAnEncodedCommandGivesItBack i hi)]
  exact exec_completes hf hc

/-- A run goes on from where its first part led. -/
theorem runSteps_add {m : Nat} {s t : State} (h : runSteps m s = .next t) (n : Nat) :
    runSteps (m + n) s = runSteps n t := by
  induction m generalizing s with
  | zero =>
    cases h
    rw [Nat.zero_add]
  | succ m ih =>
    obtain ⟨u, hu, hrun⟩ := runSteps_succ_cases h
    rw [Nat.succ_add, runSteps_succ hu]
    exact ih hrun

/-! ### The transaction of latch.update -/

/-- The slots after the values are written in order (R233). -/
def applyFields (m : Slots) (fields : List (Byte × Word)) : Slots :=
  fields.foldl (fun m e => Store.write m e.1.toNat e.2) m

/-- A slot holds the last value written to it, or what it held before. -/
theorem read_applyFields (m : Slots) (fields : List (Byte × Word)) (k : Nat) :
    Store.read (applyFields m fields) k =
      ((fields.filter fun e => e.1.toNat = k).getLast?.map Prod.snd).or (Store.read m k) := by
  induction fields using List.reverseRecOn with
  | nil => rfl
  | append_singleton fields e ih =>
    rw [applyFields, List.foldl_concat, ← applyFields, read_write, List.filter_append]
    by_cases h : e.1.toNat = k
    · simp [h]
    · simpa [h, Ne.symm h] using ih

/-- The state inside a transaction with the slots `m` staged: nothing else has changed but the queue and the port. -/
def State.staging (s : State) (m : Slots) (rest : List Command) (a : Agent) (w : Word) (r : Response) : State :=
  { s with latchStage := m, latchTxn := true, cmds := rest, port := a, cw := w, resp := r }

theorem firstFault_latchBegin {s : State} (hp : s.port = .wrk) (hs : s.started = true) :
    firstFault .latchBegin s = none := by
  simp [firstFault, hp, hs, Instr.opcode, Opcode.permits, Opcode.agents, firstOf]

theorem firstFault_latchApply {s : State} {f : Byte} {v : Word} (hp : s.port = .wrk) (hs : s.started = true)
    (htxn : s.latchTxn = true) (hf : f.toNat < s.params.kFields) : firstFault (.latchApply f v) s = none := by
  simp [firstFault, hp, hs, htxn, hf, fieldInRange, Instr.opcode, Opcode.permits, Opcode.agents, firstOf]

theorem firstFault_latchCommit {s : State} {ts : Time} (hp : s.port = .wrk) (hs : s.started = true)
    (htxn : s.latchTxn = true) : firstFault (.latchCommit ts) s = none := by
  simp [firstFault, hp, hs, htxn, Instr.opcode, Opcode.permits, Opcode.agents, firstOf]

section
variable {s : State} {a : Agent} {w : Word} {r : Response} {m : Slots} (hs : s.started = true)
include hs

/-- LATCH_BEGIN stages the committed slots (R232). -/
theorem step_latchBegin {rest : List Command} (hcmds : s.cmds = commandOf .wrk .latchBegin :: rest) :
    ∃ a w r, step s = .next (s.staging s.latchVal rest a w r) :=
  ⟨_, _, _, step_commandOf hcmds rfl (firstFault_latchBegin rfl hs) trivial⟩

/-- LATCH_APPLY stages its value (R233). -/
theorem step_latchApply {f : Byte} (hf : f.toNat < s.params.kFields) (v : Word) (rest : List Command) :
    ∃ a' w' r', step (s.staging m (commandOf .wrk (.latchApply f v) :: rest) a w r) =
      .next (s.staging (Store.write m f.toNat v) rest a' w' r') :=
  ⟨_, _, _, step_commandOf (s := s.staging ..) rfl rfl
    (firstFault_latchApply (s := (s.staging ..).onPort ..) rfl hs rfl hf) trivial⟩

/-- The commands that apply the values run one by one, and write nothing but the staged slots (R72, R233). -/
theorem runSteps_latchApply (fields : List (Byte × Word)) (rest : List Command)
    (hfields : ∀ e ∈ fields, e.1.toNat < s.params.kFields) :
    ∃ a' w' r', runSteps fields.length
        (s.staging m (fields.map (fun e => commandOf .wrk (.latchApply e.1 e.2)) ++ rest) a w r) =
      .next (s.staging (applyFields m fields) rest a' w' r') := by
  induction fields generalizing m a w r with
  | nil => exact ⟨a, w, r, rfl⟩
  | cons e fields ih =>
    obtain ⟨he, hfields⟩ := List.forall_mem_cons.mp hfields
    obtain ⟨_, _, _, hstep⟩ := step_latchApply hs he e.2 _
    obtain ⟨a', w', r', hrun⟩ := ih hfields
    exact ⟨a', w', r', (runSteps_succ hstep _).trans hrun⟩

/-- LATCH_COMMIT publishes the staged slots (R236). -/
theorem step_latchCommit (ts : Time) (rest : List Command) :
    ∃ w', step (s.staging m (commandOf .wrk (.latchCommit ts) :: rest) a w r) =
      .next { s with latchVal := m, latchStage := m, latchTxn := false, latchTs := ts, latchHasData := true,
                     latchPresent := true, cmds := rest, port := .wrk, cw := w', resp := .done } :=
  ⟨_, step_commandOf (s := s.staging ..) rfl rfl
    (firstFault_latchCommit (s := (s.staging ..).onPort ..) rfl hs rfl) trivial⟩

end

/-- Settles O54: the transaction opens and stages, with the committed elements as they were, and the commit's step
publishes the staged slots. -/
theorem latchUpdatePublishesInOneStep : Obligations.LatchUpdatePublishesInOneStep := by
  intro s ts fields rest hs hfields hcmds
  rw [latchUpdate, List.append_assoc, List.append_assoc] at hcmds
  obtain ⟨_, _, _, hbegin⟩ := step_latchBegin hs hcmds
  obtain ⟨_, _, _, happly⟩ := runSteps_latchApply hs fields (commandOf .wrk (.latchCommit ts) :: rest) hfields
  obtain ⟨_, hcommit⟩ := step_latchCommit hs ts rest
  have hstaged := (runSteps_succ hbegin fields.length).trans happly
  have hpublished := (runSteps_add hstaged 1).trans (runSteps_succ hcommit 0)
  refine ⟨⟨_, hstaged, rfl, rfl, rfl, rfl⟩, _, hpublished, rfl, rfl, rfl, rfl, rfl, fun k => ?_⟩
  refine (read_applyFields s.latchVal fields k).trans ?_
  cases (fields.filter fun e => e.1.toNat = k).getLast? <;> rfl

end Sys2Proof.Machine
end

section
/-!
PROOFS. COBS (R125 to R127): the encoder closes its blocks, the decoder's loop block by block, and the induction over
the blocks of an input by which the round trip, the absence of zero bytes and the length bound follow.
-/

namespace Sys2Proof.Machine

/-! ### The encoder, block by block -/

@[simp] theorem length_cobsBlock (blk : List Byte) : (cobsBlock blk).length = blk.length + 1 := rfl

/-- Non-zero bytes that leave room in the open block only lengthen it (R125). -/
theorem cobsEncodeFrom_append {blk : List Byte} (hz : (0 : Byte) ∉ blk) (rest : List Byte) {opened : List Byte}
    (hlen : opened.length + blk.length < 254) :
    cobsEncodeFrom (blk ++ rest) opened = cobsEncodeFrom rest (opened ++ blk) := by
  induction blk generalizing opened with
  | nil => simp
  | cons b blk ih =>
    obtain ⟨hb, hz⟩ := not_or.mp (mt List.mem_cons.mpr hz)
    rw [List.length_cons] at hlen
    rw [List.cons_append, cobsEncodeFrom, if_neg (Ne.symm hb), if_neg (by omega),
      ih hz (by rw [List.length_append, List.length_singleton]; omega), List.append_assoc]
    rfl

/-- A short block closed by a zero byte. -/
theorem cobsEncode_zero {blk : List Byte} (hz : (0 : Byte) ∉ blk) (hlen : blk.length < 254) (rest : List Byte) :
    cobsEncode (blk ++ 0 :: rest) = cobsBlock blk ++ cobsEncode rest := by
  rw [cobsEncode, cobsEncodeFrom_append hz _ (by simpa using hlen), cobsEncodeFrom, if_pos rfl]
  rfl

/-- A short block closed by the end of the input. -/
theorem cobsEncode_short {blk : List Byte} (hz : (0 : Byte) ∉ blk) (hlen : blk.length < 254) :
    cobsEncode blk = cobsBlock blk := by
  have h := cobsEncodeFrom_append hz [] (opened := []) (by simpa using hlen)
  rwa [List.append_nil] at h

/-- A block of 254 bytes is closed at once, without a final code byte at the end of the input. -/
theorem cobsEncode_full {blk : List Byte} (hz : (0 : Byte) ∉ blk) (hlen : blk.length = 254) (rest : List Byte) :
    cobsEncode (blk ++ rest) = cobsBlock blk ++ (if rest.isEmpty then [] else cobsEncode rest) := by
  obtain ⟨init, b, rfl⟩ : ∃ init b, blk = init ++ [b] :=
    (List.eq_nil_or_concat' blk).resolve_left (by rintro rfl; simp at hlen)
  obtain ⟨hinit, hb⟩ : (0 : Byte) ∉ init ∧ 0 ≠ b := by simpa using hz
  have hl : init.length + 1 = 254 := by simpa using hlen
  rw [cobsEncode, List.append_assoc, cobsEncodeFrom_append hinit _ (by simp; omega), List.nil_append,
    List.singleton_append, cobsEncodeFrom, if_neg (Ne.symm hb), if_pos hl]
  rfl

theorem cobsEncode_full_last {blk : List Byte} (hz : (0 : Byte) ∉ blk) (hlen : blk.length = 254) :
    cobsEncode blk = cobsBlock blk := by
  simpa using cobsEncode_full hz hlen []

theorem cobsEncode_full_append {blk rest : List Byte} (hz : (0 : Byte) ∉ blk) (hlen : blk.length = 254)
    (hrest : rest ≠ []) : cobsEncode (blk ++ rest) = cobsBlock blk ++ cobsEncode rest := by
  rw [cobsEncode_full hz hlen, if_neg (by simpa using hrest)]

/-! ### The blocks of an input -/

/-- Every input begins with a block: of fewer than 254 non-zero bytes before its end or a zero byte, or of 254. -/
theorem cobs_first_block (d : List Byte) :
    ∃ blk, (0 : Byte) ∉ blk ∧
      ((blk.length < 254 ∧ (d = blk ∨ ∃ rest, d = blk ++ 0 :: rest)) ∨
        (blk.length = 254 ∧ ∃ rest, d = blk ++ rest)) := by
  obtain ⟨run, hz, hd⟩ : ∃ run, (0 : Byte) ∉ run ∧ (d = run ∨ ∃ rest, d = run ++ 0 :: rest) := by
    by_cases h : (0 : Byte) ∈ d
    · obtain ⟨run, rest, hd, hz⟩ := List.eq_append_cons_of_mem h
      exact ⟨run, hz, .inr ⟨rest, hd⟩⟩
    · exact ⟨d, h, .inl rfl⟩
  by_cases hlen : run.length < 254
  · exact ⟨run, hz, .inl ⟨hlen, hd⟩⟩
  · have htake : d.take 254 = run.take 254 := by
      obtain rfl | ⟨rest, rfl⟩ := hd
      · rfl
      · exact List.take_append_of_le_length (by omega)
    refine ⟨run.take 254, fun h => hz (List.mem_of_mem_take h), .inr ⟨by simp; omega, d.drop 254, ?_⟩⟩
    rw [← htake, List.take_append_drop]

/-- Induction over the blocks the encoder cuts an input into. -/
theorem cobs_block_induction {P : List Byte → Prop}
    (short : ∀ blk, (0 : Byte) ∉ blk → blk.length < 254 → P blk)
    (zero : ∀ blk rest, (0 : Byte) ∉ blk → blk.length < 254 → P rest → P (blk ++ 0 :: rest))
    (last : ∀ blk, (0 : Byte) ∉ blk → blk.length = 254 → P blk)
    (full : ∀ blk rest, (0 : Byte) ∉ blk → blk.length = 254 → rest ≠ [] → P rest → P (blk ++ rest))
    (d : List Byte) : P d := by
  induction hn : d.length using Nat.strongRecOn generalizing d with
  | _ n ih =>
    obtain ⟨blk, hz, ⟨hlen, rfl | ⟨rest, rfl⟩⟩ | ⟨hlen, rest, rfl⟩⟩ := cobs_first_block d
    · exact short _ hz hlen
    · exact zero blk rest hz hlen (ih _ (by rw [← hn]; simp; omega) rest rfl)
    · rcases eq_or_ne rest [] with rfl | hrest
      · simpa using last blk hz hlen
      · exact full blk rest hz hlen hrest (ih _ (by rw [← hn]; simp; omega) rest rfl)

/-- R125's bound: one code byte for each 254 bytes begun, and one more. -/
theorem length_cobsEncode_le (d : List Byte) : (cobsEncode d).length ≤ d.length + (d.length + 253) / 254 + 1 := by
  induction d using cobs_block_induction with
  | short blk hz hlen => rw [cobsEncode_short hz hlen, length_cobsBlock]; omega
  | zero blk rest hz hlen ih =>
    simp only [cobsEncode_zero hz hlen, length_cobsBlock, List.length_append, List.length_cons]
    omega
  | last blk hz hlen => rw [cobsEncode_full_last hz hlen, length_cobsBlock]; omega
  | full blk rest hz hlen hrest ih =>
    simp only [cobsEncode_full_append hz hlen hrest, length_cobsBlock, List.length_append]
    omega

theorem cobsBlock_of_length {blk : List Byte} (hlen : blk.length = 254) : cobsBlock blk = 0xFF :: blk := by
  rw [cobsBlock, hlen]
  rfl

/-- Settles O33: each clause is the encoder's equation for its kind of block; the bound is by
induction over the blocks. -/
theorem cobsEncodeClosesBlocks : Obligations.CobsEncodeClosesBlocks := by
  refine ⟨fun blk rest hz hlen => cobsEncode_zero hz hlen rest, fun blk hz hlen => cobsEncode_short hz hlen,
    fun blk rest hz hlen hrest => ?_, fun blk hz hlen => ?_, length_cobsEncode_le⟩
  · rw [cobsEncode_full_append hz hlen hrest, cobsBlock_of_length hlen]
  · rw [cobsEncode_full_last hz hlen, cobsBlock_of_length hlen]

/-! ### The decoder, block by block -/

/-- More turns than bytes change nothing. -/
theorem cobsDecodeFrom_turns {turns : Nat} {e : List Byte} (h : e.length ≤ turns) :
    cobsDecodeFrom turns e = cobsDecode e := by
  induction turns using Nat.strongRecOn generalizing e with
  | _ turns ih =>
    cases e with
    | nil => cases turns <;> rfl
    | cons c rest =>
      obtain ⟨turns, rfl⟩ : ∃ n, turns = n + 1 := ⟨turns - 1, by simp at h; omega⟩
      have hrest : rest.length ≤ turns := by simpa using h
      have hdrop : (rest.drop (c.toNat - 1)).length ≤ rest.length := by simp
      rw [cobsDecode, List.length_cons, cobsDecodeFrom, cobsDecodeFrom,
        ih turns (by omega) (hdrop.trans hrest), ih rest.length (by omega) hdrop]

/-- One turn of R126's loop. -/
theorem cobsDecode_cons (c : Byte) (rest : List Byte) :
    cobsDecode (c :: rest) =
      if c = 0 then none
      else if rest.length < c.toNat - 1 then none
      else (cobsDecode (rest.drop (c.toNat - 1))).map fun out =>
        rest.take (c.toNat - 1) ++ cobsJoin c (rest.drop (c.toNat - 1)) ++ out := by
  rw [cobsDecode, List.length_cons, cobsDecodeFrom, cobsDecodeFrom_turns (by simp)]

/-- A whole block is copied, and the loop goes on after it. -/
theorem cobsDecode_block {c : Byte} (hc : c ≠ 0) {blk : List Byte} (hlen : blk.length + 1 = c.toNat)
    (tail : List Byte) :
    cobsDecode (c :: (blk ++ tail)) = (cobsDecode tail).map fun out => blk ++ cobsJoin c tail ++ out := by
  have hcount : c.toNat - 1 = blk.length := by omega
  rw [cobsDecode_cons, if_neg hc, hcount, if_neg (by simp), List.drop_left, List.take_left]

theorem ne_ff_iff_toNat_lt (c : Byte) : c ≠ 0xFF ↔ c.toNat < 0xFF := by
  bv_omega

/-- Settles O34: the clauses are the outcomes of one turn of the loop. -/
theorem cobsDecodeFollowsTheBlockLoop : Obligations.CobsDecodeFollowsTheBlockLoop := by
  refine ⟨rfl, fun rest => ?_, fun c rest hc hlen => ?_, fun c blk tail hc hlen => ?_⟩
  · rw [cobsDecode_cons, if_pos rfl]
  · rw [cobsDecode_cons, if_neg hc, if_pos (by omega)]
  · simp only [cobsDecode_block hc hlen, cobsJoin, ne_ff_iff_toNat_lt, List.isEmpty_iff, ne_eq]

/-! ### The three laws of R127 -/

theorem toNat_blockCode {n : Nat} (h : n ≤ 254) : (BitVec.ofNat 8 (n + 1)).toNat = n + 1 := by
  rw [BitVec.toNat_ofNat, Nat.mod_eq_of_lt (by omega)]

theorem blockCode_ne_zero {n : Nat} (h : n ≤ 254) : BitVec.ofNat 8 (n + 1) ≠ 0 := by
  intro h0
  have := toNat_blockCode h
  simp [h0] at this

theorem blockCode_ne_ff_iff {n : Nat} (h : n ≤ 254) : BitVec.ofNat 8 (n + 1) ≠ 0xFF ↔ n < 254 := by
  rw [ne_ff_iff_toNat_lt, toNat_blockCode h]
  exact Nat.add_lt_add_iff_right

/-- An encoded block decodes to its bytes, with a zero byte where a short block is not the last. -/
theorem cobsDecode_cobsBlock_append {blk : List Byte} (hlen : blk.length ≤ 254) (tail : List Byte) :
    cobsDecode (cobsBlock blk ++ tail) =
      (cobsDecode tail).map fun out => blk ++ (if blk.length < 254 ∧ tail ≠ [] then [0] else []) ++ out := by
  rw [cobsBlock, List.cons_append, cobsDecode_block (blockCode_ne_zero hlen) (toNat_blockCode hlen).symm]
  simp only [cobsJoin, blockCode_ne_ff_iff hlen, List.isEmpty_iff, ne_eq]

theorem cobsDecode_cobsBlock {blk : List Byte} (hlen : blk.length ≤ 254) : cobsDecode (cobsBlock blk) = some blk := by
  have h := cobsDecode_cobsBlock_append hlen []
  have hnil : cobsDecode [] = some [] := rfl
  simpa [hnil] using h

/-- Every encoding has a code byte: the empty one encodes no input. -/
theorem cobsEncode_ne_nil (d : List Byte) : cobsEncode d ≠ [] := by
  induction d using cobs_block_induction with
  | short blk hz hlen => simp [cobsEncode_short hz hlen, cobsBlock]
  | zero blk rest hz hlen _ =>
    rw [cobsEncode_zero hz hlen, cobsBlock]
    exact List.cons_ne_nil _ _
  | last blk hz hlen => simp [cobsEncode_full_last hz hlen, cobsBlock]
  | full blk rest hz hlen hrest _ => simp [cobsEncode_full_append hz hlen hrest, cobsBlock]

/-- Decoding undoes encoding (R127). -/
theorem cobsDecode_cobsEncode (d : List Byte) : cobsDecode (cobsEncode d) = some d := by
  induction d using cobs_block_induction with
  | short blk hz hlen => rw [cobsEncode_short hz hlen, cobsDecode_cobsBlock hlen.le]
  | zero blk rest hz hlen ih =>
    rw [cobsEncode_zero hz hlen, cobsDecode_cobsBlock_append hlen.le, ih, if_pos ⟨hlen, cobsEncode_ne_nil rest⟩]
    simp
  | last blk hz hlen => rw [cobsEncode_full_last hz hlen, cobsDecode_cobsBlock hlen.le]
  | full blk rest hz hlen hrest ih =>
    simp [cobsEncode_full_append hz hlen hrest, cobsDecode_cobsBlock_append hlen.le, ih, hlen]

theorem zero_not_mem_cobsBlock {blk : List Byte} (hz : (0 : Byte) ∉ blk) (hlen : blk.length ≤ 254) :
    (0 : Byte) ∉ cobsBlock blk :=
  List.not_mem_cons_of_ne_of_not_mem (blockCode_ne_zero hlen).symm hz

/-- An encoding holds no delimiter (R127). -/
theorem zero_not_mem_cobsEncode (d : List Byte) : (0 : Byte) ∉ cobsEncode d := by
  induction d using cobs_block_induction with
  | short blk hz hlen => rw [cobsEncode_short hz hlen]; exact zero_not_mem_cobsBlock hz hlen.le
  | zero blk rest hz hlen ih =>
    rw [cobsEncode_zero hz hlen]
    exact List.not_mem_append (zero_not_mem_cobsBlock hz hlen.le) ih
  | last blk hz hlen => rw [cobsEncode_full_last hz hlen]; exact zero_not_mem_cobsBlock hz hlen.le
  | full blk rest hz hlen hrest ih =>
    rw [cobsEncode_full_append hz hlen hrest]
    exact List.not_mem_append (zero_not_mem_cobsBlock hz hlen.le) ih

/-- A run of 300 non-zero bytes is a block of 254 and one of 46. -/
theorem cobsEncode_300 {d : List Byte} (hlen : d.length = 300) (hz : (0 : Byte) ∉ d) :
    cobsEncode d = 0xFF :: d.take 254 ++ 0x2F :: d.drop 254 := by
  have hfirst : (d.take 254).length = 254 := by simp [hlen]
  have hsecond : (d.drop 254).length = 46 := by simp [hlen]
  have hne : d.drop 254 ≠ [] := List.ne_nil_of_length_pos (by omega)
  conv_lhs => rw [← List.take_append_drop 254 d]
  rw [cobsEncode_full_append (fun h => hz (List.mem_of_mem_take h)) hfirst hne, cobsBlock_of_length hfirst,
    cobsEncode_short (fun h => hz (List.mem_of_mem_drop h)) (by omega), cobsBlock, hsecond]
  rfl

/-- Settles O35: round trip and absence of zero bytes by induction over the blocks, the run of 300 by its two blocks. -/
theorem cobsStuffingLaws : Obligations.CobsStuffingLaws := by
  refine ⟨cobsDecode_cobsEncode, zero_not_mem_cobsEncode, fun d hlen hz => ⟨cobsEncode_300 hlen hz, ?_,
    cobsDecode_cobsEncode d⟩⟩
  simp [cobsEncode_300 hlen hz, hlen]

end Sys2Proof.Machine
end

section
/-!
PROOFS. The two CRCs and the sum of sums (R121 to R124): the bit-serial division and the changes it detects, and the
closed form of the sums.
-/

namespace Sys2Proof.Machine

/-! ### CRC16 -/

theorem crc16_cons (init : Half) (b : Byte) (d : List Byte) : crc16 init (b :: d) = crc16 (crcByte init b) d := rfl

theorem crc16_append (init : Half) (d e : List Byte) : crc16 init (d ++ e) = crc16 (crc16 init d) e :=
  List.foldl_append

/-- The shift with the bit it tests by its number (R121). -/
theorem crcShift_eq : crcShift = fun c : Half => if c.getLsbD 15 then (c <<< 1) ^^^ 0x1021 else c <<< 1 := by
  funext c
  rw [crcShift, BitVec.msb_eq_getLsbD_last]

/-- Settles O30: a byte step is eight shifts by definition, and the check values are computed. -/
theorem crcIsTheBitSerialDivision : Obligations.CrcIsTheBitSerialDivision := by
  refine ⟨fun _ => rfl, fun init b rest => ?_, by decide +kernel, by decide +kernel⟩
  rw [← crcShift_eq, crc16_cons]
  rfl

/-- The shift loses nothing: bit 0 of its result is the bit shifted out, since 0x1021 is odd. -/
theorem crcShift_injective : Function.Injective crcShift := by
  have hbit : ∀ c, (crcShift c).getLsbD 0 = c.msb := by
    intro c
    unfold crcShift
    split <;> simp [*]
  intro a b h
  have hmsb : a.msb = b.msb := by rw [← hbit, ← hbit, h]
  have hshift : a <<< 1 = b <<< 1 := by
    unfold crcShift at h
    rw [hmsb] at h
    split at h
    · exact (BitVec.xor_left_inj _).mp h
    · exact h
  simp only [BitVec.msb_eq_decide, decide_eq_decide] at hmsb
  bv_omega

/-- One byte of R121 on the register it is xored into. -/
theorem crcByte_eq (c : Half) (b : Byte) : crcByte c b = crcShift^[8] (c ^^^ (b.setWidth 16 <<< 8)) := rfl

theorem crcByte_injective_left (b : Byte) : Function.Injective (crcByte · b) := by
  intro c c' h
  simp only [crcByte_eq] at h
  exact (BitVec.xor_left_inj _).mp (crcShift_injective.iterate 8 h)

theorem crcByte_injective_right (c : Half) : Function.Injective (crcByte c) := by
  intro b b' h
  simp only [crcByte_eq] at h
  have hhigh := (BitVec.xor_right_inj c).mp (crcShift_injective.iterate 8 h)
  bv_omega

/-- No two register values become equal under the same bytes. -/
theorem crc16_injective (d : List Byte) : Function.Injective (crc16 · d) := by
  induction d with
  | nil => exact Function.injective_id
  | cons b d ih => exact ih.comp (crcByte_injective_left b)

theorem crc16_zeros (n : Nat) : crc16 0 (List.replicate n 0) = 0 := by
  induction n with
  | zero => rfl
  | succ n ih => rw [List.replicate_succ, crc16_cons, show crcByte 0 0 = 0 by decide, ih]

/-- Settles O31: a byte step is injective in the byte and in the register, and keeps 0 on a zero byte. -/
theorem crcSeesEveryOneByteChange : Obligations.CrcSeesEveryOneByteChange := by
  refine ⟨fun n d => ?_, fun init pre post b c hbc h => hbc ?_⟩
  · rw [crc16_append, crc16_zeros]
  · rw [crc16_append, crc16_append, crc16_cons, crc16_cons] at h
    exact crcByte_injective_right _ (crc16_injective post h)

/-! ### Sum of sums -/

theorem fletcher8_append_singleton (d : List Byte) (b : Byte) :
    fletcher8 (d ++ [b]) = ((fletcher8 d).1 + b, (fletcher8 d).2 + ((fletcher8 d).1 + b)) := by
  simp only [fletcher8, List.foldl_append, List.foldl_cons, List.foldl_nil, fletcherByte]

/-- `ck_a` is the sum of the bytes. -/
theorem fletcher8_fst (d : List Byte) : (fletcher8 d).1 = BitVec.ofNat 8 (d.map BitVec.toNat).sum := by
  induction d using List.reverseRecOn with
  | nil => rfl
  | append_singleton d b ih =>
    simp [fletcher8_append_singleton, ih, BitVec.ofNat_add]

/-- The sum of the bytes of a sequence, each weighted by how many bytes stand from it to the end. -/
def weightedSum (d : List Byte) : Nat :=
  ((List.range d.length).map fun k => (d.length - k) * (d.getD k 0).toNat).sum

theorem sum_map_range_getD (d : List Byte) :
    ((List.range d.length).map fun k => (d.getD k 0).toNat).sum = (d.map BitVec.toNat).sum := by
  congr 1
  refine List.ext_getElem (by simp) fun k _ hk => ?_
  rw [List.length_map] at hk
  simp [hk]

/-- One more byte at the end raises every weight by one. -/
theorem weightedSum_append_singleton (d : List Byte) (b : Byte) :
    weightedSum (d ++ [b]) = weightedSum d + ((d.map BitVec.toNat).sum + b.toNat) := by
  have hinit : ∀ k ∈ List.range d.length, (d.length + 1 - k) * ((d ++ [b]).getD k 0).toNat =
      (d.length - k) * (d.getD k 0).toNat + (d.getD k 0).toNat := by
    intro k hk
    have hk : k < d.length := List.mem_range.mp hk
    rw [List.getD_append _ _ _ _ hk, Nat.sub_add_comm hk.le, Nat.add_one_mul]
  rw [weightedSum, List.length_append, List.length_singleton, List.range_succ, List.map_append, List.sum_append,
    List.map_congr_left hinit, List.sum_map_add, sum_map_range_getD]
  simp [weightedSum, Nat.add_assoc]

/-- `ck_b` is the weighted sum of the bytes. -/
theorem fletcher8_snd (d : List Byte) : (fletcher8 d).2 = BitVec.ofNat 8 (weightedSum d) := by
  induction d using List.reverseRecOn with
  | nil => rfl
  | append_singleton d b ih =>
    rw [fletcher8_append_singleton, weightedSum_append_singleton, ih, fletcher8_fst]
    simp [BitVec.ofNat_add]

/-- Settles O32: the recursion is the fold's, and the closed forms follow from it byte by byte from the end. -/
theorem fletcherIsTheSumOfSums : Obligations.FletcherIsTheSumOfSums :=
  ⟨rfl, fletcher8_append_singleton, fun d => ⟨fletcher8_fst d, fletcher8_snd d⟩⟩

end Sys2Proof.Machine
end

section
/-!
PROOFS. The checksum commands and the frame builders (R120, R128 to R130): the worker and a reader may issue all eight,
and none of them writes the block's state.
-/

namespace Sys2Proof.Machine

/-- The worker and a reader may issue what R94 lists for both. -/
theorem permits_of_ne_rcv {o : Opcode} (ho : o.agents = [.wrk, .rdr]) {a : Agent} (ha : a ≠ .rcv) :
    o.permits a = true := by
  rw [Opcode.permits, ho]
  cases a
  case rcv => exact absurd rfl ha
  all_goals rfl

/-- Settles O29: none of the five commands has a check of its own, and each returns its function's value. -/
theorem checksumCommandsReturnTheirValue : Obligations.ChecksumCommandsReturnTheirValue := by
  intro d s hp
  have hdecode : exec (.cobsDecode d) s =
      .next { s with resp := .unstuffed (cobsDecode d).isSome ((cobsDecode d).getD []) } :=
    exec_completes (if_pos (permits_of_ne_rcv rfl hp)) trivial
  refine ⟨exec_completes ?_ trivial, exec_completes ?_ trivial, exec_completes ?_ trivial, exec_completes ?_ trivial,
    fun out h => by rw [hdecode, h]; rfl, fun h => by rw [hdecode, h]; rfl⟩
  all_goals exact if_pos (permits_of_ne_rcv rfl hp)

/-! ### What a builder returns -/

/-- A builder accepts its data where the check does not hold and the rest of its rule accepts them. -/
theorem checkedBuild_eq_ok_iff {c : Prop} [Decidable c] {u : UsageFault} {r : Except UsageFault (List Byte)}
    {fr : List Byte} : (if c then .error u else r) = .ok fr ↔ ¬ c ∧ r = .ok fr := by
  by_cases h : c <;> simp [h]

theorem buildMotor_tooLong {p : Params} {d : List Byte} (h : d.length > 255 ∨ d.length + 5 > p.motorCap) :
    buildMotor p d = .error .tooLong := if_pos h

theorem buildMotor_eq_ok_iff {p : Params} {d fr : List Byte} :
    buildMotor p d = .ok fr ↔ d.length ≤ 255 ∧ d.length + 5 ≤ p.motorCap ∧ fr = motorFrame d := by
  simp only [buildMotor, checkedBuild_eq_ok_iff, Except.ok.injEq, not_or, not_lt, gt_iff_lt, and_assoc,
    eq_comm (b := fr)]

theorem buildSat_badLength (p : Params) {d : List Byte} (h : d.length < 2) : buildSat p d = .error .badLength := by
  match d with
  | [] => rfl
  | [_] => rfl
  | _ :: _ :: _ => simp at h

theorem buildSat_tooLong {p : Params} (cls id : Byte) {d : List Byte} (h : d.length + 8 > p.satCap) :
    buildSat p (cls :: id :: d) = .error .tooLong := if_pos h

theorem buildSat_eq_ok_iff {p : Params} {cls id : Byte} {d fr : List Byte} :
    buildSat p (cls :: id :: d) = .ok fr ↔ d.length + 8 ≤ p.satCap ∧ fr = satFrame p cls id d := by
  simp only [buildSat, checkedBuild_eq_ok_iff, Except.ok.injEq, not_lt, gt_iff_lt, eq_comm (b := fr)]

theorem buildCobs_tooShort (p : Params) {d : List Byte} (h : d.length < 2) : buildCobs p d = .error .tooShort :=
  if_pos h

theorem buildCobs_tooLong {p : Params} {d : List Byte} (hd : 2 ≤ d.length) (h : (cobsStuffed d).length > p.cobsCap) :
    buildCobs p d = .error .tooLong := by
  rw [buildCobs, if_neg (by omega), if_pos h]

theorem buildCobs_eq_ok_iff {p : Params} {d fr : List Byte} :
    buildCobs p d = .ok fr ↔ 2 ≤ d.length ∧ (cobsStuffed d).length ≤ p.cobsCap ∧ fr = cobsFrame d := by
  simp only [buildCobs, checkedBuild_eq_ok_iff, Except.ok.injEq, not_lt, gt_iff_lt, eq_comm (b := fr)]

/-! ### The builders as commands -/

section
variable {s : State} (hp : s.port ≠ .rcv)
include hp

theorem exec_buildMotor (d : List Byte) : exec (.buildMotor d) s = answerBuilt (buildMotor s.params d) s :=
  if_pos (permits_of_ne_rcv rfl hp)

theorem exec_buildSat (d : List Byte) : exec (.buildSat d) s = answerBuilt (buildSat s.params d) s :=
  if_pos (permits_of_ne_rcv rfl hp)

theorem exec_buildCobs (d : List Byte) : exec (.buildCobs d) s = answerBuilt (buildCobs s.params d) s :=
  if_pos (permits_of_ne_rcv rfl hp)

end

/-- A builder's command returns bytes exactly where the builder accepts its data. -/
theorem answerBuilt_eq_bytes_iff {r : Except UsageFault (List Byte)} {s : State} {fr : List Byte} :
    answerBuilt r s = .next { s with resp := .bytes fr } ↔ r = .ok fr := by
  constructor
  · intro h
    cases r with
    | error u => cases congrArg State.resp (Host.Outcome.next.inj h)
    | ok d =>
      cases congrArg State.resp (Host.Outcome.next.inj h)
      rfl
  · rintro rfl
    rfl

/-- Settles O36: a payload too long is refused, any other is framed. -/
theorem buildMotorReturnsTheFrame : Obligations.BuildMotorReturnsTheFrame := by
  intro d s hp
  rw [exec_buildMotor hp]
  refine ⟨fun h => ?_, fun h255 hcap => ?_⟩
  · rw [buildMotor_tooLong h]
    rfl
  · exact answerBuilt_eq_bytes_iff.mpr (buildMotor_eq_ok_iff.mpr ⟨h255, hcap, rfl⟩)

theorem ofNat_mod_256 (n : Nat) : BitVec.ofNat 8 (n % 256) = BitVec.ofNat 8 n :=
  BitVec.eq_of_toNat_eq (by simp)

/-- Settles O37: data without class and id are refused, then a payload too long; any other is framed. -/
theorem buildSatReturnsTheFrame : Obligations.BuildSatReturnsTheFrame := by
  intro s hp
  refine ⟨fun d h => ?_, fun cls id p => ⟨fun h => ?_, fun hcap => ?_⟩⟩
  · rw [exec_buildSat hp, buildSat_badLength _ h]
    rfl
  · rw [exec_buildSat hp, buildSat_tooLong _ _ h]
    rfl
  · rw [exec_buildSat hp, ofNat_mod_256]
    exact answerBuilt_eq_bytes_iff.mpr (buildSat_eq_ok_iff.mpr ⟨hcap, rfl⟩)

/-- Settles O38: a payload too short is refused, then one whose stuffing is too long; any other is framed. -/
theorem buildCobsReturnsTheFrame : Obligations.BuildCobsReturnsTheFrame := by
  intro d s hp
  rw [exec_buildCobs hp]
  refine ⟨fun h => ?_, fun hd h => ?_, fun hd hcap => ?_⟩
  · rw [buildCobs_tooShort _ h]
    rfl
  · rw [buildCobs_tooLong hd h]
    rfl
  · exact answerBuilt_eq_bytes_iff.mpr (buildCobs_eq_ok_iff.mpr ⟨hd, hcap, rfl⟩)

end Sys2Proof.Machine
end

section
/-!
PROOFS. A built frame fed to a fresh decoder (R131): the judges of MOTOR and SAT accept the frame of their builder, the
COBS step collects the stuffed bytes and unstuffs them at the delimiter.
-/

namespace Sys2Proof.Machine

/-! ### Parts of a sequence -/

theorem byteAt_append_right (p q : List Byte) {n : Nat} (i : Nat) (hn : n = p.length + i) :
    byteAt (p ++ q) n = byteAt q i := by
  simp only [byteAt, List.getD_eq_getElem?_getD, hn]
  rw [List.getElem?_append_right (by omega), Nat.add_sub_cancel_left]

theorem slice_append_middle (p q r : List Byte) {i j : Nat} (hi : i = p.length) (hj : j = i + q.length) :
    slice (p ++ q ++ r) i j = q := by
  simp [slice, hj, hi]

/-- A 16-bit value is its two bytes. -/
theorem toNat_hiByte_loByte (c : Half) : 256 * (hiByte c).toNat + (loByte c).toNat = c.toNat := by
  simp only [hiByte, loByte, BitVec.extractLsb'_toNat, Nat.shiftRight_eq_div_pow]
  omega

/-! ### FEED on a fresh decoder -/

/-- FEED of bytes that emit one frame and leave the decoder fresh returns that frame and changes nothing else. -/
theorem exec_feed_of_emits {s : State} (hport : s.port = .wrk) (hstarted : s.started = true) (hpend : s.decP = [])
    (hmode : s.decMode = .normal) {fr : List Byte} {f : Frame}
    (h : feedBytes s.params s.protoSel fr ⟨[], .normal⟩ = ([f], ⟨[], .normal⟩)) :
    exec (.feed fr) s = .next { s with resp := .feed [f] fr.length 1 } := by
  have hfresh : s.dec = ⟨[], .normal⟩ := by rw [dec_eq_mk, hpend, hmode]
  have hkept : s.setDec ⟨[], .normal⟩ = s := by rw [State.setDec, ← hpend, ← hmode]
  have hfault : firstFault (.feed fr) s = none := by
    simp [firstFault, Instr.opcode, Opcode.permits, Opcode.agents, firstOf, hport, hstarted]
  have hneed : needMore s.protoSel [] = 1 := by cases s.protoSel <;> rfl
  rw [exec_completes hfault trivial]
  simp only [written, result, hfresh, h, hkept, hneed]
  rfl

/-- A scanned protocol emits a sequence its judge accepts whole. -/
theorem feedBytes_of_accept {p : Params} {proto : Protocol} {judge : List Byte → Verdict}
    (hjudge : judgeOf p proto = some judge) {fr : List Byte} {f : Frame} (h : judge fr = .accept f fr.length) :
    feedBytes p proto fr ⟨[], .normal⟩ = ([f], ⟨[], .normal⟩) := by
  have hgood := judgeOf_good hjudge
  rw [feedBytes_scan hjudge fr _ hgood.nil, List.nil_append, scanAll_accept hgood h, List.drop_length, scanAll_nil]

/-! ### MOTOR -/

/-- R183's loop accepts a candidate within the cap that is whole and passes R184's check. -/
theorem motorJudge_accept {cap : Nat} {l : Byte} {rest p : List Byte} (hp : p = 0x02 :: l :: rest)
    (hcap : l.toNat + 5 ≤ cap) (hlen : l.toNat + 5 ≤ p.length) (hok : motorOk p l.toNat = true) :
    motorJudge cap p = .accept (.motor (slice p 2 (2 + l.toNat))) (l.toNat + 5) := by
  subst hp
  rw [motorJudge, if_neg (not_not.mpr rfl), if_neg (by omega), if_neg (by omega), if_pos hok]

theorem slice_motorFrame (d : List Byte) : slice (motorFrame d) 2 (2 + d.length) = d :=
  slice_append_middle [_, _] d _ rfl rfl

/-- The trailer and the CRC of a built frame pass R184's check. -/
theorem motorOk_motorFrame (d : List Byte) : motorOk (motorFrame d) d.length = true := by
  have htrailer : ∀ i, byteAt (motorFrame d) (2 + i + d.length) =
      byteAt [hiByte (crcXmodem d), loByte (crcXmodem d), 0x03] i :=
    fun i => byteAt_append_right _ _ i (by simp; omega)
  rw [motorOk, slice_motorFrame, htrailer 0, htrailer 1, htrailer 2]
  simp [byteAt, toNat_hiByte_loByte]

theorem motorJudge_motorFrame {cap : Nat} {d : List Byte} (h255 : d.length ≤ 255) (hcap : d.length + 5 ≤ cap) :
    motorJudge cap (motorFrame d) = .accept (.motor d) (motorFrame d).length := by
  have hl : (BitVec.ofNat 8 d.length).toNat = d.length := by rw [BitVec.toNat_ofNat, Nat.mod_eq_of_lt (by omega)]
  have hlen : (motorFrame d).length = d.length + 5 := by simp [motorFrame]
  have haccept := motorJudge_accept (p := motorFrame d) (l := BitVec.ofNat 8 d.length) rfl (hl.symm ▸ hcap)
    (by rw [hl, hlen]) (by rw [hl, motorOk_motorFrame])
  rw [haccept, hl, slice_motorFrame, hlen]

/-! ### SAT -/

/-- R188's loop accepts a candidate within the cap that is whole and passes R189's check. -/
theorem satJudge_accept {sync1 sync2 : Byte} {cap : Nat} {rest p : List Byte} (hp : p = sync1 :: sync2 :: rest)
    (hcap : satLen p + 8 ≤ cap) (hlen : satLen p + 8 ≤ p.length) (hok : satOk p (satLen p) = true) :
    satJudge sync1 sync2 cap p =
      .accept (.sat (byteAt p 2) (byteAt p 3) (slice p 6 (6 + satLen p))) (satLen p + 8) := by
  subst hp
  rw [satJudge, if_neg (not_not.mpr rfl), if_neg (not_not.mpr rfl), if_neg (by omega), if_neg (by omega),
    if_neg (by omega), if_pos hok]

section
variable (p : Params) (cls id : Byte)

theorem length_satBody (d : List Byte) : (satBody cls id d).length = d.length + 4 := rfl

theorem length_satFrame (d : List Byte) : (satFrame p cls id d).length = d.length + 8 := by
  simp [satFrame, length_satBody]

theorem satLen_satFrame {d : List Byte} (h : d.length ≤ 65535) : satLen (satFrame p cls id d) = d.length := by
  change (BitVec.ofNat 8 d.length).toNat + 256 * (BitVec.ofNat 8 (d.length / 256)).toNat = d.length
  simp only [BitVec.toNat_ofNat]
  omega

/-- The checksum of a built frame passes R189's check. -/
theorem satOk_satFrame (d : List Byte) : satOk (satFrame p cls id d) d.length = true := by
  have hbody : slice (satFrame p cls id d) 2 (6 + d.length) = satBody cls id d :=
    slice_append_middle [_, _] _ _ rfl (by rw [length_satBody]; omega)
  have hsums : ∀ i, byteAt (satFrame p cls id d) (6 + i + d.length) =
      byteAt [(fletcher8 (satBody cls id d)).1, (fletcher8 (satBody cls id d)).2] i :=
    fun i => byteAt_append_right _ _ i (by simp [length_satBody]; omega)
  rw [satOk, hbody, hsums 0, hsums 1]
  simp [byteAt]

theorem satJudge_satFrame {cap : Nat} {d : List Byte} (h : d.length ≤ 65535) (hcap : d.length + 8 ≤ cap) :
    satJudge p.satSync1 p.satSync2 cap (satFrame p cls id d) =
      .accept (.sat cls id d) (satFrame p cls id d).length := by
  have hlen := satLen_satFrame p cls id h
  have hpayload : slice (satFrame p cls id d) 6 (6 + d.length) = d :=
    slice_append_middle [_, _, _, _, _, _] d _ rfl rfl
  have haccept := satJudge_accept (p := satFrame p cls id d) rfl (hlen.symm ▸ hcap) (by rw [hlen, length_satFrame])
    (by rw [hlen, satOk_satFrame])
  rw [haccept, hlen, hpayload, length_satFrame]
  rfl

end

/-! ### COBS -/

/-- Bytes that are no delimiter and fit the cap are collected (R193). -/
theorem feedBytes_cobs_collect {p : Params} {e : List Byte} (hz : (0 : Byte) ∉ e) {pend : List Byte}
    (hcap : pend.length + e.length ≤ p.cobsCap) :
    feedBytes p .cobs e ⟨pend, .normal⟩ = ([], ⟨pend ++ e, .normal⟩) := by
  induction e generalizing pend with
  | nil => simp [feedBytes_nil]
  | cons b e ih =>
    obtain ⟨hb, hz⟩ := not_or.mp (mt List.mem_cons.mpr hz)
    rw [List.length_cons] at hcap
    have hstep : decStep p .cobs b ⟨pend, .normal⟩ = ([], ⟨pend ++ [b], .normal⟩) := by
      simp only [decStep, cobsStep]
      rw [if_neg nofun, if_neg (Ne.symm hb), if_neg (by omega)]
    rw [feedBytes_cons, hstep, ih hz (by rw [List.length_append, List.length_singleton]; omega), List.append_assoc]
    rfl

/-- R194's check on bytes that unstuff to a payload and two more: the payload's length and its little-endian CRC. -/
theorem cobsPayload_of_decode {e d : List Byte} {lo hi : Byte} (h : cobsDecode e = some (d ++ [lo, hi])) :
    cobsPayload e =
      if 2 ≤ d.length ∧ lo.toNat + 256 * hi.toNat = (crcCcittFalse d).toNat then some d else none := by
  have hslice : slice (d ++ [lo, hi]) 0 d.length = d := slice_append_middle [] d _ rfl (Nat.zero_add _).symm
  have hlo : byteAt (d ++ [lo, hi]) d.length = lo := byteAt_append_right d _ 0 rfl
  have hhi : byteAt (d ++ [lo, hi]) (d.length + 1) = hi := byteAt_append_right d _ 1 rfl
  have hlen : (d ++ [lo, hi]).length = d.length + 2 := by simp
  simp only [cobsPayload, h, hlen, Nat.add_sub_cancel, Nat.add_one_sub_one, hslice, hlo, hhi, Nat.reduceLeDiff]

/-- The stuffing of a payload passes R194's check and gives the payload back. -/
theorem cobsPayload_cobsStuffed {d : List Byte} (hd : 2 ≤ d.length) : cobsPayload (cobsStuffed d) = some d := by
  have hcrc := toNat_hiByte_loByte (crcCcittFalse d)
  rw [cobsStuffed, cobsPayload_of_decode (cobsDecode_cobsEncode _), if_pos ⟨hd, by omega⟩]

/-- The COBS frame of a payload is emitted, and the decoder is fresh again. -/
theorem feedBytes_cobsFrame {p : Params} {d : List Byte} (hd : 2 ≤ d.length)
    (hcap : (cobsStuffed d).length ≤ p.cobsCap) :
    feedBytes p .cobs (cobsFrame d) ⟨[], .normal⟩ = ([.cobs d], ⟨[], .normal⟩) := by
  have hz : (0 : Byte) ∉ cobsStuffed d := zero_not_mem_cobsEncode _
  have hdelimiter : decStep p .cobs 0 ⟨cobsStuffed d, .normal⟩ = ([.cobs d], ⟨[], .normal⟩) := by
    simp [decStep, cobsStep, cobsPayload_cobsStuffed hd]
  have hcollect := feedBytes_cobs_collect hz (p := p) (pend := []) (by simpa using hcap)
  rw [List.nil_append] at hcollect
  rw [cobsFrame, feedBytes_append, hcollect, feedBytes_cons, hdelimiter]
  rfl

/-- Settles O39: what the builder accepted fits the decoder of its protocol, which emits the frame whole. -/
theorem builtFramesDecodeToTheirPayload : Obligations.BuiltFramesDecodeToTheirPayload := by
  intro s hparams hport hstarted hpend hmode
  have hrcv : s.port ≠ .rcv := by rw [hport]; nofun
  have hsat : s.params.satCap ≤ 65543 := by omega
  refine ⟨fun d fr hproto hbuild => ?_, fun cls id p fr hproto hbuild => ?_, fun d fr hproto hbuild => ?_⟩ <;>
    refine exec_feed_of_emits hport hstarted hpend hmode ?_ <;> rw [hproto]
  · rw [exec_buildMotor hrcv, answerBuilt_eq_bytes_iff, buildMotor_eq_ok_iff] at hbuild
    obtain ⟨h255, hcap, rfl⟩ := hbuild
    exact feedBytes_of_accept rfl (motorJudge_motorFrame h255 hcap)
  · rw [exec_buildSat hrcv, answerBuilt_eq_bytes_iff, buildSat_eq_ok_iff] at hbuild
    obtain ⟨hcap, rfl⟩ := hbuild
    exact feedBytes_of_accept rfl (satJudge_satFrame s.params cls id (by omega) hcap)
  · rw [exec_buildCobs hrcv, answerBuilt_eq_bytes_iff, buildCobs_eq_ok_iff] at hbuild
    obtain ⟨hd, hcap, rfl⟩ := hbuild
    exact feedBytes_cobsFrame hd hcap

end Sys2Proof.Machine
end

section
/-!
PROOFS. The transport commands one by one (R150 to R160): each is its checks in R263's order, and then a rule that
writes and returns what its statement names.
-/

namespace Sys2Proof.Machine

/-- Settles O2: a step takes the oldest command, and there is none. -/
theorem idleBlockKeepsItsState : Obligations.IdleBlockKeepsItsState :=
  fun _ hnil => step_nil hnil

/-! ### Checks -/

theorem require_of_true {c : Bool} (hc : c = true) (u : UsageFault) (s : State) (k : Result) :
    require c u s k = k := if_pos hc

theorem require_of_false {c : Bool} (hc : c = false) (u : UsageFault) (s : State) (k : Result) :
    require c u s k = .next (s.takeFault u) := by
  rw [hc, require_false]

theorem permitted_eq {o : Opcode} {s : State} {a : Agent} (hport : s.port = a) (ho : o.permits a = true)
    (k : Result) : permitted o s k = k :=
  require_of_true (by rw [hport, ho]) ..

theorem started_eq {s : State} (hs : s.started = true) (k : Result) : started s k = k :=
  require_of_true hs ..

theorem started_eq_fault {s : State} (hs : s.started = false) (k : Result) :
    started s k = .next (s.takeFault .notStarted) :=
  require_of_false hs ..

/-! ### START -/

theorem protocol_ofByte_of_toNat {a : Byte} {p : Protocol} (ha : a.toNat = p.code.toNat) :
    Protocol.ofByte a = some p := by
  have hcode : a = p.code.setWidth 8 := by bv_omega
  rw [hcode]
  cases p <;> rfl

/-- No protocol has a number above 3 (R95). -/
theorem protocol_ofByte_eq_none {a : Byte} (ha : 3 < a.toNat) : Protocol.ofByte a = none := by
  rw [Protocol.ofByte, if_neg, if_neg, if_neg, if_neg] <;> bv_omega

/-- Settles O13: the two checks in their order, and the operand's protocol looked up. -/
theorem startSelectsTheProtocolOnce : Obligations.StartSelectsTheProtocolOnce := by
  intro a s hport
  have hexec := permitted_eq (o := .start) hport rfl
  have hcheck : ∀ k, s.started = false → require (!s.started) .alreadyStarted s k = k :=
    fun _ hs => require_of_true (by rw [hs, Bool.not_false]) ..
  have hselect : ∀ p, s.started = false → a.toNat = p.code.toNat →
      exec (.start a) s = .next { s with protoSel := p, started := true, resp := .done } := by
    intro p hs ha
    refine (hexec _).trans ((hcheck _ hs).trans ?_)
    rw [protocol_ofByte_of_toNat ha]
    rfl
  refine ⟨fun hs => (hexec _).trans (require_of_false (by rw [hs, Bool.not_true]) ..), fun hs ha => ?_,
    hselect .motor, hselect .sat, hselect .cobs, hselect .ascii⟩
  refine (hexec _).trans ((hcheck _ hs).trans ?_)
  rw [protocol_ofByte_eq_none ha, raise_eq]

/-! ### Receptions -/

theorem receiverEvent_of_empty {s : State} (h : s.remaining = s.params.bufCap) : receiverEvent s = s := if_pos h

theorem receiverEvent_of_pending {s : State} (h : s.remaining ≠ s.params.bufCap) (hp : s.pending = true) :
    receiverEvent s = markFull (overrun s) := by
  rw [receiverEvent, if_neg h, if_pos hp]

theorem receiverEvent_of_not_pending {s : State} (h : s.remaining ≠ s.params.bufCap) (hp : s.pending = false) :
    receiverEvent s = markFull (raiseSignal (handoff s)) := by
  simp [receiverEvent, h, hp]

/-- The store of a byte writes a buffer and the counter. -/
theorem storeByte_eq (b : Byte) (s : State) :
    storeByte b s = { s with buf0 := (storeByte b s).buf0, buf1 := (storeByte b s).buf1,
                             remaining := s.remaining - 1 } := by
  cases h : s.active <;> simp [storeByte, State.setBuf, h]

/-- The full event moves no byte, so RX_BYTE writes the one cell `BUF[ACTIVE][FILL]` (R151, R152). -/
theorem cell_receivedByte (b : Byte) (s : State) (k : BufId) (i : Nat) :
    (receivedByte b s).cell k i = if k = s.active ∧ i = s.fill.toNat then some b else s.cell k i := by
  unfold receivedByte
  split <;> simp [cell_storeByte]

/-- RX_BYTE on a started link with a free cell completes (R151, R152). -/
theorem exec_rxByte {a : Byte} {s : State} (hport : s.port = .rcv) (hs : s.started = true) (h0 : s.remaining ≠ 0)
    (hle : s.remaining ≤ s.params.bufCap) : exec (.rxByte a) s = .next ((receivedByte a s).answer .done) := by
  rw [exec_completes (firstFault_rxByte_eq_none_iff.mpr hport) fun _ => ⟨h0, hle⟩, written, if_pos hs]
  rfl

/-- Settles O14: the byte is stored, and the byte that fills the buffer ends the reception. -/
theorem rxByteStoresAtFillAndEndsAFullReception : Obligations.RxByteStoresAtFillAndEndsAFullReception := by
  intro a s hport
  refine ⟨fun hs => (permitted_eq hport rfl _).trans (if_neg (by simp [hs])), fun hs h1 hle => ?_⟩
  have h0 : s.remaining ≠ 0 := by bv_omega
  refine ⟨_, exec_rxByte hport hs h0 hle, fun k i => ?_, fun hmore => ?_, fun hlast hp => ?_, fun hlast hp => ?_⟩
  · rw [cell_answer, cell_receivedByte, fill_toNat hle]
  · have hne : s.remaining ≠ 1 := by bv_omega
    rw [receivedByte, if_neg hne, storeByte_eq]
    rfl
  all_goals
    have hone : s.remaining = 1 := by bv_omega
    have hend : (storeByte a s).remaining ≠ (storeByte a s).params.bufCap := by
      simp only [storeByte_remaining, storeByte_params]
      bv_omega
    rw [receivedByte, if_pos hone]
  · rw [receiverEvent_of_pending hend (by simpa), storeByte_eq]
    rfl
  · rw [receiverEvent_of_not_pending hend (by simpa), storeByte_eq]
    simp [handoff, markFull, raiseSignal, State.answer, State.fill, hone]

/-- Settles O15: a reception end on a started link is R153's event. -/
theorem rxEventHandsOffOrOverruns : Obligations.RxEventHandsOffOrOverruns := by
  intro s hport
  have hexec := permitted_eq (o := .rxEvent) hport rfl
  refine ⟨fun h => ?_, fun hs hne hp => ?_, fun hs hne hp => ?_⟩ <;> refine (hexec _).trans ?_
  · rcases h with hs | hempty
    · rw [if_neg (by simp [hs])]
      rfl
    · rw [receiverEvent_of_empty hempty, ite_self]
      rfl
  · rw [if_pos hs, receiverEvent_of_pending hne hp]
    rfl
  · rw [if_pos hs, receiverEvent_of_not_pending hne hp]
    rfl

/-! ### The worker's commands -/

/-- Settles O16: the start check, and then SIGNAL decides. -/
theorem takeReturnsASignalledHandOffOnce : Obligations.TakeReturnsASignalledHandOffOnce := by
  intro s hport
  have hexec := permitted_eq (o := .take) hport rfl
  refine ⟨fun hs => (hexec _).trans (started_eq_fault hs _), fun hs hsig => ?_, fun hs hsig => ?_⟩ <;>
    refine (hexec _).trans ((started_eq hs _).trans ?_)
  · exact if_pos hsig
  · exact if_neg (by simp [hsig])

/-- Settles O17: the three checks in their order, and then the cell is read. -/
theorem readBufReturnsTheReadyByte : Obligations.ReadBufReturnsTheReadyByte := by
  intro n s hport
  have hexec := permitted_eq (o := .readBuf) hport rfl
  refine ⟨fun hs => (hexec _).trans (started_eq_fault hs _), fun hs hp => ?_, fun hs hp hlen => ?_,
    fun hs hp hlen hcap b hcell => ?_⟩ <;>
    refine (hexec _).trans ((started_eq hs _).trans ?_)
  · exact require_of_false hp ..
  · exact (require_of_true hp ..).trans (require_of_false (decide_eq_false (BitVec.not_lt.mpr hlen)) ..)
  · refine (require_of_true hp ..).trans ((require_of_true (decide_eq_true hlen) ..).trans ?_)
    rw [readCell, if_neg (BitVec.not_le.mpr hcap), hcell]
    rfl

/-- Settles O18: the two checks in their order, and then both flags are cleared. -/
theorem doneConsumesTheHandOff : Obligations.DoneConsumesTheHandOff := by
  intro s hport
  have hexec := permitted_eq (o := .done) hport rfl
  refine ⟨fun hs => (hexec _).trans (started_eq_fault hs _), fun hs hp => ?_, fun hs hp => ?_⟩ <;>
    refine (hexec _).trans ((started_eq hs _).trans ?_)
  · exact require_of_false hp ..
  · exact require_of_true hp ..

/-- Settles O19: the start check, and then the conditions of R159 in their order. -/
theorem flushRearmsOrHandsOffAQuietBuffer : Obligations.FlushRearmsOrHandsOffAQuietBuffer := by
  intro s hport
  have hexec := permitted_eq (o := .flush) hport rfl
  refine ⟨fun hs => (hexec _).trans (started_eq_fault hs _), fun hs hnew => ?_, fun hs hf hq hp => ?_,
    fun hs hf hq hp hempty => ?_, fun hs hf hq hp hne => ?_, rfl⟩ <;>
    refine (hexec _).trans ((started_eq hs _).trans ?_)
  · exact if_pos hnew
  all_goals have hquiet : ¬ (s.fullSinceCheck = true ∨ s.remaining ≠ s.snapRemaining) := by simp [hf, hq]
  · exact (if_neg hquiet).trans (if_pos hp)
  all_goals have hidle : ¬ s.pending = true := by simp [hp]
  · exact (if_neg hquiet).trans ((if_neg hidle).trans (if_pos hempty))
  · exact (if_neg hquiet).trans ((if_neg hidle).trans (if_neg hne))

/-! ### READ_REG -/

section
variable {a : Byte} {s : State} (hp : s.port ≠ .rcv)
include hp

theorem exec_readReg_of_some {v : Word} (hv : regValue a s = some v) :
    exec (.readReg a) s = .next { s with resp := .reg v } := by
  refine (permitted_eq rfl (permits_of_ne_rcv rfl hp) _).trans ?_
  rw [hv]
  rfl

theorem exec_readReg_of_none (hv : regValue a s = none) : exec (.readReg a) s = .next (s.takeFault .badReg) := by
  refine (permitted_eq rfl (permits_of_ne_rcv rfl hp) _).trans ?_
  rw [hv]
  rfl

end

/-- The map of R40 ends at register 9. -/
theorem regValue_eq_none {a : Byte} (h : 9 < a.toNat) (s : State) : regValue a s = none := by
  unfold regValue
  split
  case h_11 => rfl
  all_goals omega

/-- FILL fits its register where `REMAINING` does not exceed `BUF_CAP` (R24). -/
theorem regValue_fill {a : Byte} {s : State} (h : a.toNat = 1) (hle : s.remaining ≤ s.params.bufCap) :
    regValue a s = some (BitVec.ofNat 32 (s.params.bufCap.toNat - s.remaining.toNat)) := by
  rw [← fill_toNat hle]
  simp [regValue, h]

/-- DEC_PLEN has 17 bits (R31). -/
theorem regValue_decPlen {a : Byte} {s : State} (h : a.toNat = 7) (hlen : s.decP.length < 2 ^ 17) :
    regValue a s = some (BitVec.ofNat 32 s.decP.length) := by
  have hext : (BitVec.ofNat 17 s.decP.length).setWidth 32 = BitVec.ofNat 32 s.decP.length :=
    BitVec.setWidth_ofNat_of_le_of_lt (by decide) hlen
  simp [regValue, h, hext]

/-- Settles O20: each number is looked up in the map, and a narrower element is zero-extended. -/
theorem readRegReturnsTheRegister : Obligations.ReadRegReturnsTheRegister := by
  intro a s hp
  have reads : ∀ {v : Nat}, regValue a s = some (BitVec.ofNat 32 v) →
      exec (.readReg a) s = .next { s with resp := .reg (BitVec.ofNat 32 v) } := exec_readReg_of_some hp
  refine ⟨fun h => reads ?_, fun h hle => reads (regValue_fill h hle), fun h => reads ?_, fun h => reads ?_,
    fun h => reads ?_, fun h => reads ?_, fun h => reads ?_, fun h hlen => reads (regValue_decPlen h hlen),
    fun h => reads ?decMode, fun h => reads ?_, fun h => exec_readReg_of_none hp (regValue_eq_none h s)⟩
  case decMode => cases hm : s.decMode <;> simp [regValue, h, hm, DecMode.code]
  all_goals simp [regValue, h]

end Sys2Proof.Machine
end

section
/-!
PROOFS. Runs of the transport: a pending hand-off stays as it is until DONE (R161, R162, R65), a good state does not
stop (R163, R164), and a reception shorter than the buffer is handed off byte for byte (R151 to R154).
-/

namespace Sys2Proof.Machine

/-! ### A pending hand-off -/

/-- `t` still holds the pending hand-off of `s`: the same buffer, the same length, the same bytes. -/
structure State.keepsHandOff (s t : State) : Prop where
  pending : t.pending = true
  readyIdx : t.readyIdx = s.readyIdx
  readyLen : t.readyLen = s.readyLen
  cells : ∀ i, t.cell s.readyIdx i = s.cell s.readyIdx i

theorem keepsHandOff_refl {s : State} (hp : s.pending = true) : s.keepsHandOff s := ⟨hp, rfl, rfl, fun _ => rfl⟩

theorem keepsHandOff_trans {s t u : State} (hst : s.keepsHandOff t) (htu : t.keepsHandOff u) : s.keepsHandOff u where
  pending := htu.pending
  readyIdx := htu.readyIdx.trans hst.readyIdx
  readyLen := htu.readyLen.trans hst.readyLen
  cells := fun i => by
    rw [← hst.cells, ← hst.readyIdx]
    exact htu.cells i

/-- RX_BYTE stores into the active buffer, which is not the worker's (R65, R161). -/
theorem storeByte_keepsHandOff {s : State} (h : s.Inv) (hp : s.pending = true) (b : Byte) :
    s.keepsHandOff (storeByte b s) where
  pending := by simpa
  readyIdx := by simp
  readyLen := by simp
  cells := fun i => by simp [cell_storeByte, h.otherBuffer hp]

/-- A reception end while a hand-off is pending overruns at most (R155). -/
theorem receiverEvent_keepsHandOff {s : State} (hp : s.pending = true) : s.keepsHandOff (receiverEvent s) := by
  rcases receiverEvent_cases s with ⟨-, e⟩ | ⟨-, -, e⟩ | ⟨-, hn, -⟩
  · rw [e]
    exact keepsHandOff_refl hp
  · rw [e]
    exact ⟨hp, rfl, rfl, by simp⟩
  · cases hp.symm.trans hn

theorem receivedByte_keepsHandOff {s : State} (h : s.Inv) (hp : s.pending = true) (b : Byte) :
    s.keepsHandOff (receivedByte b s) := by
  have hstore := storeByte_keepsHandOff h hp b
  unfold receivedByte
  split
  · exact keepsHandOff_trans hstore (receiverEvent_keepsHandOff hstore.pending)
  · exact hstore

/-- FLUSH hands off only where no hand-off is pending (R159). -/
theorem flushWritten_keepsHandOff {s : State} (hp : s.pending = true) : s.keepsHandOff (flushWritten s) := by
  rcases flushWritten_cases s with e | e | ⟨-, hn, -, -⟩
  · rw [e]
    exact ⟨hp, rfl, rfl, cell_congr rfl rfl _⟩
  · rw [e]
    exact keepsHandOff_refl hp
  · cases hp.symm.trans hn

/-- Every completed command but DONE leaves a pending hand-off as it is (R162). -/
theorem written_keepsHandOff {i : Instr} {s : State} (h : s.Inv) (hp : s.pending = true) (hi : i.opcode ≠ .done) :
    s.keepsHandOff (written i s) := by
  cases i
  case rxByte a =>
    simp only [written]
    split
    · exact receivedByte_keepsHandOff h hp a
    · exact keepsHandOff_refl hp
  case rxEvent =>
    simp only [written]
    split
    · exact receiverEvent_keepsHandOff hp
    · exact keepsHandOff_refl hp
  case take =>
    rw [written_take]
    exact ⟨hp, rfl, rfl, cell_congr rfl rfl _⟩
  case done => exact absurd rfl hi
  case flush => exact flushWritten_keepsHandOff hp
  all_goals exact ⟨hp, rfl, rfl, cell_congr rfl rfl _⟩

/-- Only DONE's word decodes to DONE (R94). -/
theorem opcode_ne_done {cw : Word} {d : List Byte} {i : Instr} (hd : decode cw d = .ok i) (hcw : cwOp cw ≠ 0x13) :
    i.opcode ≠ .done := by
  obtain ⟨o, ho, -, -, rfl⟩ := decode_ok_cases hd
  rw [opcode_assemble]
  rintro rfl
  exact hcw (code_of_ofByte ho).symm

/-- A step whose command is not DONE leaves a pending hand-off as it is. -/
theorem step_keepsHandOff {s t : State} (h : s.Inv) (hp : s.pending = true)
    (hdone : ∀ c ∈ s.cmds, cwOp c.cw ≠ 0x13) (hstep : step s = .next t) : s.keepsHandOff t := by
  rcases step_next_cases hstep with ⟨-, rfl⟩ | ⟨c, rest, hcons, ⟨u, rfl⟩ | ⟨i, hd, -, -, rfl⟩⟩
  · exact keepsHandOff_refl hp
  · exact ⟨hp, rfl, rfl, cell_congr rfl rfl _⟩
  · have hi := opcode_ne_done hd (hdone c (by simp [hcons]))
    have hw := written_keepsHandOff (onPort_inv h c rest) hp hi
    exact ⟨hw.pending, hw.readyIdx, hw.readyLen, hw.cells⟩

/-- A step issues no command. -/
theorem step_cmds_subset {s t : State} (hstep : step s = .next t) : t.cmds ⊆ s.cmds := by
  rcases step_next_cases hstep with ⟨-, rfl⟩ | ⟨c, rest, hcons, ⟨u, rfl⟩ | ⟨i, -, -, -, rfl⟩⟩
  · exact List.Subset.refl _
  · simp [hcons]
  · obtain ⟨-, -, hcmds, -, -⟩ := written_fixed i (s.onPort c rest)
    simp [hcons, hcmds]

/-- A good state that still holds the hand-off of `s`, with no DONE issued. -/
structure State.heldSince (s t : State) : Prop where
  inv : t.Inv
  noDone : ∀ c ∈ t.cmds, cwOp c.cw ≠ 0x13
  kept : s.keepsHandOff t

theorem step_heldSince {s t u : State} (h : s.heldSince t) (hstep : step t = .next u) : s.heldSince u where
  inv := everyStepKeepsTheInvariant t u h.inv hstep
  noDone := fun c hc => h.noDone c (step_cmds_subset hstep hc)
  kept := keepsHandOff_trans h.kept (step_keepsHandOff h.inv h.kept.pending h.noDone hstep)

/-- Settles O24: the invariant, the absence of DONE and the hand-off are kept together by every step. -/
theorem heldHandOffIsUntouchedUntilDone : Obligations.HeldHandOffIsUntouchedUntilDone := by
  intro n s t hinv hp hdone hrun
  have hheld : s.heldSince t :=
    runSteps_induction (fun _ _ => step_heldSince) ⟨hinv, hdone, keepsHandOff_refl hp⟩ hrun
  exact ⟨hheld.kept.pending, hheld.kept.readyIdx, hheld.kept.readyLen, hheld.kept.cells⟩

/-! ### Progress -/

/-- READ_BUF completes only on a pending hand-off and below its length (R157). -/
theorem readBuf_of_firstFault {n : Half} {s : State} (hf : firstFault (.readBuf n) s = none) :
    s.pending = true ∧ n < s.readyLen := by
  simp only [firstFault, firstOf] at hf
  split_ifs at hf with _ _ hp hn
  exact ⟨hp, of_decide_eq_true hn⟩

/-- In a good state a command that raises no fault finds the cell it needs (R163, R61). -/
theorem cellThere_of_inv {i : Instr} {s : State} (h : s.Inv) (hf : firstFault i s = none) : cellThere i s := by
  cases i
  case rxByte a =>
    obtain ⟨hpos, hle⟩ := h.remaining
    exact fun _ => ⟨by bv_omega, hle⟩
  case readBuf n =>
    obtain ⟨hp, hn⟩ := readBuf_of_firstFault hf
    obtain ⟨-, hle, hfilled⟩ := h.handedOff hp
    exact ⟨by bv_omega, hfilled n.toNat hn⟩
  all_goals trivial

theorem exec_of_inv {s : State} (h : s.Inv) (i : Instr) : ∃ t, exec i s = .next t := by
  by_contra hstop
  obtain ⟨hf, hc⟩ := exec_stops fun t ht => hstop ⟨t, ht⟩
  exact hc (cellThere_of_inv h hf)

/-- Settles O58: a whole command decodes and finds its cell, or is rejected with a fault. -/
theorem noCommandStopsAGoodState : Obligations.NoCommandStopsAGoodState := by
  intro s h hwhole
  cases hcmds : s.cmds with
  | nil => exact ⟨s, step_nil hcmds⟩
  | cons c rest =>
    cases hd : decode c.cw c.data with
    | ok i =>
      rw [step_ok hcmds hd]
      exact exec_of_inv (onPort_inv h c rest) i
    | error r =>
      rw [step_error hcmds hd]
      rcases rejectCommand_cases r (s.onPort c rest) with ⟨rfl, -⟩ | ⟨u, -, e⟩
      · have hc : c.whole := hwhole c (by simp [hcmds])
        rcases decode_error_cases hd with ⟨hr, -⟩ | ⟨o, ho, ⟨-, hlen⟩ | ⟨hr, -⟩ | ⟨hr, -⟩⟩
        · cases hr
        · exact absurd (hc o ho) hlen
        · cases hr
        · cases hr
      · exact ⟨_, e⟩

/-! ### A reception, byte by byte -/

/-- `t` is `s` with the bytes `d` received on a started link, the active buffer not yet full: they stand in the
active buffer from the old FILL on, and every other cell, the active buffer and `PENDING` are as before (R151). -/
structure State.receives (s : State) (d : List Byte) (t : State) : Prop where
  started : t.started = s.started
  params : t.params = s.params
  active : t.active = s.active
  pending : t.pending = s.pending
  remaining : t.remaining.toNat + d.length = s.remaining.toNat
  fill : t.fill.toNat = s.fill.toNat + d.length
  cell : ∀ k i, t.cell k i =
    if k = s.active ∧ s.fill.toNat ≤ i ∧ i < s.fill.toNat + d.length then d[i - s.fill.toNat]? else s.cell k i

theorem receives_nil (s : State) : s.receives [] s where
  started := rfl
  params := rfl
  active := rfl
  pending := rfl
  remaining := rfl
  fill := rfl
  cell := fun _ _ => (if_neg fun ⟨_, hge, hlt⟩ => absurd hlt (Nat.not_lt.mpr hge)).symm

theorem receives_append {s t u : State} {d e : List Byte} (hst : s.receives d t) (htu : t.receives e u) :
    s.receives (d ++ e) u where
  started := htu.started.trans hst.started
  params := htu.params.trans hst.params
  active := htu.active.trans hst.active
  pending := htu.pending.trans hst.pending
  remaining := by
    have hd := hst.remaining
    have he := htu.remaining
    rw [List.length_append]
    omega
  fill := by rw [htu.fill, hst.fill, List.length_append, Nat.add_assoc]
  cell := fun k i => by
    rw [htu.cell, hst.cell, hst.active, hst.fill, List.length_append]
    -- the cell lies before the end of `d`, or from there on
    by_cases hd : i < s.fill.toNat + d.length
    · rw [if_neg (by omega)]
      grind
    · rw [List.getElem?_append_right (by omega), Nat.sub_sub]
      grind

/-- RX_BYTE with more than one free cell stores its byte in its step (R151). -/
theorem step_rxByte {s : State} {b : Byte} {rest : List Command}
    (hcmds : s.cmds = commandOf .rcv (.rxByte b) :: rest) (hs : s.started = true) (hmore : 1 < s.remaining.toNat)
    (hle : s.remaining ≤ s.params.bufCap) : ∃ t, step s = .next t ∧ t.cmds = rest ∧ s.receives [b] t := by
  have h0 : s.remaining ≠ 0 := by bv_omega
  have h1 : s.remaining ≠ 1 := by bv_omega
  have hstep := step_ok hcmds (decodingAnEncodedCommandGivesItBack (.rxByte b) rfl)
  rw [exec_rxByte (s := s.onPort ..) rfl hs h0 hle, receivedByte, onPort_remaining, if_neg h1] at hstep
  refine ⟨_, hstep, by simp, by simp, by simp, by simp, by simp, ?_, ?_, fun k i => ?_⟩
  · simp only [answer_remaining, storeByte_remaining, onPort_remaining, List.length_singleton]
    bv_omega
  · exact fill_storeByte_toNat (s := s.onPort ..) hle h0 b
  · rw [cell_answer, cell_storeByte, cell_onPort, fill_onPort, onPort_active, List.length_singleton]
    by_cases hi : i = s.fill.toNat
    · simp [hi]
    · rw [if_neg fun h => hi h.2, if_neg fun h => hi (by omega)]

/-- Bytes fewer than the free cells are received one by one, and no reception ends (R99, R151). -/
theorem runSteps_rxBytes {s : State} {d : List Byte} {rest : List Command} (hcmds : s.cmds = rxBytes d ++ rest)
    (hs : s.started = true) (hlt : d.length < s.remaining.toNat) (hle : s.remaining ≤ s.params.bufCap) :
    ∃ t, runSteps d.length s = .next t ∧ t.cmds = rest ∧ s.receives d t := by
  induction d generalizing s with
  | nil => exact ⟨s, rfl, hcmds, receives_nil s⟩
  | cons b d ih =>
    rw [List.length_cons] at hlt
    obtain ⟨t, hstep, htcmds, hb⟩ := step_rxByte hcmds hs (by omega) hle
    have htrem : t.remaining.toNat + 1 = s.remaining.toNat := hb.remaining
    have htle : t.remaining ≤ t.params.bufCap := by
      rw [hb.params]
      bv_omega
    obtain ⟨u, hrun, hucmds, hd⟩ := ih htcmds (hb.started.trans hs) (by omega) htle
    exact ⟨u, (runSteps_succ hstep _).trans hrun, hucmds, receives_append hb hd⟩

/-- RX_EVENT with bytes received and no hand-off pending hands off and signals in its step (R153, R154). -/
theorem step_rxEvent_handsOff {s : State} {rest : List Command} (hcmds : s.cmds = commandOf .rcv .rxEvent :: rest)
    (hs : s.started = true) (hp : s.pending = false) (hne : s.remaining ≠ s.params.bufCap) :
    step s = .next ((markFull (raiseSignal (handoff (s.onPort (commandOf .rcv .rxEvent) rest)))).answer .done) := by
  obtain ⟨-, -, hhandsOff⟩ := rxEventHandsOffOrOverruns (s.onPort (commandOf .rcv .rxEvent) rest) rfl
  rw [step_ok hcmds (decodingAnEncodedCommandGivesItBack .rxEvent rfl)]
  exact hhandsOff hs hne hp

/-- Settles O26: the bytes are received from FILL = 0 on, and the reception end hands them off. -/
theorem shortReceptionIsHandedOffByteForByte : Obligations.ShortReceptionIsHandedOffByteForByte := by
  intro s d rest _ hs hp hempty hpos hlt hcmds
  have hfill : s.fill = 0 := by simp [State.fill, hempty]
  obtain ⟨t, hrun, htcmds, ht⟩ := runSteps_rxBytes hcmds hs (by rwa [hempty])
    (hempty ▸ BitVec.le_refl _)
  have hne : t.remaining ≠ t.params.bufCap := by
    have hrem := ht.remaining
    rw [hempty] at hrem
    rw [ht.params]
    bv_omega
  have hevent := step_rxEvent_handsOff htcmds (ht.started.trans hs) (ht.pending.trans hp) hne
  refine ⟨_, (runSteps_add hrun 1).trans (runSteps_succ hevent 0), rfl, rfl, rfl, ht.active, ?_, fun i => ?_,
    fun i => ?_⟩
  · simpa [hfill] using ht.fill
  · simp [ht.cell, ht.active, hfill]
  · simp [ht.cell, ht.active]

end Sys2Proof.Machine
end

section
/-!
PROOFS. FEED as a command (R181, R203, R204) and VALIDATE_BLOCK (R202): FEED on a started link is `feedBytes` on the
decoder's state, and what it returns and leaves is read off that.
-/

namespace Sys2Proof.Machine

/-! ### FEED -/

theorem firstFault_feed_eq_none_iff {d : List Byte} {s : State} :
    firstFault (.feed d) s = none ↔ s.port = .wrk ∧ s.started = true := by
  cases hp : s.port <;> cases hs : s.started <;>
    simp [firstFault, firstOf, Instr.opcode, Opcode.permits, Opcode.agents, hp, hs]

/-- FEED of a started link's worker completes with what `feedBytes` emits and leaves (R181). -/
theorem exec_feed {s : State} (hport : s.port = .wrk) (hs : s.started = true) (d : List Byte) :
    exec (.feed d) s =
      .next ((s.setDec (feedBytes s.params s.protoSel d s.dec).2).answer (result (.feed d) s)) :=
  exec_completes (firstFault_feed_eq_none_iff.mpr ⟨hport, hs⟩) trivial

/-- A FEED that returns frames raised no fault: what it returned and left is that of `feedBytes`. -/
theorem feed_returned {d : List Byte} {s t : State} {fs : List Frame} {n : Nat} {need : Int}
    (h : exec (.feed d) s = .next t) (hr : t.resp = .feed fs n need) :
    t.dec = (feedBytes s.params s.protoSel d s.dec).2 ∧ t.params = s.params ∧ t.protoSel = s.protoSel ∧
      fs = (feedBytes s.params s.protoSel d s.dec).1 ∧ n = d.length ∧ need = needMore s.protoSel t.decP := by
  rcases exec_next_cases h with ⟨u, -, rfl⟩ | ⟨-, -, rfl⟩
  · cases hr
  · cases hr
    exact ⟨rfl, rfl, rfl, rfl, rfl, rfl⟩

/-- Settles O40: the loop is `feedBytes` by definition, and FEED is its start check and that loop. -/
theorem feedRunsTheByteSteps : Obligations.FeedRunsTheByteSteps := by
  refine ⟨feedBytes_nil, feedBytes_cons, fun d s hport => ⟨fun hs => ?_, fun hs fs c hfeed => ?_⟩⟩
  · exact (permitted_eq (o := .feed) hport rfl _).trans (started_eq_fault hs _)
  · rw [exec_feed hport hs]
    simp only [result, dec_eq_mk, hfeed]
    rfl

/-- Settles O41: the bytes of both halves are fed one by one, whichever FEED brings them. -/
theorem splitFeedsEqualOneFeed : Obligations.SplitFeedsEqualOneFeed := by
  intro s x y hport hs
  refine ⟨_, _, _, _, _, _, exec_feed hport hs x, rfl,
    exec_feed (s := (s.setDec _).answer _) hport hs y, rfl, ?_⟩
  rw [exec_feed hport hs]
  simp only [result, feedBytes_append]
  rfl

/-! ### VALIDATE_BLOCK -/

theorem exec_validateBlock {s : State} (hp : s.port ≠ .rcv) (d : List Byte) :
    exec (.validateBlock d) s = .next { s with resp := .block (validateBlock d) } :=
  exec_completes (if_pos (permits_of_ne_rcv rfl hp)) trivial

/-- Settles O49: no byte, a length byte out of range, too few bytes after it, or a whole block. -/
theorem validateBlockChecksTheLength : Obligations.ValidateBlockChecksTheLength := by
  intro s hp
  refine ⟨exec_validateBlock hp [], fun l rest hrange => ?_, fun l rest h1 h32 hshort => ?_,
    fun l data extra h1 h32 hlen => ?_, rfl⟩ <;> rw [exec_validateBlock hp, validateBlock_cons]
  · rw [if_pos hrange]
  · rw [if_neg (by omega), if_pos hshort]
  · rw [if_neg (by omega), if_neg (by rw [List.length_append]; omega), ← hlen, List.take_left]

end Sys2Proof.Machine
end

section
/-!
PROOFS. The loops of MOTOR and SAT (R183, R184, R188, R189): what their judges say of a candidate, case by case, and
which bytes they accept.
-/

namespace Sys2Proof.Machine

theorem exists_append_of_le_length {n : Nat} {p : List Byte} (h : n ≤ p.length) :
    ∃ x y, x.length = n ∧ p = x ++ y :=
  ⟨p.take n, p.drop n, List.length_take_of_le h, (List.take_append_drop n p).symm⟩

/-- Two bytes that weigh as a 16-bit value does are its bytes. -/
theorem eq_hiByte_loByte {hi lo : Byte} {c : Half} (h : 256 * hi.toNat + lo.toNat = c.toNat) :
    hi = hiByte c ∧ lo = loByte c := by
  have hbytes := toNat_hiByte_loByte c
  constructor <;> bv_omega

/-! ### MOTOR -/

section
variable {cap : Nat}

theorem motorJudge_of_ne_start {b : Byte} (hb : b ≠ 0x02) (q : List Byte) : motorJudge cap (b :: q) = .reject := by
  cases q with
  | nil => exact if_neg hb
  | cons l q => exact if_pos hb

theorem motorJudge_of_tooLong {l : Byte} (hcap : cap < l.toNat + 5) (q : List Byte) :
    motorJudge cap (0x02 :: l :: q) = .reject := by
  rw [motorJudge, if_neg (not_not.mpr rfl), if_pos hcap]

theorem motorJudge_of_partial {l : Byte} {q : List Byte} (hcap : l.toNat + 5 ≤ cap) (hq : q.length + 2 < l.toNat + 5) :
    motorJudge cap (0x02 :: l :: q) = .wait := by
  rw [motorJudge, if_neg (not_not.mpr rfl), if_neg (by omega), if_pos (by simpa using hq)]

theorem slice_payload {l : Byte} {payload : List Byte} (hlen : payload.length = l.toNat) (b : Byte) (tail : List Byte) :
    slice (b :: l :: (payload ++ tail)) 2 (2 + l.toNat) = payload :=
  slice_append_middle [b, l] payload tail rfl (by rw [hlen])

/-- R184's check on a whole candidate: the trailer, and the big-endian CRC of the payload. -/
theorem motorOk_whole {l : Byte} {payload : List Byte} (hlen : payload.length = l.toNat) (hi lo e : Byte)
    (q : List Byte) :
    motorOk (0x02 :: l :: (payload ++ [hi, lo, e] ++ q)) l.toNat = true ↔
      e = 0x03 ∧ 256 * hi.toNat + lo.toNat = (crcXmodem payload).toNat := by
  have htrailer : ∀ i, byteAt (0x02 :: l :: (payload ++ ([hi, lo, e] ++ q))) (2 + i + l.toNat) =
      byteAt ([hi, lo, e] ++ q) i :=
    fun i => byteAt_append_right (0x02 :: l :: payload) _ i (by simp [hlen]; omega)
  rw [List.append_assoc, motorOk, slice_payload hlen, htrailer 0, htrailer 1, htrailer 2]
  simp [byteAt]

/-- A whole candidate is a frame exactly when R184's check holds. -/
theorem motorJudge_whole {l : Byte} {payload : List Byte} (hcap : l.toNat + 5 ≤ cap)
    (hlen : payload.length = l.toNat) (hi lo e : Byte) (q : List Byte) :
    motorJudge cap (0x02 :: l :: (payload ++ [hi, lo, e] ++ q)) =
      if e = 0x03 ∧ 256 * hi.toNat + lo.toNat = (crcXmodem payload).toNat
      then .accept (.motor payload) (l.toNat + 5) else .reject := by
  have hslice : slice (0x02 :: l :: (payload ++ [hi, lo, e] ++ q)) 2 (2 + l.toNat) = payload := by
    rw [List.append_assoc, slice_payload hlen]
  rw [motorJudge, if_neg (not_not.mpr rfl), if_neg (by omega), if_neg (by simp [hlen]), hslice]
  simp only [motorOk_whole hlen]

/-- A candidate is dropped at once, waits, or is whole (R183). -/
theorem motorJudge_cases (p : List Byte) :
    motorJudge cap p = .reject ∨
    (p.length < 2 ∧ motorJudge cap p = .wait) ∨
    (∃ l q, p = 0x02 :: l :: q ∧ l.toNat + 5 ≤ cap ∧ p.length < l.toNat + 5 ∧ motorJudge cap p = .wait) ∨
    (∃ l payload hi lo e q, p = 0x02 :: l :: (payload ++ [hi, lo, e] ++ q) ∧ l.toNat + 5 ≤ cap ∧
      payload.length = l.toNat) := by
  match p with
  | [] => exact .inr (.inl ⟨by simp, rfl⟩)
  | [b] =>
    by_cases hb : b = 0x02
    · exact .inr (.inl ⟨by simp, if_pos hb⟩)
    · exact .inl (motorJudge_of_ne_start hb _)
  | b :: l :: rest =>
    by_cases hb : b = 0x02
    · subst hb
      by_cases hcap : l.toNat + 5 ≤ cap
      · by_cases hq : rest.length + 2 < l.toNat + 5
        · exact .inr (.inr (.inl ⟨l, rest, rfl, hcap, hq, motorJudge_of_partial hcap hq⟩))
        · obtain ⟨payload, tail, hlen, rfl⟩ := exists_append_of_le_length (n := l.toNat) (p := rest) (by omega)
          rw [List.length_append] at hq
          match tail, hq with
          | hi :: lo :: e :: q, _ => exact .inr (.inr (.inr ⟨l, payload, hi, lo, e, q, by simp, hcap, hlen⟩))
          | [], hq | [_], hq | [_, _], hq => simp at hq; omega
      · exact .inl (motorJudge_of_tooLong (by omega) _)
    · exact .inl (motorJudge_of_ne_start hb _)

/-- What is accepted is the wire form of the frame (R81), and nothing beyond it. -/
theorem motorJudge_eq_accept {p : List Byte} {f : Frame} {n : Nat} (h : motorJudge cap p = .accept f n) :
    ∃ payload q, f = .motor payload ∧ payload.length ≤ 255 ∧ p = motorFrame payload ++ q := by
  rcases motorJudge_cases (cap := cap) p with
    h' | ⟨-, h'⟩ | ⟨_, _, -, -, -, h'⟩ | ⟨l, payload, hi, lo, e, q, rfl, hcap, hlen⟩
  · cases h.symm.trans h'
  · cases h.symm.trans h'
  · cases h.symm.trans h'
  · rw [motorJudge_whole hcap hlen] at h
    split at h
    next hok =>
      obtain ⟨rfl, hcrc⟩ := hok
      obtain ⟨rfl, rfl⟩ := eq_hiByte_loByte hcrc
      obtain ⟨rfl, -⟩ := Verdict.accept.inj h
      refine ⟨payload, q, rfl, by omega, ?_⟩
      rw [motorFrame, hlen, BitVec.ofNat_toNat, BitVec.setWidth_eq]
      simp
    next => cases h

end

/-- Settles O42: each clause is the judge's verdict on such a candidate. -/
theorem motorDecoderFollowsItsLoop : Obligations.MotorDecoderFollowsItsLoop := by
  intro p
  have hgood := motorJudge_good p.motorCap
  refine ⟨fun _ _ => rfl, rfl, fun b q hb => scanAll_reject (motorJudge_of_ne_start hb q), rfl,
    fun l q hcap => scanAll_reject (motorJudge_of_tooLong hcap q),
    fun l q hcap hq => scanAll_wait (motorJudge_of_partial hcap hq), fun l payload hi lo e q hcap hlen => ?_⟩
  have hjudge := motorJudge_whole hcap hlen hi lo e q
  refine ⟨fun hok => ?_, fun hbad => scanAll_reject (hjudge.trans (if_neg hbad))⟩
  have hrest : (0x02 :: l :: (payload ++ [hi, lo, e] ++ q)).drop (l.toNat + 5) = q := by
    exact List.drop_left' (l₁ := 0x02 :: l :: (payload ++ [hi, lo, e])) (by simp [hlen])
  exact (scanAll_accept hgood (hjudge.trans (if_pos hok))).trans (by rw [hrest]; rfl)

/-! ### SAT -/

section
variable {sync1 sync2 : Byte} {cap : Nat}

theorem satJudge_of_ne_sync1 {b : Byte} (hb : b ≠ sync1) (q : List Byte) :
    satJudge sync1 sync2 cap (b :: q) = .reject := by
  cases q with
  | nil => exact if_neg hb
  | cons c q => exact if_pos hb

theorem satJudge_of_ne_sync2 {b : Byte} (hb : b ≠ sync2) (q : List Byte) :
    satJudge sync1 sync2 cap (sync1 :: b :: q) = .reject := by
  rw [satJudge, if_neg (not_not.mpr rfl), if_pos hb]

theorem satJudge_of_noLength {q : List Byte} (hq : q.length < 4) :
    satJudge sync1 sync2 cap (sync1 :: sync2 :: q) = .wait := by
  rw [satJudge, if_neg (not_not.mpr rfl), if_neg (not_not.mpr rfl), if_pos (by simp; omega)]

/-- The checks that remain once the length field is buffered. -/
theorem satJudge_of_length {cls id l0 l1 : Byte} {len : Nat} (hlen : l0.toNat + 256 * l1.toNat = len) (q : List Byte) :
    satJudge sync1 sync2 cap (sync1 :: sync2 :: cls :: id :: l0 :: l1 :: q) =
      if cap < len + 8 then .reject
      else if q.length + 6 < len + 8 then .wait
      else if satOk (sync1 :: sync2 :: cls :: id :: l0 :: l1 :: q) len then
        .accept (.sat cls id (slice (sync1 :: sync2 :: cls :: id :: l0 :: l1 :: q) 6 (6 + len))) (len + 8)
      else .reject := by
  subst hlen
  rw [satJudge, if_neg (not_not.mpr rfl), if_neg (not_not.mpr rfl), if_neg (by simp)]
  rfl

theorem satJudge_of_tooLong {cls id l0 l1 : Byte} (hcap : cap < l0.toNat + 256 * l1.toNat + 8) (q : List Byte) :
    satJudge sync1 sync2 cap (sync1 :: sync2 :: cls :: id :: l0 :: l1 :: q) = .reject := by
  rw [satJudge_of_length rfl, if_pos hcap]

theorem satJudge_of_partial {cls id l0 l1 : Byte} {q : List Byte} (hcap : l0.toNat + 256 * l1.toNat + 8 ≤ cap)
    (hq : q.length + 6 < l0.toNat + 256 * l1.toNat + 8) :
    satJudge sync1 sync2 cap (sync1 :: sync2 :: cls :: id :: l0 :: l1 :: q) = .wait := by
  rw [satJudge_of_length rfl, if_neg (by omega), if_pos hq]

section
variable {cls id l0 l1 : Byte} {payload : List Byte} (a b : Byte) (q : List Byte)

/-- R189's check on a whole candidate: the sums over class, id, length and payload. -/
theorem satOk_whole :
    satOk (sync1 :: sync2 :: cls :: id :: l0 :: l1 :: (payload ++ [a, b] ++ q)) payload.length = true ↔
      (a, b) = fletcher8 ([cls, id, l0, l1] ++ payload) := by
  have hsums : ∀ i, byteAt (sync1 :: sync2 :: cls :: id :: l0 :: l1 :: (payload ++ ([a, b] ++ q)))
      (6 + i + payload.length) = byteAt ([a, b] ++ q) i :=
    fun i => byteAt_append_right (sync1 :: sync2 :: cls :: id :: l0 :: l1 :: payload) _ i (by simp; omega)
  have hbody : slice (sync1 :: sync2 :: cls :: id :: l0 :: l1 :: (payload ++ ([a, b] ++ q))) 2 (6 + payload.length) =
      [cls, id, l0, l1] ++ payload :=
    slice_append_middle [sync1, sync2] ([cls, id, l0, l1] ++ payload) ([a, b] ++ q) rfl (by simp; omega)
  rw [List.append_assoc, satOk, hbody, hsums 0, hsums 1]
  simp [byteAt]

/-- A whole candidate is a frame exactly when R189's check holds. -/
theorem satJudge_whole (hlen : payload.length = l0.toNat + 256 * l1.toNat) (hcap : payload.length + 8 ≤ cap) :
    satJudge sync1 sync2 cap (sync1 :: sync2 :: cls :: id :: l0 :: l1 :: (payload ++ [a, b] ++ q)) =
      if (a, b) = fletcher8 ([cls, id, l0, l1] ++ payload)
      then .accept (.sat cls id payload) (payload.length + 8) else .reject := by
  have hslice : slice (sync1 :: sync2 :: cls :: id :: l0 :: l1 :: (payload ++ [a, b] ++ q)) 6 (6 + payload.length) =
      payload := by
    rw [List.append_assoc]
    exact slice_append_middle [_, _, _, _, _, _] payload _ rfl rfl
  rw [satJudge_of_length hlen.symm, if_neg (by omega), if_neg (by simp), hslice]
  simp only [satOk_whole]

end

/-- A candidate is dropped at once, waits, or is whole (R188). -/
theorem satJudge_cases (p : List Byte) :
    satJudge sync1 sync2 cap p = .reject ∨
    (p.length < 6 ∧ satJudge sync1 sync2 cap p = .wait) ∨
    (∃ cls id l0 l1 q, p = sync1 :: sync2 :: cls :: id :: l0 :: l1 :: q ∧
      l0.toNat + 256 * l1.toNat + 8 ≤ cap ∧ p.length < l0.toNat + 256 * l1.toNat + 8 ∧
      satJudge sync1 sync2 cap p = .wait) ∨
    (∃ cls id l0 l1 payload a b q, p = sync1 :: sync2 :: cls :: id :: l0 :: l1 :: (payload ++ [a, b] ++ q) ∧
      payload.length + 8 ≤ cap ∧ payload.length = l0.toNat + 256 * l1.toNat) := by
  match p with
  | [] => exact .inr (.inl ⟨by simp, rfl⟩)
  | [c] =>
    by_cases hc : c = sync1
    · exact .inr (.inl ⟨by simp, if_pos hc⟩)
    · exact .inl (satJudge_of_ne_sync1 hc _)
  | c :: d :: rest =>
    by_cases hc : c = sync1
    case neg => exact .inl (satJudge_of_ne_sync1 hc _)
    by_cases hd : d = sync2
    case neg => exact .inl (hc ▸ satJudge_of_ne_sync2 hd _)
    subst hc hd
    by_cases h4 : rest.length < 4
    · exact .inr (.inl ⟨by simp; omega, satJudge_of_noLength h4⟩)
    match rest, h4 with
    | [], h4 | [_], h4 | [_, _], h4 | [_, _, _], h4 => simp at h4
    | cls :: id :: l0 :: l1 :: rest, _ =>
      by_cases hcap : l0.toNat + 256 * l1.toNat + 8 ≤ cap
      case neg => exact .inl (satJudge_of_tooLong (by omega) _)
      by_cases hq : rest.length + 6 < l0.toNat + 256 * l1.toNat + 8
      · exact .inr (.inr (.inl ⟨cls, id, l0, l1, rest, rfl, hcap, hq, satJudge_of_partial hcap hq⟩))
      · obtain ⟨payload, tail, hlen, rfl⟩ :=
          exists_append_of_le_length (n := l0.toNat + 256 * l1.toNat) (p := rest) (by omega)
        rw [List.length_append] at hq
        match tail, hq with
        | a :: b :: q, _ =>
          exact .inr (.inr (.inr ⟨cls, id, l0, l1, payload, a, b, q, by simp, by omega, hlen⟩))
        | [], hq | [_], hq => simp at hq; omega

/-- What is accepted is the wire form of the frame (R83), and nothing beyond it. -/
theorem satJudge_eq_accept {p : Params} {w : List Byte} {f : Frame} {n : Nat}
    (h : satJudge p.satSync1 p.satSync2 cap w = .accept f n) :
    ∃ cls id payload q, f = .sat cls id payload ∧ payload.length ≤ 65535 ∧ w = satFrame p cls id payload ++ q := by
  rcases satJudge_cases (sync1 := p.satSync1) (sync2 := p.satSync2) (cap := cap) w with
    h' | ⟨-, h'⟩ | ⟨_, _, _, _, _, -, -, -, h'⟩ | ⟨cls, id, l0, l1, payload, a, b, q, rfl, hcap, hlen⟩
  · cases h.symm.trans h'
  · cases h.symm.trans h'
  · cases h.symm.trans h'
  · rw [satJudge_whole a b q hlen hcap] at h
    split at h
    next hok =>
      obtain ⟨rfl, -⟩ := Verdict.accept.inj h
      have hl0 : BitVec.ofNat 8 payload.length = l0 := by bv_omega
      have hl1 : BitVec.ofNat 8 (payload.length / 256) = l1 := by bv_omega
      refine ⟨cls, id, payload, q, rfl, by omega, ?_⟩
      rw [satFrame, satBody, hl0, hl1, ← hok]
      simp
    next => cases h

end

/-- Settles O43: each clause is the judge's verdict on such a candidate. -/
theorem satDecoderFollowsItsLoop : Obligations.SatDecoderFollowsItsLoop := by
  intro p
  have hgood := satJudge_good p.satSync1 p.satSync2 p.satCap
  refine ⟨fun _ _ => rfl, rfl, fun b q hb => scanAll_reject (satJudge_of_ne_sync1 hb q), scanAll_wait (if_pos rfl),
    fun b q hb => scanAll_reject (satJudge_of_ne_sync2 hb q), fun q hq => scanAll_wait (satJudge_of_noLength hq),
    fun cls id l0 l1 q => ⟨fun hcap => scanAll_reject (satJudge_of_tooLong hcap q),
      fun hcap hq => scanAll_wait (satJudge_of_partial hcap hq), fun payload a b hcap hlen => ?_⟩⟩
  have hjudge := satJudge_whole (sync1 := p.satSync1) (sync2 := p.satSync2) (cls := cls) (id := id) a b q hlen
    (hlen ▸ hcap)
  refine ⟨fun hok => ?_, fun hbad => scanAll_reject (hjudge.trans (if_neg hbad))⟩
  have hrest : (p.satSync1 :: p.satSync2 :: cls :: id :: l0 :: l1 :: (payload ++ [a, b] ++ q)).drop
      (payload.length + 8) = q :=
    List.drop_left' (l₁ := p.satSync1 :: p.satSync2 :: cls :: id :: l0 :: l1 :: (payload ++ [a, b])) (by simp)
  exact (scanAll_accept hgood (hjudge.trans (if_pos hok))).trans (by rw [hrest]; rfl)

end Sys2Proof.Machine
end

section
/-!
PROOFS. The byte steps of COBS and ASCII (R193 to R195, R198, R199): an equation per case of each step, and which
encoded frames pass R194's check.
-/

namespace Sys2Proof.Machine

/-! ### COBS -/

section
variable (p : Params)

theorem decStep_cobs_discard {b : Byte} (hb : b ≠ 0) (pend : List Byte) :
    decStep p .cobs b ⟨pend, .discard⟩ = ([], ⟨pend, .discard⟩) := by
  simp only [decStep, cobsStep, if_true, if_neg hb]

theorem decStep_cobs_resync (pend : List Byte) : decStep p .cobs 0 ⟨pend, .discard⟩ = ([], ⟨pend, .normal⟩) := rfl

theorem decStep_cobs_delimiter (q : List Byte) :
    decStep p .cobs 0 ⟨q, .normal⟩ = (((cobsPayload q).map Frame.cobs).toList, ⟨[], .normal⟩) := rfl

theorem decStep_cobs_overflow {b : Byte} (hb : b ≠ 0) {q : List Byte} (hq : q.length = p.cobsCap) :
    decStep p .cobs b ⟨q, .normal⟩ = ([], ⟨[], .discard⟩) := by
  simp only [decStep, cobsStep, reduceCtorEq, if_false, if_neg hb, if_pos hq]

theorem decStep_cobs_append {b : Byte} (hb : b ≠ 0) {q : List Byte} (hq : q.length ≠ p.cobsCap) :
    decStep p .cobs b ⟨q, .normal⟩ = ([], ⟨q ++ [b], .normal⟩) := by
  simp only [decStep, cobsStep, reduceCtorEq, if_false, if_neg hb, if_neg hq]

end

/-- R194's check, with the payload and its CRC named: the encoded bytes unstuff to a payload of at least two bytes and
its little-endian CRC. -/
theorem cobsPayload_eq_some_iff {e d : List Byte} :
    cobsPayload e = some d ↔ ∃ lo hi, cobsDecode e = some (d ++ [lo, hi]) ∧ 2 ≤ d.length ∧
      lo.toNat + 256 * hi.toNat = (crcCcittFalse d).toNat := by
  constructor
  · intro h
    cases hdecode : cobsDecode e with
    | none => simp [cobsPayload, hdecode] at h
    | some out =>
      have hfour : 4 ≤ out.length := by
        by_contra hshort
        simp [cobsPayload, hdecode, hshort] at h
      obtain ⟨d', crc, hlen, rfl⟩ := exists_append_of_le_length (n := out.length - 2) (p := out) (by omega)
      rw [List.length_append] at hfour hlen
      match crc, hlen with
      | [lo, hi], hlen =>
        rw [cobsPayload_of_decode hdecode] at h
        split at h
        next hok =>
          cases h
          exact ⟨lo, hi, rfl, hok⟩
        next => cases h
      | [], hlen | [_], hlen | _ :: _ :: _ :: _, hlen => simp at hlen hfour; omega
  · rintro ⟨lo, hi, hdecode, hok⟩
    rw [cobsPayload_of_decode hdecode, if_pos hok]

/-- Settles O44: the step's four cases, and R194's check at the delimiter. -/
theorem cobsDecoderFollowsItsStep : Obligations.CobsDecoderFollowsItsStep := by
  intro p b q
  refine ⟨fun pend hb => decStep_cobs_discard p hb pend, decStep_cobs_resync p, fun hb => decStep_cobs_overflow p hb,
    fun hb => decStep_cobs_append p hb, fun payload lo hi hdecode hlen hcrc => ?_, fun hbad => ?_⟩ <;>
    rw [decStep_cobs_delimiter]
  · rw [cobsPayload_eq_some_iff.mpr ⟨lo, hi, hdecode, hlen, hcrc⟩]
    rfl
  · cases hpayload : cobsPayload q with
    | none => rfl
    | some payload =>
      obtain ⟨lo, hi, hdecode, hlen, hcrc⟩ := cobsPayload_eq_some_iff.mp hpayload
      exact absurd hcrc (hbad payload lo hi hdecode hlen)

/-! ### ASCII -/

section
variable (p : Params)

theorem decStep_ascii_dollar (c : DecState) : decStep p .ascii 0x24 c = ([], ⟨[0x24], .line⟩) := rfl

theorem decStep_ascii_normal {b : Byte} (hb : b ≠ 0x24) (q : List Byte) :
    decStep p .ascii b ⟨q, .normal⟩ = ([], ⟨q, .normal⟩) := by
  simp only [decStep, asciiStep, if_neg hb]

theorem decStep_ascii_discard {b : Byte} (hb : b ≠ 0x24) (hlf : b ≠ 0x0A) (q : List Byte) :
    decStep p .ascii b ⟨q, .discard⟩ = ([], ⟨q, .discard⟩) := by
  simp only [decStep, asciiStep, if_neg hb, if_neg hlf]

theorem decStep_ascii_resync (q : List Byte) : decStep p .ascii 0x0A ⟨q, .discard⟩ = ([], ⟨q, .normal⟩) := rfl

theorem decStep_ascii_overflow {b : Byte} (hb : b ≠ 0x24) (hlf : b ≠ 0x0A) {q : List Byte}
    (hq : q.length = p.asciiCap) : decStep p .ascii b ⟨q, .line⟩ = ([], ⟨[], .discard⟩) := by
  simp only [decStep, asciiStep, if_neg hb, if_neg hlf, if_pos hq]

theorem decStep_ascii_overflow_newline {q : List Byte} (hq : q.length = p.asciiCap) :
    decStep p .ascii 0x0A ⟨q, .line⟩ = ([], ⟨[], .normal⟩) := by
  simp [decStep, asciiStep, hq]

theorem decStep_ascii_append {b : Byte} (hb : b ≠ 0x24) (hlf : b ≠ 0x0A) {q : List Byte}
    (hq : q.length ≠ p.asciiCap) : decStep p .ascii b ⟨q, .line⟩ = ([], ⟨q ++ [b], .line⟩) := by
  simp only [decStep, asciiStep, if_neg hb, if_neg hlf, if_neg hq]

theorem decStep_ascii_newline {q : List Byte} (hq : q.length ≠ p.asciiCap) :
    decStep p .ascii 0x0A ⟨q, .line⟩ = ([.ascii (q ++ [0x0A])], ⟨[], .normal⟩) := by
  simp [decStep, asciiStep, hq]

end

/-- Settles O45: the step's eight cases. -/
theorem asciiFramerFollowsItsStep : Obligations.AsciiFramerFollowsItsStep := fun p _ q =>
  ⟨fun _ => decStep_ascii_dollar p _, fun hb => decStep_ascii_normal p hb q,
    fun hb hlf => decStep_ascii_discard p hb hlf q, decStep_ascii_resync p q,
    fun hb hlf => decStep_ascii_overflow p hb hlf, decStep_ascii_overflow_newline p,
    fun hb hlf => decStep_ascii_append p hb hlf, decStep_ascii_newline p⟩

end Sys2Proof.Machine
end

section
/-!
PROOFS. The need (R185, R190, R196, R200, R204): in a good decoder state it is positive, and fewer bytes complete no
frame. A candidate whose length field is not buffered, a COBS frame and an ASCII line need one byte.
-/

namespace Sys2Proof.Machine

/-- A need of one byte is not met by fewer: there is none. -/
theorem eq_nil_of_length_lt {e : List Byte} {need : Int} (hneed : need = 1) (he : (e.length : Int) < need) : e = [] :=
  List.eq_nil_of_length_eq_zero (by omega)

/-! ### Candidates that wait -/

theorem motorJudge_eq_wait {cap : Nat} {q : List Byte} (h : motorJudge cap q = .wait) :
    q.length < 2 ∨ ∃ l tail, q = 0x02 :: l :: tail ∧ l.toNat + 5 ≤ cap ∧ q.length < l.toNat + 5 := by
  rcases motorJudge_cases (cap := cap) q with
    h' | ⟨hlen, -⟩ | ⟨l, tail, hq, hcap, hlen, -⟩ | ⟨l, payload, hi, lo, e, tail, rfl, hcap, hlen⟩
  · cases h.symm.trans h'
  · exact .inl hlen
  · exact .inr ⟨l, tail, hq, hcap, hlen⟩
  · rw [motorJudge_whole hcap hlen] at h
    split at h <;> cases h

theorem satJudge_eq_wait {sync1 sync2 : Byte} {cap : Nat} {q : List Byte} (h : satJudge sync1 sync2 cap q = .wait) :
    q.length < 6 ∨ ∃ cls id l0 l1 tail, q = sync1 :: sync2 :: cls :: id :: l0 :: l1 :: tail ∧
      l0.toNat + 256 * l1.toNat + 8 ≤ cap ∧ q.length < l0.toNat + 256 * l1.toNat + 8 := by
  rcases satJudge_cases (sync1 := sync1) (sync2 := sync2) (cap := cap) q with
    h' | ⟨hlen, -⟩ | ⟨cls, id, l0, l1, tail, hq, hcap, hlen, -⟩ |
      ⟨cls, id, l0, l1, payload, a, b, tail, rfl, hcap, hlen⟩
  · cases h.symm.trans h'
  · exact .inl hlen
  · exact .inr ⟨cls, id, l0, l1, tail, hq, hcap, hlen⟩
  · rw [satJudge_whole a b tail hlen hcap] at h
    split at h <;> cases h

/-- `n` more bytes are missing from the candidate: at least one, and with fewer it still waits. -/
def stillMissing (judge : List Byte → Verdict) (q : List Byte) (n : Int) : Prop :=
  1 ≤ n ∧ ∀ e : List Byte, (e.length : Int) < n → judge (q ++ e) = .wait

theorem stillMissing_one {judge : List Byte → Verdict} {q : List Byte} (h : judge q = .wait) {n : Int} (hn : n = 1) :
    stillMissing judge q n :=
  ⟨hn.ge, fun e he => by rw [eq_nil_of_length_lt hn he, List.append_nil, h]⟩

theorem needMore_motor_cons (b l : Byte) (tail : List Byte) :
    needMore .motor (b :: l :: tail) = l.toNat + 5 - (tail.length + 2) := by
  rw [needMore, if_neg (by simp)]
  simp only [byteAt, List.getD_cons_succ, List.getD_cons_zero, List.length_cons]
  omega

theorem needMore_sat_cons (b c cls id l0 l1 : Byte) (tail : List Byte) :
    needMore .sat (b :: c :: cls :: id :: l0 :: l1 :: tail) =
      l0.toNat + 256 * l1.toNat + 8 - (tail.length + 6) := by
  rw [needMore, if_neg (by simp)]
  simp only [satLen, byteAt, List.getD_cons_succ, List.getD_cons_zero, List.length_cons]
  omega

theorem motor_need {cap : Nat} {q : List Byte} (h : motorJudge cap q = .wait) :
    stillMissing (motorJudge cap) q (needMore .motor q) := by
  rcases motorJudge_eq_wait h with hshort | ⟨l, tail, rfl, hcap, hlen⟩
  · exact stillMissing_one h (if_pos hshort)
  · simp only [List.length_cons] at hlen
    rw [needMore_motor_cons]
    exact ⟨by omega, fun e he => motorJudge_of_partial (q := tail ++ e) hcap (by rw [List.length_append]; omega)⟩

theorem sat_need {sync1 sync2 : Byte} {cap : Nat} {q : List Byte} (h : satJudge sync1 sync2 cap q = .wait) :
    stillMissing (satJudge sync1 sync2 cap) q (needMore .sat q) := by
  rcases satJudge_eq_wait h with hshort | ⟨cls, id, l0, l1, tail, rfl, hcap, hlen⟩
  · exact stillMissing_one h (if_pos hshort)
  · simp only [List.length_cons] at hlen
    rw [needMore_sat_cons]
    exact ⟨by omega, fun e he => satJudge_of_partial (q := tail ++ e) hcap (by rw [List.length_append]; omega)⟩

/-! ### Every decoder -/

/-- A scanned protocol emits nothing while its candidate waits. -/
theorem feedBytes_of_wait {p : Params} {proto : Protocol} {judge : List Byte → Verdict}
    (hjudge : judgeOf p proto = some judge) {c : DecState} {e : List Byte} (hc : judge c.pend = .wait)
    (he : judge (c.pend ++ e) = .wait) : (feedBytes p proto e c).1 = [] := by
  rw [feedBytes_scan hjudge e c hc, scanAll_wait he]

theorem one_le_needMore {p : Params} {proto : Protocol} {c : DecState} (h : c.good p proto) :
    1 ≤ needMore proto c.pend := by
  cases proto
  case motor => exact (motor_need h.2).1
  case sat => exact (sat_need h.2).1
  case cobs | ascii => exact le_rfl

/-- Fewer bytes than the need complete no frame. -/
theorem feedBytes_of_length_lt_need {p : Params} {proto : Protocol} {c : DecState} (h : c.good p proto)
    {e : List Byte} (he : (e.length : Int) < needMore proto c.pend) : (feedBytes p proto e c).1 = [] := by
  cases proto
  case motor => exact feedBytes_of_wait rfl h.2 ((motor_need h.2).2 e he)
  case sat => exact feedBytes_of_wait rfl h.2 ((sat_need h.2).2 e he)
  case cobs | ascii => rw [eq_nil_of_length_lt rfl he]; rfl

/-- Settles O46: FEED leaves a good decoder state, whose need is the rule's. -/
theorem feedNeedIsTheBytesStillMissing : Obligations.FeedNeedIsTheBytesStillMissing := by
  intro s t d fs n need hinv hfeed hresp
  obtain ⟨hdec, hparams, hproto, -, rfl, rfl⟩ := feed_returned hfeed hresp
  have hgood : t.dec.good s.params s.protoSel := hdec ▸ feedBytes_good hinv.params d hinv.decoder
  refine ⟨rfl, one_le_needMore hgood, fun hmotor => by rw [hmotor]; rfl, fun hsat => ?_,
    fun hcobs => by rw [hcobs]; rfl, fun hascii => by rw [hascii]; rfl, fun e u fs' n' need' he hfeed' hresp' => ?_⟩
  · rw [hsat, needMore, satLen]
    push_cast
    rfl
  · obtain ⟨-, -, -, rfl, -, -⟩ := feed_returned hfeed' hresp'
    rw [hparams, hproto]
    exact feedBytes_of_length_lt_need hgood he

end Sys2Proof.Machine
end

section
/-!
PROOFS. A frame is emitted only where its wire form stood in the bytes received (R180, R204): each byte step emits a
frame whose wire form stands in the bytes it holds, and keeps an end of them.
-/

namespace Sys2Proof.Machine

/-- The bytes are the frame's wire form on a link of the protocol, with its integrity bytes (R81, R83, R85, R198). -/
def wireForm (p : Params) (proto : Protocol) (f : Frame) (wire : List Byte) : Prop :=
  match proto with
  | .motor => ∃ payload, f = .motor payload ∧ payload.length ≤ 255 ∧ wire = motorFrame payload
  | .sat => ∃ cls id payload, f = .sat cls id payload ∧ payload.length ≤ 65535 ∧ wire = satFrame p cls id payload
  | .cobs => ∃ payload e, f = .cobs payload ∧ 2 ≤ payload.length ∧ (0 : Byte) ∉ e ∧ wire = e ++ [0] ∧
      cobsDecode e = some (payload ++ [loByte (crcCcittFalse payload), hiByte (crcCcittFalse payload)])
  | .ascii => ∃ line, f = .ascii line ∧ 2 ≤ line.length ∧ line.length ≤ p.asciiCap ∧
      line.head? = some 0x24 ∧ line.getLast? = some 0x0A ∧ wire = line

/-! ### The scan -/

/-- A scan keeps an end of the bytes it is given. -/
theorem scanAll_suffix {judge : List Byte → Verdict} (hj : GoodJudge judge) (q : List Byte) :
    (scanAll judge q).2 <:+ q := by
  induction hn : q.length using Nat.strongRecOn generalizing q with
  | _ n ih =>
    cases q with
    | nil => exact List.suffix_rfl
    | cons b q =>
      cases hv : judge (b :: q) with
      | wait => rw [scanAll_wait hv]
      | reject =>
        rw [scanAll_reject hv]
        exact (ih q.length (by simp at hn; omega) q rfl).trans (List.suffix_cons b q)
      | accept f len =>
        rw [scanAll_accept hj hv]
        have hlen := hj.accept_length hv
        exact (ih _ (by simp only [List.length_drop, List.length_cons] at *; omega) _ rfl).trans (List.drop_suffix _ _)

/-- A scan emits a frame only where a candidate within its bytes is accepted. -/
theorem exists_accept_of_mem_scanAll {judge : List Byte → Verdict} (hj : GoodJudge judge) {q : List Byte} {f : Frame}
    (hf : f ∈ (scanAll judge q).1) : ∃ tail n, tail <:+ q ∧ judge tail = .accept f n := by
  induction hn : q.length using Nat.strongRecOn generalizing q with
  | _ n ih =>
    cases q with
    | nil => simp [scanAll_nil] at hf
    | cons b q =>
      cases hv : judge (b :: q) with
      | wait => simp [scanAll_wait hv] at hf
      | reject =>
        rw [scanAll_reject hv] at hf
        obtain ⟨tail, n, htail, hacc⟩ := ih q.length (by simp at hn; omega) hf rfl
        exact ⟨tail, n, htail.trans (List.suffix_cons b q), hacc⟩
      | accept g len =>
        rw [scanAll_accept hj hv] at hf
        rcases List.mem_cons.mp hf with rfl | hf
        · exact ⟨_, len, List.suffix_rfl, hv⟩
        · have hlen := hj.accept_length hv
          obtain ⟨tail, n, htail, hacc⟩ :=
            ih _ (by simp only [List.length_drop, List.length_cons] at *; omega) hf rfl
          exact ⟨tail, n, htail.trans (List.drop_suffix _ _), hacc⟩

/-! ### Byte steps -/

/-- A COBS step in a good state empties the continuation, keeps it empty, or appends the byte. -/
theorem decStep_cobs_suffix {p : Params} {c : DecState} (h : c.good p .cobs) (b : Byte) :
    (decStep p .cobs b c).2.pend <:+ c.pend ++ [b] := by
  obtain ⟨-, -, -, hdiscard⟩ := h
  simp only [decStep, cobsStep]
  split
  next hm => split <;> simp [hdiscard hm]
  next =>
    repeat' split
    all_goals simp

/-- An ASCII step in a good state opens a line, empties the continuation, keeps it empty, or appends the byte. -/
theorem decStep_ascii_suffix {p : Params} {c : DecState} (h : c.good p .ascii) (b : Byte) :
    (decStep p .ascii b c).2.pend <:+ c.pend ++ [b] := by
  obtain ⟨-, hclosed, -⟩ := h
  simp only [decStep, asciiStep]
  split
  next => simp
  next =>
    split
    next hm => simp [hclosed, hm]
    next hm => split <;> simp [hclosed, hm]
    next =>
      repeat' split
      all_goals simp

theorem decStep_suffix {p : Params} {proto : Protocol} {c : DecState} (h : c.good p proto) (b : Byte) :
    (decStep p proto b c).2.pend <:+ c.pend ++ [b] := by
  cases proto
  case motor => exact scanAll_suffix (motorJudge_good _) _
  case sat => exact scanAll_suffix (satJudge_good _ _ _) _
  case cobs => exact decStep_cobs_suffix h b
  case ascii => exact decStep_ascii_suffix h b

/-- COBS emits at the delimiter, and the continuation passes R194's check. -/
theorem wireForm_of_mem_decStep_cobs {p : Params} {c : DecState} (h : c.good p .cobs) {b : Byte} {f : Frame}
    (hf : f ∈ (decStep p .cobs b c).1) : wireForm p .cobs f (c.pend ++ [b]) := by
  obtain ⟨-, -, hzero, -⟩ := h
  simp only [decStep, cobsStep] at hf
  split at hf
  next => cases hf
  next =>
    split at hf
    next hb =>
      obtain ⟨payload, hpayload, rfl⟩ := Option.map_eq_some_iff.mp (Option.mem_toList.mp hf)
      obtain ⟨lo, hi, hdecode, hlen, hcrc⟩ := cobsPayload_eq_some_iff.mp hpayload
      obtain ⟨rfl, rfl⟩ := eq_hiByte_loByte (c := crcCcittFalse payload) (hi := hi) (lo := lo) (by omega)
      exact ⟨payload, c.pend, rfl, hlen, hzero, by rw [hb], hdecode⟩
    next => split at hf <;> cases hf

/-- ASCII emits at the newline, and the continuation is an open line below the cap. -/
theorem wireForm_of_mem_decStep_ascii {p : Params} {c : DecState} (h : c.good p .ascii) {b : Byte} {f : Frame}
    (hf : f ∈ (decStep p .ascii b c).1) : wireForm p .ascii f (c.pend ++ [b]) := by
  obtain ⟨hcap, -, hopen⟩ := h
  simp only [decStep, asciiStep] at hf
  split at hf
  next => cases hf
  next =>
    split at hf
    next => cases hf
    next => cases hf
    next hm =>
      split at hf
      next => cases hf
      next hfull =>
        split at hf
        next hb =>
          obtain ⟨body, hpend, -, -⟩ := hopen hm
          cases List.mem_singleton.mp hf
          refine ⟨_, rfl, ?_, ?_, ?_, ?_, rfl⟩
          · simp [hpend]
          · rw [List.length_append, List.length_singleton]
            omega
          · simp [hpend]
          · rw [hb, List.getLast?_concat]
        next => cases hf

/-- A frame that a byte step emits has its wire form within the continuation and the byte. -/
theorem exists_wireForm_of_mem_decStep {p : Params} {proto : Protocol} {c : DecState} (h : c.good p proto) {b : Byte}
    {f : Frame} (hf : f ∈ (decStep p proto b c).1) : ∃ wire, wire <:+: c.pend ++ [b] ∧ wireForm p proto f wire := by
  cases proto
  case motor =>
    obtain ⟨tail, n, htail, hacc⟩ := exists_accept_of_mem_scanAll (motorJudge_good _) hf
    obtain ⟨payload, q, rfl, hlen, rfl⟩ := motorJudge_eq_accept hacc
    exact ⟨_, (List.prefix_append _ q).isInfix.trans htail.isInfix, payload, rfl, hlen, rfl⟩
  case sat =>
    obtain ⟨tail, n, htail, hacc⟩ := exists_accept_of_mem_scanAll (satJudge_good _ _ _) hf
    obtain ⟨cls, id, payload, q, rfl, hlen, rfl⟩ := satJudge_eq_accept hacc
    exact ⟨_, (List.prefix_append _ q).isInfix.trans htail.isInfix, cls, id, payload, rfl, hlen, rfl⟩
  case cobs => exact ⟨_, List.infix_rfl, wireForm_of_mem_decStep_cobs h hf⟩
  case ascii => exact ⟨_, List.infix_rfl, wireForm_of_mem_decStep_ascii h hf⟩

/-- A frame that FEED emits has its wire form within the continuation and the bytes fed. -/
theorem exists_wireForm_of_mem_feedBytes {p : Params} (hp : p.wf) {proto : Protocol} {d : List Byte} {c : DecState}
    (h : c.good p proto) {f : Frame} (hf : f ∈ (feedBytes p proto d c).1) :
    ∃ wire, wire <:+: c.pend ++ d ∧ wireForm p proto f wire := by
  induction d generalizing c with
  | nil => cases hf
  | cons b rest ih =>
    rw [show c.pend ++ b :: rest = (c.pend ++ [b]) ++ rest by simp]
    rw [feedBytes_cons] at hf
    rcases List.mem_append.mp hf with hnow | hlater
    · obtain ⟨wire, hwire, hform⟩ := exists_wireForm_of_mem_decStep h hnow
      exact ⟨wire, hwire.trans (List.prefix_append _ _).isInfix, hform⟩
    · obtain ⟨wire, hwire, hform⟩ := ih (decStep_good hp h b) hlater
      obtain ⟨dropped, hkept⟩ := decStep_suffix h b
      refine ⟨wire, hwire.trans (List.IsSuffix.isInfix ⟨dropped, ?_⟩), hform⟩
      rw [← List.append_assoc, hkept]

/-- Settles O47: the frames returned are those `feedBytes` emits. -/
theorem emittedFramesWereReceivedWhole : Obligations.EmittedFramesWereReceivedWhole := by
  intro s t d fs n need hinv hfeed hresp f hf
  obtain ⟨-, -, -, rfl, -, -⟩ := feed_returned hfeed hresp
  obtain ⟨wire, ⟨pre, post, hwire⟩, hform⟩ := exists_wireForm_of_mem_feedBytes hinv.params hinv.decoder hf
  exact ⟨pre, wire, post, hwire.symm, hform⟩

end Sys2Proof.Machine
end

section
/-!
PROOFS. A valid frame after any bytes is still emitted (R205): MOTOR and SAT scan past bytes at which no candidate is
accepted, ASCII opens a line at every dollar, COBS is fresh after a delimiter.
-/

namespace Sys2Proof.Machine

/-- A scanned protocol emits a frame first of all when no candidate before it is accepted and so many bytes follow that
none can wait. -/
theorem feedBytes_frame_after_noise {p : Params} {proto : Protocol} {judge : List Byte → Verdict}
    (hjudge : judgeOf p proto = some judge) {cap : Nat} (hwait : ∀ q, judge q = .wait → q.length < cap)
    {c : DecState} (hc : judge c.pend = .wait) {x wire y : List Byte} {f : Frame}
    (hwire : judge wire = .accept f wire.length) (hcap : cap ≤ (wire ++ y).length + 1)
    (hnone : ∀ k < (c.pend ++ x).length, ∀ g n, judge ((c.pend ++ x ++ wire ++ y).drop k) ≠ .accept g n) :
    (feedBytes p proto (x ++ wire ++ y) c).1 = f :: (feedBytes p proto y ⟨[], .normal⟩).1 := by
  have hgood := judgeOf_good hjudge
  rw [List.append_assoc] at hnone
  rw [feedBytes_scan hjudge _ c hc, feedBytes_scan hjudge y _ hgood.nil, List.append_assoc, ← List.append_assoc c.pend,
    scanAll_skip hwait _ _ hcap hnone, scanAll_accept hgood (hgood.accept_append y hwire), List.drop_left]
  rfl

/-- Line bytes that fit the cap are collected (R198). -/
theorem feedBytes_ascii_collect {p : Params} {body : List Byte} (hdollar : (0x24 : Byte) ∉ body)
    (hlf : (0x0A : Byte) ∉ body) {pend : List Byte} (hcap : pend.length + body.length ≤ p.asciiCap) :
    feedBytes p .ascii body ⟨pend, .line⟩ = ([], ⟨pend ++ body, .line⟩) := by
  induction body generalizing pend with
  | nil => simp [feedBytes_nil]
  | cons b body ih =>
    obtain ⟨hb, hdollar⟩ := not_or.mp (mt List.mem_cons.mpr hdollar)
    obtain ⟨hb', hlf⟩ := not_or.mp (mt List.mem_cons.mpr hlf)
    rw [List.length_cons] at hcap
    rw [feedBytes_cons, decStep_ascii_append p (Ne.symm hb) (Ne.symm hb') (by omega),
      ih hdollar hlf (by rw [List.length_append, List.length_singleton]; omega), List.append_assoc]
    rfl

/-- A line within the cap is emitted from any state. -/
theorem feedBytes_ascii_line {p : Params} {body : List Byte} (hdollar : (0x24 : Byte) ∉ body)
    (hlf : (0x0A : Byte) ∉ body) (hcap : body.length + 2 ≤ p.asciiCap) (c : DecState) :
    feedBytes p .ascii (0x24 :: body ++ [0x0A]) c = ([.ascii (0x24 :: body ++ [0x0A])], ⟨[], .normal⟩) := by
  have hcollect := feedBytes_ascii_collect hdollar hlf (p := p) (pend := [0x24])
    (by rw [List.length_singleton]; omega)
  have hnewline := decStep_ascii_newline p (q := [0x24] ++ body) (by simp; omega)
  rw [List.cons_append, feedBytes_cons, decStep_ascii_dollar, feedBytes_append, hcollect, feedBytes_cons, hnewline]
  rfl

/-- A delimiter leaves a good COBS decoder fresh (R193). -/
theorem decStep_cobs_delimiter_fresh {p : Params} {c : DecState} (h : c.good p .cobs) :
    (decStep p .cobs 0 c).2 = ⟨[], .normal⟩ := by
  obtain ⟨pend, mode⟩ := c
  obtain ⟨hline, -, -, hdiscard⟩ := h
  cases mode with
  | normal => rfl
  | line => exact absurd rfl hline
  | discard =>
    obtain rfl : pend = [] := hdiscard rfl
    rfl

/-- Settles O48: the frame is emitted whatever state the bytes before it leave, or the scan reaches it. -/
theorem nextFrameSurvivesCorruption : Obligations.NextFrameSurvivesCorruption := by
  intro p c x hp
  have ⟨_, hmotor, _, hsat, hsat', _⟩ := hp
  refine ⟨fun payload y hc h255 hcap => ?_, fun cls id payload y hc hcap => ?_, fun body hdollar hlf hcap => ?_,
    fun payload hc hlen hcap => ?_⟩
  · exact feedBytes_frame_after_noise rfl (fun _ => motorJudge_wait_length hmotor) hc.2
      (motorJudge_motorFrame h255 hcap)
  · exact feedBytes_frame_after_noise rfl (fun _ => satJudge_wait_length hsat) hc.2
      (satJudge_satFrame p cls id (by omega) hcap)
  · rw [List.append_assoc, feedBytes_append, feedBytes_ascii_line hdollar hlf hcap]
    exact ⟨_, rfl⟩
  · have hfresh : (feedBytes p .cobs (x ++ [0]) c).2 = ⟨[], .normal⟩ := by
      rw [feedBytes_append]
      exact decStep_cobs_delimiter_fresh (feedBytes_good hp x hc)
    rw [feedBytes_append, hfresh, feedBytes_cobsFrame hlen hcap]
    exact ⟨_, rfl⟩

end Sys2Proof.Machine
end

section
/-!
PROOFS. The latch commands one by one (R232 to R241): the worker's are their checks in R263's order and then what they
write; the readers' return what the committed slots, the timestamp and the flags hold.
-/

namespace Sys2Proof.Machine

/-- Settles O50: the checks in their order, and then each command's writes; one staged slot is written by APPLY. -/
theorem latchTransactionCommandsWriteTheirElements : Obligations.LatchTransactionCommandsWriteTheirElements := by
  intro s hport
  have hbegin := permitted_eq (o := .latchBegin) hport rfl
  have happly := permitted_eq (o := .latchApply) hport rfl
  have hcommit := permitted_eq (o := .latchCommit) hport rfl
  have habsent := permitted_eq (o := .latchMarkAbsent) hport rfl
  refine ⟨fun hs => ?notStarted, fun hs => ?started⟩
  case notStarted =>
    have hfault := started_eq_fault hs
    exact ⟨(hbegin _).trans (hfault _), fun _ _ => (happly _).trans (hfault _),
      fun _ => (hcommit _).trans (hfault _), (habsent _).trans (hfault _)⟩
  case started =>
    have hgo := started_eq hs
    refine ⟨(hbegin _).trans (hgo _), fun f v => ⟨fun htxn => ?_, fun htxn hf => ?_, fun htxn hf => ?_⟩,
      fun t => ⟨fun htxn => ?_, fun htxn => ?_⟩, (habsent _).trans (hgo _)⟩
    · exact (happly _).trans ((hgo _).trans (require_of_false htxn ..))
    · exact (happly _).trans ((hgo _).trans ((require_of_true htxn ..).trans
        (require_of_false (decide_eq_false (Nat.not_lt.mpr hf)) ..)))
    · exact ⟨_, exec_completes (firstFault_latchApply hport hs htxn hf) trivial,
        fun k => read_write s.latchStage f.toNat k v⟩
    · exact (hcommit _).trans ((hgo _).trans (require_of_false htxn ..))
    · exact exec_completes (firstFault_latchCommit hport hs htxn) trivial

/-- A reader's view of a slot: is there a value, and which, 0 for `⊥` (R238). -/
theorem slotView_eq (m : Slots) (f : Nat) :
    slotView m f = ((Store.read m f).isSome, (Store.read m f).getD 0) := by
  unfold slotView
  cases Store.read m f <;> rfl

/-- READ_FIELD of a field in range returns the reader's view of its committed slot (R238). -/
theorem exec_latchReadField {f : Byte} {s : State} (hp : s.port ≠ .rcv) (hf : f.toNat < s.params.kFields) :
    exec (.latchReadField f) s =
      .next { s with
        resp := .field (Store.read s.latchVal f.toNat).isSome ((Store.read s.latchVal f.toNat).getD 0) } := by
  refine (permitted_eq rfl (permits_of_ne_rcv rfl hp) _).trans ((require_of_true (decide_eq_true hf) ..).trans ?_)
  rw [slotView_eq]
  rfl

/-- Settles O51: READ_FIELD is its range check and the slot's view, and SNAPSHOT the views of all slots in order. -/
theorem latchReadersReturnTheCommittedState : Obligations.LatchReadersReturnTheCommittedState := by
  intro s hp
  have hpermits {o : Opcode} (ho : o.agents = [.wrk, .rdr]) := permitted_eq (o := o) rfl (permits_of_ne_rcv ho hp)
  refine ⟨fun f => ⟨fun hf => ?_, fun hf hread => ?_, fun hf v hread => ?_⟩, hpermits rfl _,
    snapshotFields s, hpermits rfl _, ?_, fun k hk => ?_⟩
  · exact (hpermits rfl _).trans (require_of_false (decide_eq_false (Nat.not_lt.mpr hf)) ..)
  · rw [exec_latchReadField hp hf, hread]
    rfl
  · rw [exec_latchReadField hp hf, hread]
    rfl
  · rw [snapshotFields, List.length_map, List.length_range]
  · rw [snapshotFields, List.getElem?_map, List.getElem?_range hk, Option.map_some, slotView_eq]

/-- After a commit the age, mod 2^64, decides staleness (R240). -/
theorem isStale_of_hasData {s : State} (h : s.latchHasData = true) (now maxAge : Time) :
    isStale now maxAge s = decide (maxAge.toNat < (now.toNat + 2 ^ 64 - s.latchTs.toNat) % 2 ^ 64) := by
  have hage : (now - s.latchTs).toNat = (now.toNat + 2 ^ 64 - s.latchTs.toNat) % 2 ^ 64 := by bv_omega
  rw [isStale, h, Bool.not_true, Bool.false_or, ← hage, decide_eq_decide, BitVec.lt_def]

/-- Settles O52: before the first commit the flag decides, after it the age. -/
theorem latchStaleComparesTheAge : Obligations.LatchStaleComparesTheAge := by
  intro now maxAge s hp
  have hexec : exec (.latchStale now maxAge) s = .next { s with resp := .stale (isStale now maxAge s) } :=
    permitted_eq rfl (permits_of_ne_rcv rfl hp) _
  refine ⟨fun hdata => ?_, fun hdata => ?_⟩ <;> rw [hexec]
  · rw [isStale, hdata, Bool.not_false, Bool.true_or]
  · rw [isStale_of_hasData hdata]

end Sys2Proof.Machine
end

section
/-!
PROOFS. Usage faults (R261 to R264): what a faulting command leaves and which fault it may be, the agent check and the
start check.
-/

namespace Sys2Proof.Machine

/-! ### A command that answers a fault -/

/-- A completed command answers no fault, so the fault answered is the command's first, and it is taken (R262). -/
theorem exec_fault {i : Instr} {s t : State} {u : UsageFault} {a : Agent} {w : Word} (h : exec i s = .next t)
    (hresp : t.resp = .fault u a w) : firstFault i s = some u ∧ t = s.takeFault u := by
  rcases exec_next_cases h with ⟨u', hf, rfl⟩ | ⟨-, -, rfl⟩
  · cases hresp
    exact ⟨hf, rfl⟩
  · have hno := result_isFault i s
    rw [answer_resp] at hresp
    rw [hresp] at hno
    cases hno

/-- Settles O8: the state left is R262's, whose result names the command on the port. -/
theorem faultWritesOnlyTheFaultRecord : Obligations.FaultWritesOnlyTheFaultRecord := by
  intro i s t u a w h hresp
  obtain ⟨-, rfl⟩ := exec_fault h hresp
  cases hresp
  exact ⟨rfl, rfl, rfl⟩

/-! ### The checks of each command -/

/-- A list of checks raises the fault of one of them. -/
theorem mem_of_firstOf {cs : List (Bool × UsageFault)} {u : UsageFault} (h : firstOf cs = some u) :
    u ∈ cs.map Prod.snd := by
  induction cs with
  | nil => cases h
  | cons c cs ih =>
    rw [List.map_cons, List.mem_cons]
    rw [firstOf] at h
    split at h
    · exact .inr (ih h)
    · exact .inl (Option.some.inj h).symm

theorem buildFault_buildMotor {p : Params} {d : List Byte} {u : UsageFault} (h : buildFault (buildMotor p d) = some u) :
    u = .tooLong := by
  unfold buildMotor at h
  split at h
  · exact (Option.some.inj h).symm
  · cases h

theorem buildFault_buildSat {p : Params} {d : List Byte} {u : UsageFault} (h : buildFault (buildSat p d) = some u) :
    u = .badLength ∨ u = .tooLong := by
  unfold buildSat at h
  split at h
  · exact .inl (Option.some.inj h).symm
  · exact .inl (Option.some.inj h).symm
  · split at h
    · exact .inr (Option.some.inj h).symm
    · cases h

theorem buildFault_buildCobs {p : Params} {d : List Byte} {u : UsageFault} (h : buildFault (buildCobs p d) = some u) :
    u = .tooShort ∨ u = .tooLong := by
  unfold buildCobs at h
  split at h
  · exact .inl (Option.some.inj h).symm
  · split at h
    · exact .inr (Option.some.inj h).symm
    · cases h

/-- An agent that may not issue the opcode gets WRONG_AGENT before any other fault (R263). -/
theorem firstFault_of_not_permitted {i : Instr} {s : State} (hp : i.opcode.permits s.port = false) :
    firstFault i s = some .wrongAgent :=
  if_neg (by simp [hp])

/-- For an agent that may issue the opcode, the command's own checks raise only what R261 lists for the opcode, and
none of them raises WRONG_AGENT. -/
theorem raisedBy_of_permitted {i : Instr} {s : State} {u : UsageFault} (hp : i.opcode.permits s.port = true)
    (hf : firstFault i s = some u) : raisedBy u i.opcode ∧ u ≠ .wrongAgent := by
  simp only [firstFault, if_pos hp] at hf
  cases i
  case buildMotor d =>
    obtain rfl := buildFault_buildMotor hf
    simp [raisedBy, Instr.opcode]
  case buildSat d => rcases buildFault_buildSat hf with rfl | rfl <;> simp [raisedBy, Instr.opcode]
  case buildCobs d => rcases buildFault_buildCobs hf with rfl | rfl <;> simp [raisedBy, Instr.opcode]
  case take | flush | feed | readReg | latchBegin | latchMarkAbsent | latchReadField =>
    obtain rfl := List.mem_singleton.mp (mem_of_firstOf hf)
    simp [raisedBy, Instr.opcode]
  case start | done | latchCommit =>
    have hu := mem_of_firstOf hf
    simp only [List.map_cons, List.map_nil, List.mem_cons, List.not_mem_nil, or_false] at hu
    rcases hu with rfl | rfl <;> simp [raisedBy, Instr.opcode]
  case readBuf | latchApply =>
    have hu := mem_of_firstOf hf
    simp only [List.map_cons, List.map_nil, List.mem_cons, List.not_mem_nil, or_false] at hu
    rcases hu with rfl | rfl | rfl <;> simp [raisedBy, Instr.opcode]
  all_goals cases hf

/-! ### R261's table -/

/-- Only the formats W, T8 and T16 fix a count other than 0 (R93). -/
theorem raisedBy_badLength {o : Opcode} {a : Byte} {n : Half} (h : fieldFault o.format a n = some .length) :
    raisedBy .badLength o := by
  cases o
  case latchApply | latchCommit | latchStale => simp [raisedBy]
  all_goals simp [fieldFault, Opcode.format] at h

/-- R261's columns "name" and "raised by" for a command word: ILLEGAL_OP where no row has its `OP`, else a fault
listed for its opcode. -/
def tableLists (u : UsageFault) (cw : Word) : Prop :=
  (u = .illegalOp ∧ Opcode.ofByte (cwOp cw) = none) ∨ ∃ o, Opcode.ofByte (cwOp cw) = some o ∧ raisedBy u o

/-- A word the decoder rejects raises a fault of the table (R96). -/
theorem rejectCommand_raises {cw : Word} {d : List Byte} {r : Reject} {s t : State} (hd : decode cw d = .error r)
    (h : rejectCommand r s = .next t) : ∃ u, t = s.takeFault u ∧ tableLists u cw := by
  have permittedRaises : ∀ {o : Opcode} {u : UsageFault}, Opcode.ofByte (cwOp cw) = some o → raisedBy u o →
      permitted o s (raise u s) = .next t → ∃ u, t = s.takeFault u ∧ tableLists u cw := by
    intro o u ho hu h
    rcases require_cases h with ⟨-, h⟩ | ⟨-, h⟩
    · exact ⟨u, (Host.Outcome.next.inj h).symm, .inr ⟨o, ho, hu⟩⟩
    · exact ⟨.wrongAgent, Host.Outcome.next.inj h, .inr ⟨o, ho, trivial⟩⟩
  rcases decode_error_cases hd with ⟨rfl, ho⟩ | ⟨o, ho, ⟨rfl, -⟩ | ⟨rfl, -, -⟩ | ⟨rfl, -, hf⟩⟩
  · exact ⟨.illegalOp, (Host.Outcome.next.inj h).symm, .inl ⟨rfl, ho⟩⟩
  · cases h
  · exact permittedRaises (u := .reservedField) ho trivial h
  · exact permittedRaises ho (raisedBy_badLength hf) h

/-- A command that decodes answers only faults of the table. -/
theorem exec_raises {cw : Word} {d : List Byte} {i : Instr} {s t : State} {u : UsageFault} {a : Agent} {w : Word}
    (hd : decode cw d = .ok i) (h : exec i s = .next t) (hresp : t.resp = .fault u a w) :
    t = s.takeFault u ∧ tableLists u cw := by
  obtain ⟨hf, ht⟩ := exec_fault h hresp
  obtain ⟨o, ho, -, -, rfl⟩ := decode_ok_cases hd
  refine ⟨ht, .inr ⟨o, ho, ?_⟩⟩
  rw [← opcode_assemble o (cwA cw) (cwN cw) d]
  cases hp : (assemble o (cwA cw) (cwN cw) d).opcode.permits s.port with
  | true => exact (raisedBy_of_permitted hp hf).1
  | false =>
    cases (firstFault_of_not_permitted hp).symm.trans hf
    trivial

/-- Settles O10: the head command decodes and raises a fault of its own, or its word is rejected with one. -/
theorem faultsAreThoseOfTheTable : Obligations.FaultsAreThoseOfTheTable := by
  refine ⟨rfl, fun s t c rest u a w hcmds hstep hresp => ?_⟩
  have htaken : t = (s.onPort c rest).takeFault u ∧ tableLists u c.cw := by
    cases hd : decode c.cw c.data with
    | ok i => exact exec_raises hd ((step_ok hcmds hd).symm.trans hstep) hresp
    | error r =>
      obtain ⟨u', rfl, hu⟩ := rejectCommand_raises hd ((step_error hcmds hd).symm.trans hstep)
      cases hresp
      exact ⟨rfl, hu⟩
  obtain ⟨rfl, hlisted⟩ := htaken
  cases hresp
  exact ⟨rfl, rfl, hlisted⟩

/-! ### The agent check and the start check -/

/-- Settles O11: R264's lists are R94's column "agents", and only the agent check raises WRONG_AGENT. -/
theorem agentsMayIssueOnlyTheirOpcodes : Obligations.AgentsMayIssueOnlyTheirOpcodes := by
  intro i s allowed
  have hallowed : allowed ↔ i.opcode.permits s.port = true := by
    unfold allowed
    cases s.port <;> cases i.opcode <;> decide
  rw [hallowed, Bool.not_eq_true]
  refine ⟨fun hp => exec_of_firstFault (firstFault_of_not_permitted hp), fun hp t a w h hresp => ?_⟩
  obtain ⟨hf, -⟩ := exec_fault h hresp
  exact (raisedBy_of_permitted hp hf).2 rfl

/-- Settles O12: the start check is the first of each of the nine commands. -/
theorem workerCommandsNeedAStartedLink : Obligations.WorkerCommandsNeedAStartedLink := by
  intro i s hport hs hi
  apply exec_of_firstFault
  cases i
  case take | readBuf | done | flush | feed | latchBegin | latchApply | latchCommit | latchMarkAbsent =>
    rw [firstFault, hport, hs]
    rfl
  all_goals simp [Instr.opcode] at hi

end Sys2Proof.Machine
end

section
/-!
PROOFS. A reception end and a FLUSH in either order (R266, R64). Reception end first: the hand-off is signalled, and the
full event it leaves noted makes the FLUSH rearm. FLUSH first: the hand-off is pending, so a reception end overruns.
-/

namespace Sys2Proof.Machine

/-! ### One step of the three commands of R266 -/

section
variable {s : State} {rest : List Command} (hs : s.started = true)
include hs

/-- RX_EVENT on a started link is R153's event. -/
theorem step_rxEvent (hcmds : s.cmds = commandOf .rcv .rxEvent :: rest) :
    step s = .next ((receiverEvent (s.onPort (commandOf .rcv .rxEvent) rest)).answer .done) := by
  rw [step_commandOf hcmds rfl rfl trivial, written, onPort_started, if_pos hs]
  rfl

/-- With no byte received RX_EVENT does nothing (R153). -/
theorem step_rxEvent_empty (hcmds : s.cmds = commandOf .rcv .rxEvent :: rest) (hempty : s.remaining = s.params.bufCap) :
    step s = .next ((s.onPort (commandOf .rcv .rxEvent) rest).answer .done) := by
  rw [step_rxEvent hs hcmds, receiverEvent_of_empty (s := s.onPort ..) hempty]

/-- RX_BYTE on a started link with a free cell is the store, with the full event where it fills the buffer. -/
theorem step_rxByte_eq {b : Byte} (hcmds : s.cmds = commandOf .rcv (.rxByte b) :: rest) (h0 : s.remaining ≠ 0)
    (hle : s.remaining ≤ s.params.bufCap) :
    step s = .next ((receivedByte b (s.onPort (commandOf .rcv (.rxByte b)) rest)).answer .done) := by
  rw [step_ok hcmds (decodingAnEncodedCommandGivesItBack (.rxByte b) rfl)]
  exact exec_rxByte rfl hs h0 hle

/-- FLUSH on a started link raises no fault (R159). -/
theorem step_flush (hcmds : s.cmds = commandOf .wrk .flush :: rest) :
    step s = .next ((flushWritten (s.onPort (commandOf .wrk .flush) rest)).answer
      (flushResult (s.onPort (commandOf .wrk .flush) rest))) :=
  step_commandOf hcmds rfl (by rw [firstFault, onPort_started, hs]; rfl) trivial

/-- A FLUSH after a full event rearms and writes nothing but its own two elements (R159). -/
theorem step_flush_rearms (hcmds : s.cmds = commandOf .wrk .flush :: rest) (hfull : s.fullSinceCheck = true) :
    step s = .next (State.answer (.flush .rearm .b0 0)
      { s.onPort (commandOf .wrk .flush) rest with fullSinceCheck := false, snapRemaining := s.remaining }) := by
  rw [step_flush hs hcmds, flushWritten, flushResult, if_pos (.inl hfull), if_pos (.inl hfull)]
  rfl

end

/-! ### A reception end and then a FLUSH -/

/-- `t` holds the reception of `s`, handed off with the length `len` and signalled (R153, R154). -/
structure State.signals (s : State) (len : Half) (t : State) : Prop where
  started : t.started = s.started
  pending : t.pending = true
  signal : t.signal = true
  readyIdx : t.readyIdx = s.active
  readyLen : t.readyLen = len
  fullSinceCheck : t.fullSinceCheck = true

theorem signals_receiverEvent {s : State} (hp : s.pending = false) (hne : s.remaining ≠ s.params.bufCap) :
    s.signals s.fill (receiverEvent s) := by
  rw [receiverEvent_of_not_pending hne hp]
  exact ⟨rfl, rfl, rfl, rfl, rfl, rfl⟩

/-- The byte that fills the buffer hands off all of it, with `BUF_CAP` = 1 as well (R152). -/
theorem signals_receivedByte {s : State} {b : Byte} (hp : s.pending = false) (h1 : s.remaining = 1)
    (hle : s.remaining ≤ s.params.bufCap) : s.signals s.params.bufCap (receivedByte b s) := by
  have hfull : (storeByte b s).remaining = 0 := by rw [storeByte_remaining, h1]; rfl
  have hne : (storeByte b s).remaining ≠ (storeByte b s).params.bufCap := by
    rw [hfull, storeByte_params]
    bv_omega
  have hend := signals_receiverEvent (by simpa) hne
  have hfill : (storeByte b s).fill = s.params.bufCap := by
    rw [State.fill, hfull, storeByte_params]
    exact BitVec.sub_zero _
  rw [hfill] at hend
  rw [receivedByte, if_pos h1]
  exact ⟨by simp [hend.started], hend.pending, hend.signal, by simp [hend.readyIdx], hend.readyLen,
    hend.fullSinceCheck⟩

/-- The receive path issues no command and takes none. -/
theorem receiveOnly_cmds {s t : State} (h : s.receiveOnly t) : t.cmds = s.cmds := by
  unfold State.receiveOnly at h
  rw [h]

/-- The FLUSH after a reception end answers REARM and leaves the hand-off signalled (R64, R266). -/
theorem runSteps_flush_of_signals {s t : State} {c : Command} {len : Half} {rest : List Command} {r : Response}
    (hs : s.started = true) (hend : step s = .next (t.answer r))
    (h : (s.onPort c (commandOf .wrk .flush :: rest)).signals len t) (hcmds : t.cmds = commandOf .wrk .flush :: rest) :
    ∃ u, runSteps 2 s = .next u ∧ u.cmds = rest ∧ u.resp = .flush .rearm .b0 0 ∧ u.pending = true ∧
      u.signal = true ∧ u.readyIdx = s.active ∧ u.readyLen = len := by
  have hflush := step_flush_rearms (s := t.answer r) (h.started.trans hs) hcmds h.fullSinceCheck
  exact ⟨_, (runSteps_succ hend 1).trans (runSteps_succ hflush 0), rfl, rfl, h.pending, h.signal, h.readyIdx,
    h.readyLen⟩

/-! ### A reception end that finds a hand-off pending -/

/-- `t` is `s` with one overrun counted and an empty active buffer (R155), up to the bytes, the queue and the port. -/
def State.overrunsTo (s t : State) : Prop :=
  t = { markFull (overrun s) with
          buf0 := t.buf0, buf1 := t.buf1, cmds := t.cmds, port := t.port, cw := t.cw, resp := t.resp }

theorem overrunsTo_receiverEvent {s : State} (hp : s.pending = true) (hne : s.remaining ≠ s.params.bufCap) :
    s.overrunsTo (receiverEvent s) := by
  rw [receiverEvent_of_pending hne hp]
  rfl

/-- A byte stored before the overrun is discarded by it. -/
theorem overrunsTo_of_storeByte {s t : State} {b : Byte} (h : (storeByte b s).overrunsTo t) : s.overrunsTo t := by
  rw [storeByte_eq] at h
  exact h

/-- The byte that fills the buffer overruns, with `BUF_CAP` = 1 as well. -/
theorem overrunsTo_receivedByte {s : State} {b : Byte} (hp : s.pending = true) (h1 : s.remaining = 1)
    (hle : s.remaining ≤ s.params.bufCap) : s.overrunsTo (receivedByte b s) := by
  rw [receivedByte, if_pos h1]
  refine overrunsTo_of_storeByte (overrunsTo_receiverEvent (by simpa) ?_)
  rw [storeByte_remaining, storeByte_params]
  bv_omega

theorem overrunsTo_leaves {s t : State} (h : s.overrunsTo t) :
    t.started = s.started ∧ t.remaining = t.params.bufCap := by
  unfold State.overrunsTo at h
  rw [h]
  exact ⟨rfl, rfl⟩

/-- Taking a command and answering it write only the queue and the port, before the overrun and after it. -/
theorem overrunsTo_of_onPort {s t : State} {c : Command} {rest : List Command} {r : Response}
    (h : (s.onPort c rest).overrunsTo t) : s.overrunsTo (t.answer r) :=
  congrArg (State.answer r) h

theorem overrunsTo_onPort {s t : State} (h : s.overrunsTo t) (c : Command) (rest : List Command) (r : Response) :
    s.overrunsTo ((t.onPort c rest).answer r) :=
  congrArg (fun u : State => (u.onPort c rest).answer r) h

section
variable {s : State} {rest : List Command} (hs : s.started = true)
include hs

theorem step_rxEvent_overruns (hcmds : s.cmds = commandOf .rcv .rxEvent :: rest) (hp : s.pending = true)
    (hne : s.remaining ≠ s.params.bufCap) : ∃ t, step s = .next t ∧ t.cmds = rest ∧ s.overrunsTo t :=
  ⟨_, step_rxEvent hs hcmds, receiveOnly_cmds (receiverEvent_receiveOnly _),
    overrunsTo_of_onPort (overrunsTo_receiverEvent hp hne)⟩

variable (hle : s.remaining ≤ s.params.bufCap)
include hle

theorem step_rxByte_overruns {b : Byte} (hcmds : s.cmds = commandOf .rcv (.rxByte b) :: rest) (hp : s.pending = true)
    (h1 : s.remaining = 1) : ∃ t, step s = .next t ∧ t.cmds = rest ∧ s.overrunsTo t :=
  ⟨_, step_rxByte_eq hs hcmds (by rw [h1]; decide) hle, receiveOnly_cmds (receivedByte_receiveOnly ..),
    overrunsTo_of_onPort (overrunsTo_receivedByte hp h1 hle)⟩

/-- A byte that leaves a free cell may come before the reception end that overruns. -/
theorem overrunsTo_of_step_rxByte {b : Byte} {t u : State} (hcmds : s.cmds = commandOf .rcv (.rxByte b) :: rest)
    (hmore : 1 < s.remaining.toNat) (hstep : step s = .next t) (h : t.overrunsTo u) : s.overrunsTo u := by
  rw [step_rxByte_eq hs hcmds (by bv_omega) hle, receivedByte, onPort_remaining, if_neg (by bv_omega)] at hstep
  cases hstep
  exact overrunsTo_of_storeByte (s := s.onPort (commandOf .rcv (.rxByte b)) rest) h

variable (hp : s.pending = true)
include hp

/-- Bytes that fill the active buffer end in one overrun (R152, R155). -/
theorem runSteps_rxBytes_overruns {d : List Byte} (hcmds : s.cmds = rxBytes d ++ rest) (hd : d ≠ [])
    (hlen : d.length = s.remaining.toNat) : ∃ t, runSteps d.length s = .next t ∧ t.cmds = rest ∧ s.overrunsTo t := by
  induction d generalizing s with
  | nil => exact absurd rfl hd
  | cons b d ih =>
    rw [List.length_cons] at hlen
    by_cases hmore : d = []
    · subst hmore
      obtain ⟨t, hstep, ht⟩ := step_rxByte_overruns hs hle hcmds hp (BitVec.eq_of_toNat_eq hlen.symm)
      exact ⟨t, runSteps_succ hstep 0, ht⟩
    · have hmany := List.length_pos_of_ne_nil hmore
      obtain ⟨t, hstep, htcmds, hb⟩ := step_rxByte hcmds hs (by omega) hle
      have htrem : t.remaining.toNat + 1 = s.remaining.toNat := hb.remaining
      have htle : t.remaining ≤ t.params.bufCap := by
        rw [hb.params]
        bv_omega
      obtain ⟨u, hrun, hucmds, hu⟩ := ih (hb.started.trans hs) htle (hb.pending.trans hp) htcmds hmore (by omega)
      exact ⟨u, (runSteps_succ hstep _).trans hrun, hucmds,
        overrunsTo_of_step_rxByte hs hle hcmds (by omega) hstep hu⟩

omit hle in
/-- One byte into an empty buffer and a reception end are one overrun: the byte's own full event where `BUF_CAP` = 1,
and otherwise the RX_EVENT (R152, R153). -/
theorem runSteps_rxByte_rxEvent_overruns {b : Byte}
    (hcmds : s.cmds = commandOf .rcv (.rxByte b) :: commandOf .rcv .rxEvent :: rest)
    (hempty : s.remaining = s.params.bufCap) (hpos : 1 ≤ s.remaining.toNat) :
    ∃ t, runSteps 2 s = .next t ∧ t.cmds = rest ∧ s.overrunsTo t := by
  have hle : s.remaining ≤ s.params.bufCap := by rw [hempty]; exact BitVec.le_refl _
  by_cases h1 : s.remaining = 1
  · obtain ⟨t, hstep, htcmds, ht⟩ := step_rxByte_overruns hs hle hcmds hp h1
    obtain ⟨hts, htempty⟩ := overrunsTo_leaves ht
    have hevent := step_rxEvent_empty (hts.trans hs) htcmds htempty
    exact ⟨_, (runSteps_succ hstep 1).trans (runSteps_succ hevent 0), rfl, overrunsTo_onPort ht ..⟩
  · obtain ⟨t, hstep, htcmds, hb⟩ := step_rxByte hcmds hs (by bv_omega) hle
    have htrem : t.remaining.toNat + 1 = s.remaining.toNat := hb.remaining
    have hne : t.remaining ≠ t.params.bufCap := by
      rw [hb.params, ← hempty]
      bv_omega
    obtain ⟨u, hevent, hucmds, hu⟩ := step_rxEvent_overruns (hb.started.trans hs) htcmds (hb.pending.trans hp) hne
    exact ⟨u, (runSteps_succ hstep 1).trans (runSteps_succ hevent 0), hucmds,
      overrunsTo_of_step_rxByte hs hle hcmds (by bv_omega) hstep hu⟩

end

/-! ### A FLUSH and then a reception end -/

/-- `t` is `s` after a FLUSH that handed off its active buffer, up to the queue and the port (R159). -/
def State.flushesTo (s t : State) : Prop :=
  t = { handoff s with snapRemaining := s.params.bufCap, cmds := t.cmds, port := t.port, cw := t.cw, resp := t.resp }

theorem flushesTo_leaves {s t : State} (h : s.flushesTo t) :
    t.started = s.started ∧ t.pending = true ∧ t.params = s.params ∧ t.remaining = t.params.bufCap := by
  unfold State.flushesTo at h
  rw [h]
  exact ⟨rfl, rfl, rfl, rfl⟩

/-- A FLUSH of a quiet buffer that holds bytes, with no hand-off pending, hands it off (R159). -/
theorem step_flush_handsOff {s : State} {rest : List Command} (hs : s.started = true)
    (hcmds : s.cmds = commandOf .wrk .flush :: rest) (hp : s.pending = false) (hf : s.fullSinceCheck = false)
    (hq : s.remaining = s.snapRemaining) (hne : s.remaining ≠ s.params.bufCap) :
    ∃ t, step s = .next t ∧ t.cmds = rest ∧ s.flushesTo t := by
  have hwritten : flushWritten (s.onPort (commandOf .wrk .flush) rest) =
      { handoff (s.onPort (commandOf .wrk .flush) rest) with snapRemaining := s.params.bufCap } := by
    simp [flushWritten, hf, hp, ← hq, hne]
  refine ⟨_, step_flush hs hcmds, ?_, ?_⟩ <;> rw [hwritten] <;> rfl

/-- Settles O28: a signalled hand-off makes the FLUSH rearm, and a hand-off made by the FLUSH stands while the reception
end after it does nothing or overruns. -/
theorem receptionEndAndFlushFollowTheirOrder : Obligations.ReceptionEndAndFlushFollowTheirOrder := by
  intro s rest hwf hs hp signalled flushed
  obtain ⟨hcap, -⟩ := hwf
  refine ⟨fun hne hcmds => ?eventFirst, fun b h1 hcmds => ?byteFirst, fun hf hq hne => ?flushFirst⟩
  case eventFirst =>
    exact runSteps_flush_of_signals hs (step_rxEvent hs hcmds) (signals_receiverEvent hp hne)
      (receiveOnly_cmds (receiverEvent_receiveOnly _))
  case byteFirst =>
    have hle : s.remaining ≤ s.params.bufCap := by bv_omega
    exact runSteps_flush_of_signals hs (step_rxByte_eq hs hcmds (by rw [h1]; decide) hle)
      (signals_receivedByte hp h1 hle) (receiveOnly_cmds (receivedByte_receiveOnly ..))
  case flushFirst =>
    have kept {t u : State} (ht : s.flushesTo t) (hu : t.overrunsTo u) (hucmds : u.cmds = rest) :
        flushed u ∧ u.fullSinceCheck = true ∧ u.overrunCount = s.overrunCount + 1 := by
      unfold State.overrunsTo at hu
      unfold State.flushesTo at ht
      rw [ht] at hu
      rw [hu]
      exact ⟨⟨hucmds, rfl, rfl, rfl, rfl, rfl, rfl⟩, rfl, rfl⟩
    refine ⟨fun hcmds => ?_, fun b hcmds => ?_, fun d hlen hcmds => ?_⟩ <;>
      obtain ⟨t, hflush, htcmds, ht⟩ := step_flush_handsOff hs hcmds hp hf hq hne <;>
      obtain ⟨hts, htp, htparams, hempty⟩ := flushesTo_leaves ht
    · have hevent := step_rxEvent_empty (hts.trans hs) htcmds hempty
      refine ⟨_, (runSteps_succ hflush 1).trans (runSteps_succ hevent 0), ?_⟩
      unfold State.flushesTo at ht
      rw [ht]
      exact ⟨⟨rfl, rfl, rfl, rfl, rfl, rfl, rfl⟩, hf, rfl⟩
    · obtain ⟨u, hrun, hucmds, hu⟩ := runSteps_rxByte_rxEvent_overruns (hts.trans hs) htp htcmds hempty
        (by rwa [hempty, htparams])
      exact ⟨u, (runSteps_succ hflush _).trans hrun, kept ht hu hucmds⟩
    · obtain ⟨u, hrun, hucmds, hu⟩ := runSteps_rxBytes_overruns (hts.trans hs) (by rw [hempty]; exact BitVec.le_refl _)
        htp htcmds (List.ne_nil_of_length_pos (by omega)) (by rwa [hempty, htparams])
      exact ⟨u, (runSteps_succ hflush _).trans hrun, kept ht hu hucmds⟩

end Sys2Proof.Machine
end

section
/-!
PROOFS. New bytes make the next FLUSH rearm (R286, R159): a byte lowers `REMAINING` below the snapshot, or fills the
buffer and is remembered by FULL_SINCE_CHECK after the counter is back at `BUF_CAP`.
-/

namespace Sys2Proof.Machine

/-- What RX_BYTEs leave behind since the last FLUSH check: the buffer was filled, or the counter stands below the
snapshot. -/
def State.newBytes (s : State) : Prop := s.fullSinceCheck = true ∨ s.remaining < s.snapRemaining

/-- The byte that fills the buffer sets FULL_SINCE_CHECK, and any other lowers `REMAINING` (R151, R152). -/
theorem newBytes_receivedByte {s : State} (h : s.Inv) (hle : s.fullSinceCheck = true ∨ s.remaining ≤ s.snapRemaining)
    (b : Byte) : (receivedByte b s).newBytes := by
  obtain ⟨hpos, hcap⟩ := h.remaining
  by_cases h1 : s.remaining = 1
  · have hne : (storeByte b s).remaining ≠ (storeByte b s).params.bufCap := by
      rw [storeByte_remaining, storeByte_params]
      bv_omega
    rw [receivedByte, if_pos h1]
    exact .inl (by simp only [receiverEvent_fullSinceCheck, decide_eq_true hne, Bool.or_true])
  · rw [receivedByte, if_neg h1, State.newBytes, storeByte_fullSinceCheck, storeByte_remaining,
      storeByte_snapRemaining]
    exact hle.imp_right fun hle => by bv_omega

section
variable {s : State} {rest : List Command} (h : s.Inv) (hs : s.started = true)
include h hs

/-- RX_BYTE in a good started state leaves its trace, whether or not it fills the buffer. -/
theorem step_rxByte_newBytes {b : Byte} (hcmds : s.cmds = commandOf .rcv (.rxByte b) :: rest)
    (hle : s.fullSinceCheck = true ∨ s.remaining ≤ s.snapRemaining) :
    ∃ t, step s = .next t ∧ t.cmds = rest ∧ t.Inv ∧ t.started = true ∧ t.newBytes := by
  obtain ⟨hpos, hcap⟩ := h.remaining
  have h0 : s.remaining ≠ 0 := by bv_omega
  have hport := onPort_inv h (commandOf .rcv (.rxByte b)) rest
  have hframe := receivedByte_receiveOnly b (s.onPort (commandOf .rcv (.rxByte b)) rest)
  exact ⟨_, step_rxByte_eq hs hcmds h0 hcap, receiveOnly_cmds hframe,
    answer_inv (receivedByte_inv hport hs h0 b) .done, (receiveOnly_keeps hframe).1.trans hs,
    newBytes_receivedByte hport hle b⟩

/-- More bytes do not take the trace away. -/
theorem runSteps_rxBytes_newBytes {d : List Byte} (hcmds : s.cmds = rxBytes d ++ rest) (hnew : s.newBytes) :
    ∃ t, runSteps d.length s = .next t ∧ t.cmds = rest ∧ t.started = true ∧ t.newBytes := by
  induction d generalizing s with
  | nil => exact ⟨s, rfl, hcmds, hs, hnew⟩
  | cons b d ih =>
    obtain ⟨t, hstep, htcmds, ht, hts, htnew⟩ := step_rxByte_newBytes h hs hcmds (hnew.imp_right BitVec.le_of_lt)
    obtain ⟨u, hrun, hu⟩ := ih ht hts htcmds htnew
    exact ⟨u, (runSteps_succ hstep _).trans hrun, hu⟩

end

/-- A FLUSH that finds the trace rearms (R159). -/
theorem step_flush_of_newBytes {s : State} {rest : List Command} (hs : s.started = true)
    (hcmds : s.cmds = commandOf .wrk .flush :: rest) (hnew : s.newBytes) :
    step s = .next (State.answer (.flush .rearm .b0 0)
      { s.onPort (commandOf .wrk .flush) rest with fullSinceCheck := false, snapRemaining := s.remaining }) := by
  obtain ⟨-, hrearm, -⟩ := flushRearmsOrHandsOffAQuietBuffer (s.onPort (commandOf .wrk .flush) rest) rfl
  rw [step_ok hcmds (decodingAnEncodedCommandGivesItBack .flush rfl)]
  exact hrearm hs (hnew.imp_right BitVec.ne_of_lt)

/-- Settles O27: the first byte leaves a trace, the others keep it, and the FLUSH finds it. -/
theorem flushAfterNewBytesRearms : Obligations.FlushAfterNewBytesRearms := by
  intro s d rest h hs _ hq hd hcmds
  cases d with
  | nil => exact absurd rfl hd
  | cons b d =>
    obtain ⟨t, hbyte, htcmds, ht, hts, htnew⟩ := step_rxByte_newBytes h hs hcmds (.inr (hq ▸ BitVec.le_refl _))
    obtain ⟨u, hbytes, hucmds, hus, hunew⟩ := runSteps_rxBytes_newBytes ht hts htcmds htnew
    have hflush := step_flush_of_newBytes hus hucmds hunew
    have hrun : runSteps (d.length + 1) s = .next u := (runSteps_succ hbyte _).trans hbytes
    exact ⟨_, (runSteps_add hrun 1).trans (runSteps_succ hflush 0), rfl, rfl, rfl, rfl⟩

end Sys2Proof.Machine
end
